-- ==== Sys2Proof/Word.lean ====
section
/-! DEFINITION. The word types of the machine and their plainest arithmetic (00_scope.md R7 to R9). -/

namespace Sys2Proof

/-- 8 bits (R8). -/
abbrev Byte := BitVec 8

/-- A 16-bit word: a selector, a table limit, a 16-bit operand (R8, R7). -/
abbrev Half := BitVec 16

/-- A 32-bit doubleword: a linear address, an offset, a general register (R8, R7). -/
abbrev Word := BitVec 32

/-- Operand or address size: 16 or 32 bits (10_state.md R38). -/
inductive Size where
  | s16
  | s32
deriving DecidableEq, Repr

end Sys2Proof
end

