-- ==== Sys2Proof/Syntax.lean ====
section
/-! DEFINITION. The instructions of spec/opcode_table.json as data: prefixes, operand forms and one
constructor of `Instr` per row (30_encoding.md R130 to R135). -/

namespace Sys2Proof

/-- The six segment registers (10_state.md R20). -/
inductive SReg where
  | es | cs | ss | ds | fs | gs
deriving DecidableEq, Repr

/-- The eight general registers (10_state.md R34). -/
inductive Reg where
  | eax | ecx | edx | ebx | esp | ebp | esi | edi
deriving DecidableEq, Repr

/-- The instruction prefixes the spec names: `66H`, `67H` and the six segment overrides (R131). -/
inductive Pfx where
  | opSize
  | addrSize
  | seg (s : SReg)
deriving DecidableEq, Repr

/-- What stands before the opcode, in the order of the bytes, with the operand size it selects
(R130, R131). -/
structure Head where
  pfx : List Pfx
  osz : Size
deriving DecidableEq, Repr

/-- The register part of a 16-bit effective address, in the order of `rm` (R133). -/
inductive Base16 where
  | bxsi | bxdi | bpsi | bpdi | si | di | bp | bx
deriving DecidableEq, Repr

/-- Displacement of a 16-bit effective address: `mod` 0, 1, 2 (R133). -/
inductive Disp16 where
  | none
  | d8 (v : BitVec 8)
  | d16 (v : BitVec 16)
deriving DecidableEq, Repr

/-- Displacement of a 32-bit effective address: `mod` 0, 1, 2 (R132). -/
inductive Disp32 where
  | none
  | d8 (v : BitVec 8)
  | d32 (v : BitVec 32)
deriving DecidableEq, Repr

/-- A memory operand as its ModRM and SIB bytes give it (R132, R133). In a SIB form an absent index
is index number 4. -/
inductive Mem where
  /-- 16-bit, `mod` 0 `rm` 6: `disp16` alone. -/
  | abs16 (d : BitVec 16)
  /-- 16-bit, a base with a displacement. -/
  | ind16 (b : Base16) (d : Disp16)
  /-- 32-bit, `mod` 0 `rm` 5: `disp32` alone. -/
  | abs32 (d : BitVec 32)
  /-- 32-bit, a base register without SIB. -/
  | ind32 (b : Reg) (d : Disp32)
  /-- 32-bit, SIB with a base register. -/
  | sib (scale : BitVec 2) (index : Option Reg) (base : Reg) (d : Disp32)
  /-- 32-bit, SIB with base 5 and `mod` 0: `disp32` and no base register. -/
  | sibAbs (scale : BitVec 2) (index : Option Reg) (d : BitVec 32)
deriving DecidableEq, Repr

/-- A ModRM operand: a register (`mod` 3) or memory (R132). -/
inductive RM where
  | reg (r : Reg)
  | mem (m : Mem)
deriving DecidableEq, Repr

/-- One constructor per row of spec/opcode_table.json (R135). A far-pointer immediate holds its
offset in 32 bits, zero-extended when the operand size is 16 (R128, R182). -/
inductive Instr where
  | movSregRm (h : Head) (sr : SReg) (src : RM)
  | movRmSreg (h : Head) (dst : RM) (sr : SReg)
  | popEs (h : Head)
  | popSs (h : Head)
  | popDs (h : Head)
  | popFs (h : Head)
  | popGs (h : Head)
  | lds (h : Head) (r : Reg) (m : Mem)
  | les (h : Head) (r : Reg) (m : Mem)
  | lss (h : Head) (r : Reg) (m : Mem)
  | lfs (h : Head) (r : Reg) (m : Mem)
  | lgs (h : Head) (r : Reg) (m : Mem)
  | jmpPtr (h : Head) (sel : Half) (off : Word)
  | jmpMem (h : Head) (m : Mem)
  | callPtr (h : Head) (sel : Half) (off : Word)
  | callMem (h : Head) (m : Mem)
  | retf (h : Head)
  | retfImm (h : Head) (imm : Half)
  | iret (h : Head)
  | intN (h : Head) (n : Byte)
  | int3 (h : Head)
  | into (h : Head)
  | sysenter (h : Head)
  | sysexit (h : Head)
  | sgdt (h : Head) (m : Mem)
  | sidt (h : Head) (m : Mem)
  | sldt (h : Head) (dst : RM)
  | str (h : Head) (dst : RM)
  | lgdt (h : Head) (m : Mem)
  | lidt (h : Head) (m : Mem)
  | lldt (h : Head) (src : RM)
  | ltr (h : Head) (src : RM)
deriving DecidableEq, Repr

/-- The prefixes and operand size of an instruction. -/
def Instr.head : Instr → Head
  | .movSregRm h _ _ | .movRmSreg h _ _ | .popEs h | .popSs h | .popDs h | .popFs h | .popGs h
  | .lds h _ _ | .les h _ _ | .lss h _ _ | .lfs h _ _ | .lgs h _ _
  | .jmpPtr h _ _ | .jmpMem h _ | .callPtr h _ _ | .callMem h _ | .retf h | .retfImm h _
  | .iret h | .intN h _ | .int3 h | .into h | .sysenter h | .sysexit h
  | .sgdt h _ | .sidt h _ | .sldt h _ | .str h _ | .lgdt h _ | .lidt h _ | .lldt h _ | .ltr h _ => h

end Sys2Proof
end

