-- ==== Sys2Proof/Config.lean ====
section
/-! DEFINITION. What an implementation fixes: the parameters of 00_scope.md R6 and the free values the
spec leaves open (`any_N`). The uninterpreted `P_LIN2PHYS` is a function of the state and stands in
Machine/State.lean. -/

namespace Sys2Proof

/-- What stands at a physical address: the values of `P_MEMMAP` (R6, 20_memory.md R83, R84). -/
inductive MemKind where
  | ram | rom | io | none
deriving DecidableEq, Repr

/-- The physical addresses `lo` to `hi`, both included, with what stands there. -/
structure Region where
  lo : Nat
  hi : Nat
  kind : MemKind
deriving DecidableEq, Repr

/-- `P_SS_FAULT` (R6): which exception a stack-segment violation raises. -/
inductive SsFault where
  | gp | ss
deriving DecidableEq, Repr

/-- `P_PHYS_BITS` (R6): the width of a physical address. -/
inductive PhysBits where
  | b32 | b36
deriving DecidableEq, Repr

/-- The parameters of R6 that vary between machines. They are part of the initial state
(70_reset_and_hazards.md R261), so `State` holds them; no instruction changes them. -/
structure Params where
  /-- `P_PHYS_BITS`, which stands for `CR4` bit 5 and PSE-36 (10_state.md R36). -/
  physBits : PhysBits
  /-- `P_PAGING`, which stands for the paging enable (10_state.md R37). -/
  paging : Bool
  /-- `P_MEMMAP`: the first range that holds the address decides; an address in no range is RAM
  (log 9). -/
  memMap : List Region
  /-- `P_AC`, which stands for `CR0.AM` and `EFLAGS.AC` (10_state.md R35). -/
  ac : Bool
  /-- `P_SS_FAULT` (60_exceptions.md R225). -/
  ssFault : SsFault
  /-- `P_ERRCODE`: whether a fault carries its error code (92_eei_decisions.md D8). -/
  errCode : Bool
deriving DecidableEq, Repr

/-- The access kinds `k` of 20_memory.md R81. -/
inductive Access where
  | data | fetch | table
deriving DecidableEq, Repr

/-- Whether a translated access reads or writes (20_memory.md R81). -/
inductive Dir where
  | read | write
deriving DecidableEq, Repr

/-- The fields of a segment descriptor, one for one (30_encoding.md R112); the hidden part of a
segment register holds the same fields (10_state.md R21). -/
structure Desc where
  base : Word
  limit20 : BitVec 20
  type : BitVec 4
  s : Bool
  dpl : BitVec 2
  p : Bool
  avl : Bool
  l : Bool
  db : Bool
  g : Bool
deriving DecidableEq, Repr, Inhabited

/-- What the linear-to-physical map answers: a physical address or a page fault with its error code
(20_memory.md R81, 60_exceptions.md R223). -/
inductive Mapped where
  | addr (pa : BitVec 36)
  | fault (code : Half)
deriving DecidableEq, Repr, Inhabited

/-- `P_NAGENTS` (R6, 92_eei_decisions.md D9). -/
def Config.nAgents : Nat := 1

/-- `any_8`: what a byte of IO or absent memory reads as, by the draw counter, the access kind and the
linear address (20_memory.md R83, R84). Free; log 10. -/
opaque Config.unbackedByte : Nat → Access → Word → Byte

/-- `any_16`: bits 31:16 of a 32-bit register or stack slot that receives a selector, by the draw
counter (40_segment_register_loads.md R156, 41_far_control_transfers.md R183). Free; log 11. -/
opaque Config.upperHalf : Nat → Half

/-- `any_8`: the sixth byte `SGDT` and `SIDT` store with 16-bit operand size, by the draw counter
(42_table_register_instructions.md R200). Free; log 12. -/
opaque Config.sixthByte : Nat → Byte

/-- `any`: the hidden fields after a null selector load, by the draw counter
(40_segment_register_loads.md R152). Free; log 13. -/
opaque Config.nullHidden : Nat → Desc

end Sys2Proof
end

