-- ==== Sys2Proof/WellFormed.lean ====
section
/-! DEFINITION. Which terms of `Instr` are instructions of the table, given the D flag of the code
segment they are decoded in (30_encoding.md R130 to R136, R139). -/

namespace Sys2Proof

/-- The size an attribute has: 32 bits when the D flag xor "the prefix is present" is 1 (R131). -/
def sizeOf (db : Bool) (p : Bool) : Size := if db ^^ p then .s32 else .s16

/-- At most four prefixes, and the operand size is the one they select (R130, R131). -/
def Head.wf (db : Bool) (h : Head) : Bool :=
  decide (h.pfx.length ≤ 4) && decide (h.osz = sizeOf db (h.pfx.contains .opSize))

/-- The address size the prefixes select (R131). -/
def Head.asz (db : Bool) (h : Head) : Size := sizeOf db (h.pfx.contains .addrSize)

/-- A SIB index is any register but `ESP`, whose number means no index (R132). -/
def Mem.indexWf : Option Reg → Bool
  | some r => decide (r ≠ .esp)
  | none => true

/-- A memory operand is one of R132's forms with 32-bit addresses, one of R133's with 16-bit ones. -/
def Mem.wf (asz : Size) : Mem → Bool
  | .abs16 _ => decide (asz = .s16)
  | .ind16 b d => decide (asz = .s16) && !(decide (b = .bp) && decide (d = .none))
  | .abs32 _ => decide (asz = .s32)
  | .ind32 b d => decide (asz = .s32) && decide (b ≠ .esp) && !(decide (b = .ebp) && decide (d = .none))
  | .sib _ i b d => decide (asz = .s32) && Mem.indexWf i && !(decide (b = .ebp) && decide (d = .none))
  | .sibAbs _ i _ => decide (asz = .s32) && Mem.indexWf i

/-- A ModRM operand is a register or a well-formed memory operand. -/
def RM.wf (asz : Size) : RM → Bool
  | .reg _ => true
  | .mem m => m.wf asz

/-- A far-pointer immediate's offset fits the operand size (R128). -/
def offWf (osz : Size) (off : Word) : Bool :=
  decide (osz = .s32) || decide (off.toNat < 65536)

/-- `MOV Sreg` names any segment register but `CS` (R136); every other check is on the head, the
memory operand and the far-pointer immediate. -/
def Instr.wf (db : Bool) (i : Instr) : Bool :=
  i.head.wf db &&
  match i with
  | .movSregRm h sr src => decide (sr ≠ .cs) && src.wf (h.asz db)
  | .movRmSreg h dst _ => dst.wf (h.asz db)
  | .lds h _ m | .les h _ m | .lss h _ m | .lfs h _ m | .lgs h _ m => m.wf (h.asz db)
  | .jmpPtr h _ off | .callPtr h _ off => offWf h.osz off
  | .jmpMem h m | .callMem h m | .sgdt h m | .sidt h m | .lgdt h m | .lidt h m => m.wf (h.asz db)
  | .sldt h rm | .str h rm | .lldt h rm | .ltr h rm => rm.wf (h.asz db)
  | .popEs _ | .popSs _ | .popDs _ | .popFs _ | .popGs _ | .retf _ | .retfImm _ _ | .iret _
  | .intN _ _ | .int3 _ | .into _ | .sysenter _ | .sysexit _ => true

end Sys2Proof
end

