-- ==== Sys2Proof/Decode.lean ====
section
/-! DEFINITION. The decoder, total on any bytes, and the encoder, both from 30_encoding.md R130 to R136
and spec/opcode_table.json. The decoder is a tree that asks for one byte at a time, so that a fetch
reads exactly the bytes an instruction has (R130). -/

namespace Sys2Proof

/-! ### Numbers of registers and prefixes -/

/-- The number of a general register (R134). -/
def Reg.toBits : Reg → BitVec 3
  | .eax => 0 | .ecx => 1 | .edx => 2 | .ebx => 3 | .esp => 4 | .ebp => 5 | .esi => 6 | .edi => 7

/-- The general register of a number (R134). -/
def Reg.ofBits (b : BitVec 3) : Reg :=
  if b = 0 then .eax else if b = 1 then .ecx else if b = 2 then .edx else if b = 3 then .ebx
  else if b = 4 then .esp else if b = 5 then .ebp else if b = 6 then .esi else .edi

/-- The number of a segment register in the `reg` field of `8CH` and `8EH` (R134). -/
def SReg.toBits : SReg → BitVec 3
  | .es => 0 | .cs => 1 | .ss => 2 | .ds => 3 | .fs => 4 | .gs => 5

/-- The segment register of a number; 6 and 7 are invalid (R134). -/
def SReg.ofBits (b : BitVec 3) : Option SReg :=
  if b = 0 then some .es else if b = 1 then some .cs else if b = 2 then some .ss
  else if b = 3 then some .ds else if b = 4 then some .fs else if b = 5 then some .gs else none

/-- The `rm` number of a 16-bit base (R133). -/
def Base16.toBits : Base16 → BitVec 3
  | .bxsi => 0 | .bxdi => 1 | .bpsi => 2 | .bpdi => 3 | .si => 4 | .di => 5 | .bp => 6 | .bx => 7

/-- The 16-bit base of an `rm` number (R133). -/
def Base16.ofBits (b : BitVec 3) : Base16 :=
  if b = 0 then .bxsi else if b = 1 then .bxdi else if b = 2 then .bpsi else if b = 3 then .bpdi
  else if b = 4 then .si else if b = 5 then .di else if b = 6 then .bp else .bx

/-- The byte of a prefix (R131). -/
def Pfx.toByte : Pfx → Byte
  | .opSize => 0x66
  | .addrSize => 0x67
  | .seg .es => 0x26
  | .seg .cs => 0x2E
  | .seg .ss => 0x36
  | .seg .ds => 0x3E
  | .seg .fs => 0x64
  | .seg .gs => 0x65

/-- The prefix a byte is, if it is one (R131). -/
def Pfx.ofByte (b : Byte) : Option Pfx :=
  if b = 0x66 then some .opSize
  else if b = 0x67 then some .addrSize
  else if b = 0x26 then some (.seg .es)
  else if b = 0x2E then some (.seg .cs)
  else if b = 0x36 then some (.seg .ss)
  else if b = 0x3E then some (.seg .ds)
  else if b = 0x64 then some (.seg .fs)
  else if b = 0x65 then some (.seg .gs)
  else none

/-- The segment override in force: the last one given (R131; log 22). -/
def Head.override (h : Head) : Option SReg :=
  h.pfx.foldl (fun acc p => match p with | .seg s => some s | _ => acc) none

/-! ### The decoder -/

/-- Why bytes are no instruction of the table (R136, 92_eei_decisions.md D20). -/
inductive DecodeError where
  /-- The opcode bytes match no row of the table. -/
  | unknownOpcode
  /-- `8EH` with `reg` 1, 6 or 7, or `8CH` with `reg` 6 or 7. -/
  | invalidSegReg
  /-- `mod` 3 where the operand must be memory. -/
  | registerOperand
  /-- A fifth prefix (R130 allows at most four). -/
  | tooManyPrefixes
deriving DecidableEq, Repr

/-- A decoder: an instruction, a refusal, or the need of one more byte. -/
inductive Dec where
  | done (i : Instr)
  | bad (e : DecodeError)
  | need (k : Byte → Dec)

/-- One byte. -/
def Dec.imm8 (k : Byte → Dec) : Dec := .need k

/-- Two bytes, the low one first (20_memory.md R63). -/
def Dec.imm16 (k : BitVec 16 → Dec) : Dec :=
  .need fun a => .need fun b => k (b ++ a)

/-- Four bytes, the low one first (20_memory.md R63). -/
def Dec.imm32 (k : BitVec 32 → Dec) : Dec :=
  .need fun a => .need fun b => .need fun c => .need fun d => k (d ++ c ++ b ++ a)

/-- Bits `lo + 2 .. lo` of a byte. -/
def field3 (lo : Nat) (b : Byte) : BitVec 3 := b.extractLsb' lo 3

/-- Bits 7:6 of a byte: `mod` of ModRM, `scale` of SIB (R132). -/
def topField (b : Byte) : BitVec 2 := b.extractLsb' 6 2

/-- A memory operand with 16-bit addresses (R133). -/
def Dec.mem16 (mod : BitVec 2) (rm : BitVec 3) (k : Mem → Dec) : Dec :=
  if mod = 0 then
    if rm = 6 then .imm16 fun d => k (.abs16 d) else k (.ind16 (.ofBits rm) .none)
  else if mod = 1 then .imm8 fun d => k (.ind16 (.ofBits rm) (.d8 d))
  else .imm16 fun d => k (.ind16 (.ofBits rm) (.d16 d))

/-- The index of a SIB byte: number 4 means none (R132). -/
def indexOfBits (b : BitVec 3) : Option Reg := if b = 4 then none else some (.ofBits b)

/-- A memory operand with 32-bit addresses and a SIB byte (R132). -/
def Dec.memSib (mod : BitVec 2) (sib : Byte) (k : Mem → Dec) : Dec :=
  let scale := topField sib
  let index := indexOfBits (field3 3 sib)
  let base := field3 0 sib
  if mod = 0 then
    if base = 5 then .imm32 fun d => k (.sibAbs scale index d)
    else k (.sib scale index (.ofBits base) .none)
  else if mod = 1 then .imm8 fun d => k (.sib scale index (.ofBits base) (.d8 d))
  else .imm32 fun d => k (.sib scale index (.ofBits base) (.d32 d))

/-- A memory operand with 32-bit addresses (R132). -/
def Dec.mem32 (mod : BitVec 2) (rm : BitVec 3) (k : Mem → Dec) : Dec :=
  if rm = 4 then .need fun sib => .memSib mod sib k
  else if mod = 0 then
    if rm = 5 then .imm32 fun d => k (.abs32 d) else k (.ind32 (.ofBits rm) .none)
  else if mod = 1 then .imm8 fun d => k (.ind32 (.ofBits rm) (.d8 d))
  else .imm32 fun d => k (.ind32 (.ofBits rm) (.d32 d))

/-- A memory operand of the given address size, its ModRM fields read. -/
def Dec.mem (asz : Size) (mod : BitVec 2) (rm : BitVec 3) (k : Mem → Dec) : Dec :=
  match asz with
  | .s16 => .mem16 mod rm k
  | .s32 => .mem32 mod rm k

/-- A ModRM byte whose operand is a register or memory; `k` gets the `reg` field and the operand. The SIB and
displacement bytes are read before `k` looks at `reg`, so that a form which `k` refuses is refused only after
its whole operand is fetched, and a fault of that fetch comes first: DESIGN CHOICE, the spec does not say
which comes first (R136; log 23). -/
def Dec.modRM (asz : Size) (k : BitVec 3 → RM → Dec) : Dec :=
  .need fun m =>
    if topField m = 3 then k (field3 3 m) (.reg (.ofBits (field3 0 m)))
    else .mem asz (topField m) (field3 0 m) fun x => k (field3 3 m) (.mem x)

/-- An operand that must be memory (R136). -/
def Dec.memOnly (o : RM) (k : Mem → Dec) : Dec :=
  match o with
  | .reg _ => .bad .registerOperand
  | .mem m => k m

/-- `/r` with a register and a far pointer in memory: `LDS` and its kind (R135). -/
def Dec.farLoad (asz : Size) (k : Reg → Mem → Instr) : Dec :=
  .modRM asz fun reg o => .memOnly o fun m => .done (k (.ofBits reg) m)

/-- A far-pointer immediate: offset of the operand size, then the selector (R128, R135). -/
def Dec.farPtr (osz : Size) (k : Half → Word → Instr) : Dec :=
  match osz with
  | .s32 => .imm32 fun off => .imm16 fun sel => .done (k sel off)
  | .s16 => .imm16 fun off => .imm16 fun sel => .done (k sel (off.setWidth 32))

/-- The opcodes `0F 00 /n`; another `n` is refused after the operand's bytes are fetched (R135; DESIGN CHOICE,
log 23). -/
def Dec.group0F00 (asz : Size) (h : Head) : Dec :=
  .modRM asz fun n o =>
    if n = 0 then .done (.sldt h o)
    else if n = 1 then .done (.str h o)
    else if n = 2 then .done (.lldt h o)
    else if n = 3 then .done (.ltr h o)
    else .bad .unknownOpcode

/-- The opcodes `0F 01 /n`; the operand must be memory (R135, R136); another `n` is refused after the
operand's bytes are fetched (DESIGN CHOICE, log 23). -/
def Dec.group0F01 (asz : Size) (h : Head) : Dec :=
  .modRM asz fun n o =>
    if n = 0 then .memOnly o fun m => .done (.sgdt h m)
    else if n = 1 then .memOnly o fun m => .done (.sidt h m)
    else if n = 2 then .memOnly o fun m => .done (.lgdt h m)
    else if n = 3 then .memOnly o fun m => .done (.lidt h m)
    else .bad .unknownOpcode

/-- The opcodes `FF /n`; the operand must be memory (R135, R136); another `n` is refused after the operand's
bytes are fetched (DESIGN CHOICE, log 23). -/
def Dec.groupFF (asz : Size) (h : Head) : Dec :=
  .modRM asz fun n o =>
    if n = 3 then .memOnly o fun m => .done (.callMem h m)
    else if n = 5 then .memOnly o fun m => .done (.jmpMem h m)
    else .bad .unknownOpcode

/-- The two-byte opcodes, their second byte read (R135). -/
def Dec.opcode0F (asz : Size) (h : Head) (b : Byte) : Dec :=
  if b = 0x00 then .group0F00 asz h
  else if b = 0x01 then .group0F01 asz h
  else if b = 0x34 then .done (.sysenter h)
  else if b = 0x35 then .done (.sysexit h)
  else if b = 0xA1 then .done (.popFs h)
  else if b = 0xA9 then .done (.popGs h)
  else if b = 0xB2 then .farLoad asz (.lss h)
  else if b = 0xB4 then .farLoad asz (.lfs h)
  else if b = 0xB5 then .farLoad asz (.lgs h)
  else .bad .unknownOpcode

/-- `8EH`: `reg` names a segment register other than `CS`; any other is refused after the operand's bytes are
fetched (R135, R136; DESIGN CHOICE, log 23). -/
def Dec.movSregRm (asz : Size) (h : Head) : Dec :=
  .modRM asz fun reg o =>
    match SReg.ofBits reg with
    | none => .bad .invalidSegReg
    | some sr => if sr = .cs then .bad .invalidSegReg else .done (.movSregRm h sr o)

/-- `8CH`: `reg` names a segment register; any other is refused after the operand's bytes are fetched (R135,
R136; DESIGN CHOICE, log 23). -/
def Dec.movRmSreg (asz : Size) (h : Head) : Dec :=
  .modRM asz fun reg o =>
    match SReg.ofBits reg with
    | none => .bad .invalidSegReg
    | some sr => .done (.movRmSreg h o sr)

/-- The opcodes, their first byte read (R135). -/
def Dec.opcode (asz : Size) (h : Head) (b : Byte) : Dec :=
  if b = 0x07 then .done (.popEs h)
  else if b = 0x0F then .need fun c => .opcode0F asz h c
  else if b = 0x17 then .done (.popSs h)
  else if b = 0x1F then .done (.popDs h)
  else if b = 0x8C then .movRmSreg asz h
  else if b = 0x8E then .movSregRm asz h
  else if b = 0x9A then .farPtr h.osz (.callPtr h)
  else if b = 0xC4 then .farLoad asz (.les h)
  else if b = 0xC5 then .farLoad asz (.lds h)
  else if b = 0xCA then .imm16 fun n => .done (.retfImm h n)
  else if b = 0xCB then .done (.retf h)
  else if b = 0xCC then .done (.int3 h)
  else if b = 0xCD then .imm8 fun n => .done (.intN h n)
  else if b = 0xCE then .done (.into h)
  else if b = 0xCF then .done (.iret h)
  else if b = 0xEA then .farPtr h.osz (.jmpPtr h)
  else if b = 0xFF then .groupFF asz h
  else .bad .unknownOpcode

/-- The head that prefixes make in a code segment with D flag `db` (R131). -/
def Head.mk' (db : Bool) (ps : List Pfx) : Head := ⟨ps, sizeOf db (ps.contains .opSize)⟩

/-- The prefixes, at most `n` more, and then the opcode (R130, R131). -/
def Dec.prefixed (db : Bool) : (n : Nat) → (ps : List Pfx) → Dec
  | 0, ps => .need fun b =>
    match Pfx.ofByte b with
    | some _ => .bad .tooManyPrefixes
    | none => .opcode ((Head.mk' db ps).asz db) (Head.mk' db ps) b
  | n + 1, ps => .need fun b =>
    match Pfx.ofByte b with
    | some p => Dec.prefixed db n (ps ++ [p])
    | none => .opcode ((Head.mk' db ps).asz db) (Head.mk' db ps) b

/-- The decoder for a code segment with D flag `db` (R130, R139). -/
def decoder (db : Bool) : Dec := .prefixed db 4 []

/-- What the decoder makes of a list of bytes. -/
inductive DecodeResult where
  | ok (i : Instr) (rest : List Byte)
  | illegal (e : DecodeError)
  | truncated
deriving DecidableEq, Repr

/-- Run a decoder on a list of bytes. -/
def Dec.run : Dec → List Byte → DecodeResult
  | .done i, bs => .ok i bs
  | .bad e, _ => .illegal e
  | .need _, [] => .truncated
  | .need k, b :: bs => (k b).run bs

/-- Decode the instruction at the head of a list of bytes. -/
def decode (db : Bool) (bs : List Byte) : DecodeResult := (decoder db).run bs

/-! ### The encoder -/

/-- Two bytes, the low one first. -/
def bytes16 (v : BitVec 16) : List Byte := [v.extractLsb' 0 8, v.extractLsb' 8 8]

/-- Four bytes, the low one first. -/
def bytes32 (v : BitVec 32) : List Byte :=
  [v.extractLsb' 0 8, v.extractLsb' 8 8, v.extractLsb' 16 8, v.extractLsb' 24 8]

/-- A byte of three fields: ModRM (`mod reg rm`) or SIB (`scale index base`) (R132). -/
def packByte (hi : BitVec 2) (mid lo : BitVec 3) : Byte := hi ++ mid ++ lo

/-- The number of a SIB index (R132). -/
def indexToBits : Option Reg → BitVec 3
  | none => 4
  | some r => r.toBits

/-- `mod` and the displacement bytes of a 16-bit address (R133). -/
def Disp16.enc : Disp16 → BitVec 2 × List Byte
  | .none => (0, [])
  | .d8 v => (1, [v])
  | .d16 v => (2, bytes16 v)

/-- `mod` and the displacement bytes of a 32-bit address (R132). -/
def Disp32.enc : Disp32 → BitVec 2 × List Byte
  | .none => (0, [])
  | .d8 v => (1, [v])
  | .d32 v => (2, bytes32 v)

/-- The ModRM, SIB and displacement bytes of a memory operand (R132, R133). -/
def Mem.enc (reg : BitVec 3) : Mem → List Byte
  | .abs16 d => packByte 0 reg 6 :: bytes16 d
  | .ind16 b d => packByte d.enc.1 reg b.toBits :: d.enc.2
  | .abs32 d => packByte 0 reg 5 :: bytes32 d
  | .ind32 b d => packByte d.enc.1 reg b.toBits :: d.enc.2
  | .sib sc i b d => packByte d.enc.1 reg 4 :: packByte sc (indexToBits i) b.toBits :: d.enc.2
  | .sibAbs sc i d => packByte 0 reg 4 :: packByte sc (indexToBits i) 5 :: bytes32 d

/-- The ModRM, SIB and displacement bytes of an operand (R132, R133). -/
def RM.enc (reg : BitVec 3) : RM → List Byte
  | .reg r => [packByte 3 reg r.toBits]
  | .mem m => m.enc reg

/-- The bytes of a far-pointer immediate (R128). -/
def farPtrBytes (osz : Size) (sel : Half) (off : Word) : List Byte :=
  (match osz with
   | .s32 => bytes32 off
   | .s16 => bytes16 (off.setWidth 16)) ++ bytes16 sel

/-- The opcode and operand bytes of an instruction (R135). -/
def Instr.body : Instr → List Byte
  | .movSregRm _ sr src => 0x8E :: src.enc sr.toBits
  | .movRmSreg _ dst sr => 0x8C :: dst.enc sr.toBits
  | .popEs _ => [0x07]
  | .popSs _ => [0x17]
  | .popDs _ => [0x1F]
  | .popFs _ => [0x0F, 0xA1]
  | .popGs _ => [0x0F, 0xA9]
  | .lds _ r m => 0xC5 :: m.enc r.toBits
  | .les _ r m => 0xC4 :: m.enc r.toBits
  | .lss _ r m => 0x0F :: 0xB2 :: m.enc r.toBits
  | .lfs _ r m => 0x0F :: 0xB4 :: m.enc r.toBits
  | .lgs _ r m => 0x0F :: 0xB5 :: m.enc r.toBits
  | .jmpPtr h sel off => 0xEA :: farPtrBytes h.osz sel off
  | .jmpMem _ m => 0xFF :: m.enc 5
  | .callPtr h sel off => 0x9A :: farPtrBytes h.osz sel off
  | .callMem _ m => 0xFF :: m.enc 3
  | .retf _ => [0xCB]
  | .retfImm _ n => 0xCA :: bytes16 n
  | .iret _ => [0xCF]
  | .intN _ n => [0xCD, n]
  | .int3 _ => [0xCC]
  | .into _ => [0xCE]
  | .sysenter _ => [0x0F, 0x34]
  | .sysexit _ => [0x0F, 0x35]
  | .sgdt _ m => 0x0F :: 0x01 :: m.enc 0
  | .sidt _ m => 0x0F :: 0x01 :: m.enc 1
  | .sldt _ o => 0x0F :: 0x00 :: o.enc 0
  | .str _ o => 0x0F :: 0x00 :: o.enc 1
  | .lgdt _ m => 0x0F :: 0x01 :: m.enc 2
  | .lidt _ m => 0x0F :: 0x01 :: m.enc 3
  | .lldt _ o => 0x0F :: 0x00 :: o.enc 2
  | .ltr _ o => 0x0F :: 0x00 :: o.enc 3

/-- The bytes of an instruction: prefixes, then opcode and operands (R130). -/
def encode (i : Instr) : List Byte := i.head.pfx.map Pfx.toByte ++ i.body

/-- The length of an instruction in bytes (10_state.md R33). -/
def Instr.length (i : Instr) : Nat := (encode i).length

/-- The longest instruction in bytes (R130). -/
def maxLength : Nat := 15

/-- The bytes of a table word: byte `i` is bits `8i + 7 .. 8i`, and every bit from `nbits` up is 0. -/
def tableBytes (nbits w : Nat) : List Byte :=
  (List.range maxLength).map fun i => BitVec.ofNat 8 ((w % 2 ^ nbits) / 2 ^ (8 * i))

/-- The instruction the decoder reads from a word of spec/opcode_table.json, in a code segment with
the D flag that `Machine.State.reset` has (16-bit; log 2). -/
def decodeTableWord (nbits w : Nat) : Option Instr :=
  match decode false (tableBytes nbits w) with
  | .ok i _ => some i
  | _ => none

end Sys2Proof
end

