-- ==== Sys2Proof/Machine/State.lean ====
section
/-! DEFINITION. The state of the machine as plain data, what can stop a step, and the state after reset
(10_state.md R20 to R47, 70_reset_and_hazards.md R260 to R263). -/

namespace Sys2Proof.Machine

/-- A segment register, `LDTR` or `TR`: the visible selector, the bookkeeping bit `.valid` and the
hidden part, one field per field of a descriptor (10_state.md R21, R29, R30). -/
structure SegReg where
  sel : Half
  valid : Bool
  d : Desc
deriving DecidableEq, Repr

/-- `GDTR` or `IDTR`: a linear base and the offset of the last valid byte (10_state.md R27, R28). -/
structure TableReg where
  base : Word
  limit : Half
deriving DecidableEq, Repr

/-- The eight general registers (10_state.md R34). -/
structure Regs where
  eax : Word
  ecx : Word
  edx : Word
  ebx : Word
  esp : Word
  ebp : Word
  esi : Word
  edi : Word
deriving DecidableEq, Repr

/-- The six segment registers (10_state.md R20). -/
structure SegRegs where
  es : SegReg
  cs : SegReg
  ss : SegReg
  ds : SegReg
  fs : SegReg
  gs : SegReg
deriving DecidableEq, Repr

/-- Physical memory (10_state.md R39): the bytes that differ from `unlistedByte`, addresses strictly
rising. It covers every physical address; an unlisted one reads `unlistedByte`. -/
abbrev Memory := List Host.Cell

/-- What an address that memory does not list reads as: DESIGN CHOICE, unsafe (log 8). -/
def unlistedByte : Byte := 0

/-- The state of the machine. -/
structure State where
  /-- general registers (R34) -/
  regs : Regs
  /-- `EIP`, the offset of the next instruction in `CS` (R33) -/
  pc : Word
  /-- segment registers (R20, R21) -/
  seg : SegRegs
  /-- global descriptor table register (R27) -/
  gdtr : TableReg
  /-- interrupt descriptor table register (R28) -/
  idtr : TableReg
  /-- local descriptor table register (R29) -/
  ldtr : SegReg
  /-- task register (R30) -/
  tr : SegReg
  /-- current privilege level (R31) -/
  cpl : BitVec 2
  /-- physical memory (R39, R40) -/
  mem : Memory
  /-- the parameters of 00_scope.md R6 -/
  par : Params
  /-- the model's own: index of the spec's `any_N` draws (log 10) -/
  free : Nat
  /-- the model's own: the outcome `hang` was reached (R12, R271; log 14) -/
  hung : Bool
deriving DecidableEq, Repr

/-- The exceptions (60_exceptions.md R221 to R225). Each ends the run with the state as before the
instruction (R220, R233): what a handler would do is not modelled, so nothing can be proved of it and
the stop is safe. The error code is there when `P_ERRCODE` is true. -/
inductive Fault where
  /-- `#GP`, raised by every limit, type, null, selector and privilege check (R221). Safe. -/
  | gp (code : Option Half)
  /-- `#NP`, raised by a selector load whose descriptor has P = 0 (R222). Safe. -/
  | np (code : Option Half)
  /-- `#SS`, raised in place of `#GP` and `#NP` for `SS` when `P_SS_FAULT` is `SS` (R225). Safe. -/
  | ss (code : Option Half)
  /-- `#AC`, raised by a misaligned access at `CPL` 3 with `P_AC` (R224). Safe. -/
  | ac (code : Option Half)
  /-- `#PF` with the faulting linear address, which `CR2` receives (R223). Raised by `P_LIN2PHYS`. Safe. -/
  | pf (la : Word) (code : Option Half)
deriving DecidableEq, Repr

/-- Why a step has no meaning. Each is a case to which the spec itself gives no meaning (00_scope.md R5,
R12), so each is safe. -/
inductive Refusal where
  /-- An instruction of the table without a meaning in this model. Raised by `exec` only; safe. -/
  | notModelled (mnemonic : String)
  /-- Bytes that match no row of the table, raised by fetch and by a term no bytes decode to (R136, D20). Safe. -/
  | undecodable (e : DecodeError)
  /-- Far `JMP` or `CALL` to a call gate, task gate or available TSS (41 R181 (b), R192, D17). Safe. -/
  | gateOrTask (type : BitVec 4)
  /-- Far `RET` to an outer privilege level (41 R184, R192, D17). Safe. -/
  | outerReturn
  /-- A descriptor read from, or updated in, IO or absent memory (20 R84, D3). Safe. -/
  | tableNotInMemory
  /-- `IRET` (41 R185, D17). Safe. -/
  | interruptReturn
  /-- `INT n` (41 R186, D17). Safe. -/
  | softwareInterrupt (vector : Byte)
  /-- `INT3` (41 R187, D17). Safe. -/
  | breakpointInterrupt
  /-- `INTO` (41 R188, D17). Safe. -/
  | overflowInterrupt
  /-- `SYSENTER` (41 R189, D17). Safe. -/
  | systemEntry
  /-- `SYSEXIT` (41 R190, D17). Safe. -/
  | systemExit
deriving DecidableEq, Repr

/-- Why an operation of the spec does not go on: the outcomes other than `next state` (00_scope.md R12). -/
inductive Stop where
  | fault (f : Fault)
  | refuse (r : Refusal)
  | hang
deriving DecidableEq, Repr

/-- The result of an operation of the spec. -/
abbrev Res (α : Type) := Except Stop α

/-- The hidden part after reset of a data segment register: base 0, limit FFFFH, present read-write
accessed data (10_state.md R45). `DS.base` = 0 is the spec's own fact; the rest PRESUMED (log 2). `CS` takes
its fields from here too, but for base and type: its `dpl` 0, which R45's `CS` row does not give, is the
model's choice (PRESUMED, log 2). -/
def resetDataDesc : Desc :=
  { base := 0, limit20 := 0x0FFFF, type := 3, s := true, dpl := 0, p := true, avl := false, l := false,
    db := false, g := false }

/-- A data segment register after reset (10_state.md R45; log 2, log 4). -/
def SegReg.resetData : SegReg := ⟨0, true, resetDataDesc⟩

/-- The machine right after reset (10_state.md R45, 70_reset_and_hazards.md R260): the first fetch is
at physical FFFFFFF0H and `DS.base` is 0. The other values are the family's, as R45's third column has
them (PRESUMED, log 2, log 6), but for `CS.type` (log 3), the bookkeeping bits and the rest of `LDTR`
and `TR` (log 4), memory (log 8) and the parameters (log 7, log 9). -/
def State.reset : State :=
  { regs := ⟨0, 0, 0, 0, 0, 0, 0, 0⟩
    pc := 0x0000FFF0
    seg :=
      { es := SegReg.resetData
        cs := ⟨0xF000, true, { resetDataDesc with base := 0xFFFF0000, type := 11 }⟩
        ss := SegReg.resetData
        ds := SegReg.resetData
        fs := SegReg.resetData
        gs := SegReg.resetData }
    gdtr := ⟨0, 0xFFFF⟩
    idtr := ⟨0, 0xFFFF⟩
    ldtr := ⟨0, false, { resetDataDesc with type := 2, s := false }⟩
    tr := ⟨0, false, { resetDataDesc with type := 11, s := false }⟩
    cpl := 0
    mem := []
    par := { physBits := .b32, paging := false, memMap := [], ac := false, ssFault := .ss, errCode := true }
    free := 0
    hung := false }

end Sys2Proof.Machine

namespace Sys2Proof

/-- `P_LIN2PHYS` (00_scope.md R6, 20_memory.md R81): a function of the whole state, the linear address, the
access kind, read or write, and `CPL`. Uninterpreted: the paging structures are bytes of memory, and the
register that locates them is hidden in the function (10_state.md R37). Log 15. -/
opaque Config.linToPhys : Machine.State → Word → Access → Dir → BitVec 2 → Mapped

end Sys2Proof
end

