-- ==== Sys2Proof/Machine/Flags.lean ====
section
/-! DEFINITION. The fields and flags of selectors and descriptors and what is computed from them
(30_encoding.md R110 to R129, 20_memory.md R72 to R76). The spec has no arithmetic flag: no rule reads
or writes one (10_state.md R35). -/

namespace Sys2Proof.Machine

/-! ### Selectors (30_encoding.md R110, R111) -/

/-- `Index`, bits 15:3. -/
def selIndex (sel : Half) : Nat := (sel.extractLsb' 3 13).toNat

/-- `TI`, bit 2: set for the LDT. -/
def selTI (sel : Half) : Bool := sel.getLsbD 2

/-- `RPL`, bits 1:0. -/
def selRPL (sel : Half) : BitVec 2 := sel.extractLsb' 0 2

/-- A selector from its fields. -/
def mkSel (index : BitVec 13) (ti : Bool) (rpl : BitVec 2) : Half := index ++ BitVec.ofBool ti ++ rpl

/-- The null selector: Index 0 and TI 0, whatever RPL is (R111). -/
def isNull (sel : Half) : Bool := decide (sel.extractLsb' 2 14 = 0)

/-- The error code of a fault that names a selector: `sel & 0xFFFC` (60_exceptions.md R221). -/
def selCode (sel : Half) : Half := sel &&& 0xFFFC

end Sys2Proof.Machine

namespace Sys2Proof

/-! ### Descriptors (30_encoding.md R112) -/

/-- The fields of a 64-bit descriptor (R112). -/
def Desc.ofBits (v : BitVec 64) : Desc :=
  { base := v.extractLsb' 56 8 ++ v.extractLsb' 16 24
    limit20 := v.extractLsb' 48 4 ++ v.extractLsb' 0 16
    type := v.extractLsb' 40 4
    s := v.getLsbD 44
    dpl := v.extractLsb' 45 2
    p := v.getLsbD 47
    avl := v.getLsbD 52
    l := v.getLsbD 53
    db := v.getLsbD 54
    g := v.getLsbD 55 }

/-- The 64-bit descriptor with the given fields (R112): the reverse of `Desc.ofBits`. -/
def Desc.toBits (d : Desc) : BitVec 64 :=
  d.base.extractLsb' 24 8 ++ BitVec.ofBool d.g ++ BitVec.ofBool d.db ++ BitVec.ofBool d.l ++
  BitVec.ofBool d.avl ++ d.limit20.extractLsb' 16 4 ++ BitVec.ofBool d.p ++ d.dpl ++
  BitVec.ofBool d.s ++ d.type ++ d.base.extractLsb' 0 24 ++ d.limit20.extractLsb' 0 16

/-- Type bit 3: code (R115). -/
def Desc.isCode (d : Desc) : Bool := d.type.getLsbD 3

/-- Type bit 2 of a code segment: conforming (R115). -/
def Desc.conforming (d : Desc) : Bool := d.type.getLsbD 2

/-- Type bit 2 of a data segment: expand-down (R115, 20_memory.md R74). -/
def Desc.expandDown (d : Desc) : Bool := !d.type.getLsbD 3 && d.type.getLsbD 2

/-- Type bit 1 of a code segment: readable (R115). -/
def Desc.readable (d : Desc) : Bool := d.type.getLsbD 1

/-- Type bit 1 of a data segment: writable (R115). -/
def Desc.writable (d : Desc) : Bool := d.type.getLsbD 1

/-- Type bit 0 of a code or data segment: accessed (R115). -/
def Desc.accessed (d : Desc) : Bool := d.type.getLsbD 0

/-- Whether the descriptor is one of a writable data segment: types 2, 3, 6, 7 of table 1 (R121). -/
def Desc.isWritableData (d : Desc) : Bool := !d.isCode && d.writable

/-- Whether the descriptor is one of a data segment or a readable code segment (R121). -/
def Desc.isReadable (d : Desc) : Bool := !d.isCode || d.readable

/-- The kinds of table 1 (R121) and table 2 (R122), in the 32-bit column. -/
inductive DescKind where
  | data (writable expandDown accessed : Bool)
  | code (readable conforming accessed : Bool)
  | reserved
  | tss16 (busy : Bool)
  | ldt
  | callGate16
  | taskGate
  | interruptGate16
  | trapGate16
  | tss32 (busy : Bool)
  | callGate32
  | interruptGate32
  | trapGate32
deriving DecidableEq, Repr

/-- Table 2: the system-segment and gate types, S = 0 (R122). -/
def systemKind (t : BitVec 4) : DescKind :=
  if t = 1 then .tss16 false
  else if t = 2 then .ldt
  else if t = 3 then .tss16 true
  else if t = 4 then .callGate16
  else if t = 5 then .taskGate
  else if t = 6 then .interruptGate16
  else if t = 7 then .trapGate16
  else if t = 9 then .tss32 false
  else if t = 11 then .tss32 true
  else if t = 12 then .callGate32
  else if t = 14 then .interruptGate32
  else if t = 15 then .trapGate32
  else .reserved

/-- Tables 1 and 2: what a descriptor describes (R115, R121, R122). -/
def Desc.kind (d : Desc) : DescKind :=
  if d.s then
    if d.isCode then .code d.readable d.conforming d.accessed
    else .data d.writable d.expandDown d.accessed
  else systemKind d.type

/-- An LDT descriptor: S = 0, type 2 (R122, 42 R206). -/
def Desc.isLdt (d : Desc) : Bool := decide (d.kind = .ldt)

/-- An available TSS: S = 0, type 1 or 9 (R122, 42 R207). -/
def Desc.isAvailableTss (d : Desc) : Bool := decide (d.kind = .tss16 false) || decide (d.kind = .tss32 false)

/-- What a far `JMP` or `CALL` could transfer through by a mechanism the spec does not give: call
gates, the task gate and available TSSs, types 4, 12, 5, 1, 9 (41 R181 (b), R192). -/
def Desc.isGateOrTask (d : Desc) : Bool :=
  decide (d.kind = .callGate16) || decide (d.kind = .callGate32) || decide (d.kind = .taskGate) ||
  d.isAvailableTss

/-- The size the D or B flag selects (R118). -/
def Desc.size (d : Desc) : Size := if d.db then .s32 else .s16

end Sys2Proof

namespace Sys2Proof.Machine

/-! ### Limits, types and loads -/

/-- `EffLimit`: the limit in bytes, scaled by G (20_memory.md R72). -/
def effLimit (d : Desc) : Nat :=
  if d.g then d.limit20.toNat * 4096 + 4095 else d.limit20.toNat

/-- `Upper`: the last offset of an expand-down segment, by B (20_memory.md R74). -/
def upperBound (d : Desc) : Nat := if d.db then 0xFFFFFFFF else 0xFFFF

/-- `InLimit`: whether the `n` bytes at `off` lie in the segment; offsets do not wrap
(20_memory.md R73 to R75). -/
def inLimit (d : Desc) (off n : Nat) : Bool :=
  if d.expandDown then decide (effLimit d < off) && decide (off + n - 1 ≤ upperBound d)
  else decide (off + n - 1 ≤ effLimit d)

/-- The kinds of access that `SegAccess` checks (20_memory.md R70). -/
inductive Use where
  | read | write | fetch
deriving DecidableEq, Repr

/-- `TypeAllows` (20_memory.md R76). -/
def typeAllows (d : Desc) : Use → Bool
  | .fetch => d.isCode
  | .read => !d.isCode || d.readable
  | .write => !d.isCode && d.writable

/-- What a selector load leaves in the register: the selector and the descriptor's fields, with the
accessed bit set (40 R151, 41 R181). -/
def loaded (sel : Half) (d : Desc) : SegReg := ⟨sel, true, { d with type := d.type ||| 1 }⟩

/-! ### Exceptions' vectors (60_exceptions.md R221 to R225, 93_implementation_defined.md G5) -/

/-- The vector number of an exception. -/
def Fault.vector : Fault → Nat
  | .np _ => 11
  | .ss _ => 12
  | .gp _ => 13
  | .pf _ _ => 14
  | .ac _ => 17

end Sys2Proof.Machine
end

