-- ==== Sys2Proof/Machine/Ops.lean ====
section
/-! DEFINITION. The named operations over registers, memory and descriptors, and the one operation that
takes an exception (20_memory.md R60 to R93, 60_exceptions.md R220 to R233). -/

namespace Sys2Proof.Machine

/-! ### Taking an exception (60_exceptions.md R220, R233)

The spec's exception is the terminal outcome `fault #X(code)` with the state as before the
instruction: nothing is saved, no handler is entered, and there is no return (R233, R234). -/

/-- The exceptions that carry only an error code. -/
inductive Exn where
  | gp | np | ss | ac
deriving DecidableEq, Repr

/-- The error code a fault carries: none when `P_ERRCODE` is false (92_eei_decisions.md D8). -/
def State.errCode (s : State) (code : Half) : Option Half := if s.par.errCode then some code else none

/-- `raise #X(code)` (R220). -/
def raise (s : State) (x : Exn) (code : Half) : Stop :=
  .fault (match x with
    | .gp => .gp (s.errCode code)
    | .np => .np (s.errCode code)
    | .ss => .ss (s.errCode code)
    | .ac => .ac (s.errCode code))

/-- `raise #PF`: the linear address and the error code come from `P_LIN2PHYS` (R223). -/
def raisePageFault (s : State) (la : Word) (code : Half) : Stop := .fault (.pf la (s.errCode code))

/-- Go on when `ok` holds, stop with `e` otherwise. -/
def need (ok : Bool) (e : Stop) : Res Unit := if ok then .ok () else .error e

/-- The outcome of an instruction that started in `s`: its next state with the draw counter advanced,
the fault or the refusal with nothing written, or, for `hang`, the old state looping for ever
(00_scope.md R12, 92_eei_decisions.md D14, D19). -/
def conclude (s : State) : Res State → Host.Outcome State Fault Refusal
  | .ok t => .next { t with free := t.free + 1 }
  | .error (.fault f) => .fault f
  | .error (.refuse r) => .refused r
  | .error .hang => .next { s with hung := true }

/-! ### General registers (10_state.md R34) -/

/-- Read a general register. -/
def Regs.get (r : Regs) : Reg → Word
  | .eax => r.eax | .ecx => r.ecx | .edx => r.edx | .ebx => r.ebx
  | .esp => r.esp | .ebp => r.ebp | .esi => r.esi | .edi => r.edi

/-- Write a general register. -/
def Regs.set (r : Regs) (x : Reg) (v : Word) : Regs :=
  match x with
  | .eax => { r with eax := v }
  | .ecx => { r with ecx := v }
  | .edx => { r with edx := v }
  | .ebx => { r with ebx := v }
  | .esp => { r with esp := v }
  | .ebp => { r with ebp := v }
  | .esi => { r with esi := v }
  | .edi => { r with edi := v }

/-- `x[r]`, 32 bits. -/
def State.reg (s : State) (r : Reg) : Word := s.regs.get r

/-- `x[r] <- v`, 32 bits. -/
def State.setReg (s : State) (r : Reg) (v : Word) : State := { s with regs := s.regs.set r v }

/-- `x[r][15:0]`. -/
def State.reg16 (s : State) (r : Reg) : Half := (s.reg r).setWidth 16

/-- `x[r][15:0] <- v`; bits 31:16 are kept. -/
def State.setReg16 (s : State) (r : Reg) (v : Half) : State :=
  s.setReg r ((s.reg r).extractLsb' 16 16 ++ v)

/-- `x[r] <- v` at an operand size: 16 bits keep bits 31:16 (40 R158). -/
def State.setRegSize (s : State) (z : Size) (r : Reg) (v : Word) : State :=
  match z with
  | .s32 => s.setReg r v
  | .s16 => s.setReg16 r (v.setWidth 16)

/-! ### Segment registers (10_state.md R20, R21) -/

/-- Read a segment register. -/
def SegRegs.get (r : SegRegs) : SReg → SegReg
  | .es => r.es | .cs => r.cs | .ss => r.ss | .ds => r.ds | .fs => r.fs | .gs => r.gs

/-- Write a segment register, both parts together (10_state.md R23). -/
def SegRegs.set (r : SegRegs) (x : SReg) (v : SegReg) : SegRegs :=
  match x with
  | .es => { r with es := v }
  | .cs => { r with cs := v }
  | .ss => { r with ss := v }
  | .ds => { r with ds := v }
  | .fs => { r with fs := v }
  | .gs => { r with gs := v }

/-- `SR[s]`. -/
def State.sreg (s : State) (x : SReg) : SegReg := s.seg.get x

/-- `SR[s] <- v`. -/
def State.setSreg (s : State) (x : SReg) (v : SegReg) : State := { s with seg := s.seg.set x v }

/-! ### Sizes and the instruction pointer (10_state.md R33, R38) -/

/-- The number of bytes of an operand size. -/
def sizeBytes : Size → Nat
  | .s16 => 2
  | .s32 => 4

/-- An offset cut to a size. -/
def truncSize (z : Size) (v : Nat) : Nat :=
  match z with
  | .s16 => v % 2 ^ 16
  | .s32 => v % 2 ^ 32

/-- The instruction pointer moved on by `n` bytes: 16 bits, wrapping at 64 KB, when the code segment's
D flag is 0 (10_state.md R33; log 21). -/
def State.pcPlus (s : State) (n : Nat) : Word :=
  BitVec.ofNat 32 (truncSize s.seg.cs.d.size (s.pc.toNat + n))

/-- `pc <- pc + length`. -/
def State.advance (s : State) (n : Nat) : State := { s with pc := s.pcPlus n }

/-! ### Physical memory (20_memory.md R61, R63, R83, R84) -/

/-- The byte at a physical address. -/
def Memory.read : Memory → Nat → Byte
  | [], _ => unlistedByte
  | (b, v) :: m, a => if a = b then v else Memory.read m a

/-- List a byte at its place in the rising order. -/
def Memory.insert (a : Nat) (v : Byte) : Memory → Memory
  | [] => [(a, v)]
  | (b, w) :: m => if a < b then (a, v) :: (b, w) :: m else (b, w) :: Memory.insert a v m

/-- Store a byte; the canonical form lists no byte that an unlisted address reads as. -/
def Memory.write (m : Memory) (a : Nat) (v : Byte) : Memory :=
  let rest := m.filter fun c => c.1 != a
  if v = unlistedByte then rest else Memory.insert a v rest

/-- The canonical form: addresses strictly rising, no byte listed that an unlisted address reads as. -/
abbrev Memory.wf (m : Memory) : Prop :=
  m.Pairwise (fun a b => a.1 < b.1) ∧ ∀ c ∈ m, c.2 ≠ unlistedByte

/-- `P_MEMMAP`: what stands at a physical address (00_scope.md R6; log 9). -/
def kindIn : List Region → Nat → MemKind
  | [], _ => .ram
  | r :: rs, a => if r.lo ≤ a ∧ a ≤ r.hi then r.kind else kindIn rs a

/-- What stands at a physical address of the machine. -/
def State.kindAt (s : State) (pa : Nat) : MemKind := kindIn s.par.memMap pa

/-- Whether a descriptor may be held at a physical address: RAM or ROM (20_memory.md R84). -/
def State.holdsTables (s : State) (pa : Nat) : Bool :=
  match s.kindAt pa with
  | .ram | .rom => true
  | .io | .none => false

/-- `MemRead(pa, 1)`: RAM and ROM read their content, IO and absent memory any value
(20_memory.md R83, R84; log 10). -/
def State.readByte (s : State) (k : Access) (la : Word) (pa : Nat) : Byte :=
  match s.kindAt pa with
  | .ram | .rom => Memory.read s.mem pa
  | .io | .none => Config.unbackedByte s.free k la

/-- `MemWrite(pa, 1, v)`: only RAM changes (20_memory.md R83, R84; log 16). -/
def State.storeByte (s : State) (pa : Nat) (v : Byte) : State :=
  match s.kindAt pa with
  | .ram => { s with mem := Memory.write s.mem pa v }
  | .rom | .io | .none => s

/-- The number whose bytes, lowest first, are the list's (20_memory.md R63). -/
def leValue : List Byte → Nat
  | [] => 0
  | b :: bs => b.toNat + 256 * leValue bs

/-- Store the bytes of `v`, lowest first, at the listed physical addresses (20_memory.md R63). -/
def State.store (s : State) : List Nat → Nat → State
  | [], _ => s
  | pa :: pas, v => (s.storeByte pa (BitVec.ofNat 8 v)).store pas (v / 256)

/-! ### Linear to physical (20_memory.md R81) -/

/-- `2 ^ P_PHYS_BITS`. -/
def physSpace : PhysBits → Nat
  | .b32 => 2 ^ 32
  | .b36 => 2 ^ 36

/-- `Phys`: the linear address itself without paging, else what `P_LIN2PHYS` says (R81, R82; log 15). -/
def State.phys (s : State) (k : Access) (rw : Dir) (la : Word) : Res Nat :=
  if s.par.paging then
    match Config.linToPhys s la k rw s.cpl with
    | .addr pa => .ok (pa.toNat % physSpace s.par.physBits)
    | .fault code => .error (raisePageFault s la code)
  else .ok la.toNat

/-- The physical addresses of the `n` bytes at a linear address, byte by byte (R81). -/
def State.translate (s : State) (k : Access) (rw : Dir) : (la : Word) → (n : Nat) → Res (List Nat)
  | _, 0 => .ok []
  | la, n + 1 => do
    let pa ← s.phys k rw la
    let pas ← s.translate k rw (la + 1) n
    .ok (pa :: pas)

/-- The bytes at the listed physical addresses, the first one's linear address being `la`. -/
def State.readBytes (s : State) (k : Access) : (la : Word) → List Nat → List Byte
  | _, [] => []
  | la, pa :: pas => s.readByte k la pa :: s.readBytes k (la + 1) pas

/-- `LinRead(la, n, k)` (R81). -/
def State.linRead (s : State) (k : Access) (la : Word) (n : Nat) : Res Nat := do
  let pas ← s.translate k .read la n
  .ok (leValue (s.readBytes k la pas))

/-! ### Logical to linear (20_memory.md R70 to R77, R86) -/

/-- `SegFault(s, code)`: `#SS` for `SS` when `P_SS_FAULT` is `SS`, else `#GP` (R70, 60_exceptions.md R225). -/
def segFault (s : State) (x : SReg) (code : Half) : Stop :=
  if x = .ss ∧ s.par.ssFault = .ss then raise s .ss code else raise s .gp code

/-- The three segmentation checks of `SegAccess`: the register holds a descriptor (R71), its type allows
the use (R76), and every byte is in the limit (R73 to R75). -/
def State.segCheck (s : State) (x : SReg) (off n : Nat) (u : Use) : Res Unit := do
  need (s.sreg x).valid (segFault s x 0)
  need (typeAllows (s.sreg x).d u) (segFault s x 0)
  need (inLimit (s.sreg x).d off n) (segFault s x 0)

/-- The linear address of an offset in a segment, modulo 2^32 (R77). -/
def State.linAddr (s : State) (x : SReg) (off : Nat) : Word := (s.sreg x).d.base + BitVec.ofNat 32 off

/-- `AlignFault(la, n)` (R86). -/
def State.alignFault (s : State) (la : Word) (n : Nat) : Bool :=
  s.par.ac && decide (s.cpl = 3) && (decide (n = 2) || decide (n = 4) || decide (n = 8)) &&
  decide (la.toNat % n ≠ 0)

/-- `SegAccess(s, off, n, kind)` (R70). The offset is an unbounded number, so that one past the top of
the offset space is outside every limit (R75; log 19). -/
def State.segAccess (s : State) (x : SReg) (off n : Nat) (u : Use) : Res Word := do
  s.segCheck x off n u
  need (!s.alignFault (s.linAddr x off) n) (raise s .ac 0)
  .ok (s.linAddr x off)

/-- `SegRead(s, off, n)` (R70). -/
def State.segRead (s : State) (x : SReg) (off n : Nat) : Res Nat := do
  let la ← s.segAccess x off n .read
  s.linRead .data la n

/-- The checks of `SegWrite(s, off, n, v)`: the physical addresses it stores to (R70, R81). The store
itself is `State.store`, made after all checks of the instruction (92_eei_decisions.md D14). -/
def State.segWriteTo (s : State) (x : SReg) (off n : Nat) : Res (List Nat) := do
  let la ← s.segAccess x off n .write
  s.translate .data .write la n

/-! ### Descriptors in memory (20_memory.md R66, R67, R89) -/

/-- The base and limit of the table a selector points into; no LDT gives `#GP` (R66 (a)). -/
def State.tableOf (s : State) (sel : Half) : Res (Word × Nat) :=
  if selTI sel then
    if s.ldtr.valid then .ok (s.ldtr.d.base, effLimit s.ldtr.d) else .error (raise s .gp (selCode sel))
  else .ok (s.gdtr.base, s.gdtr.limit.toNat)

/-- `ReadDescriptor(sel)`: the linear address of the descriptor and its fields (R66). A table in IO or
absent memory is refused (R84; log 17). DESIGN CHOICE (log 39): all eight bytes are translated before any
byte's kind of memory is looked at, so a page fault of one byte comes before the refusal of another. -/
def State.readDescriptor (s : State) (sel : Half) : Res (Word × Desc) := do
  let t ← s.tableOf sel
  need (decide (selIndex sel * 8 + 7 ≤ t.2)) (raise s .gp (selCode sel))
  let la := t.1 + BitVec.ofNat 32 (selIndex sel * 8)
  let pas ← s.translate .table .read la 8
  need (pas.all s.holdsTables) (.refuse .tableNotInMemory)
  .ok (la, Desc.ofBits (BitVec.ofNat 64 (leValue (s.readBytes .table la pas))))

/-- The checks of `SetAccessed(la, desc)`: no write when the bit is set, `hang` for ROM, else the
physical address to write (R89, 70_reset_and_hazards.md R271). -/
def State.accessedAt (s : State) (la : Word) (d : Desc) : Res (Option Nat) :=
  if d.accessed then .ok none
  else do
    let pa ← s.phys .table .write (la + 5)
    match s.kindAt pa with
    | .ram => .ok (some pa)
    | .rom => .error .hang
    | .io | .none => .error (.refuse .tableNotInMemory)

/-- The write of `SetAccessed`: bit 0 of the access byte (R89). -/
def State.setAccessed (s : State) : Option Nat → State
  | none => s
  | some pa => { s with mem := Memory.write s.mem pa (Memory.read s.mem pa ||| 1) }

end Sys2Proof.Machine
end

