-- ==== Sys2Proof/Machine/Operands.lean ====
section
/-! DEFINITION. Operands: effective addresses, ModRM operands, far pointers and the stack
(30_encoding.md R131 to R134, 20_memory.md R78 to R80). -/

namespace Sys2Proof.Machine

/-! ### Effective addresses (30_encoding.md R132, R133) -/

/-- The displacement of a 16-bit address, `disp8` sign-extended (R133). -/
def disp16 : Disp16 → BitVec 16
  | .none => 0
  | .d8 v => v.signExtend 16
  | .d16 v => v

/-- The displacement of a 32-bit address, `disp8` sign-extended (R132). -/
def disp32 : Disp32 → Word
  | .none => 0
  | .d8 v => v.signExtend 32
  | .d32 v => v

/-- The register part of a 16-bit address (R133). -/
def State.base16 (s : State) : Base16 → BitVec 16
  | .bxsi => s.reg16 .ebx + s.reg16 .esi
  | .bxdi => s.reg16 .ebx + s.reg16 .edi
  | .bpsi => s.reg16 .ebp + s.reg16 .esi
  | .bpdi => s.reg16 .ebp + s.reg16 .edi
  | .si => s.reg16 .esi
  | .di => s.reg16 .edi
  | .bp => s.reg16 .ebp
  | .bx => s.reg16 .ebx

/-- A scaled index, 0 when there is none (R132). -/
def State.scaled (s : State) (scale : BitVec 2) : Option Reg → Word
  | none => 0
  | some r => s.reg r <<< scale.toNat

/-- The offset of a memory operand: the sum wraps at 2^32, or at 2^16 and is zero-extended
(R132, R133, 20_memory.md R79). -/
def State.ea (s : State) : Mem → Word
  | .abs16 d => d.setWidth 32
  | .ind16 b d => (s.base16 b + disp16 d).setWidth 32
  | .abs32 d => d
  | .ind32 b d => s.reg b + disp32 d
  | .sib sc i b d => s.reg b + s.scaled sc i + disp32 d
  | .sibAbs sc i d => s.scaled sc i + d

/-- The default segment register of a memory operand: `SS` when the base is `EBP`, `ESP` or `BP`, else
`DS` (20_memory.md R78, R132, R133). -/
def Mem.defaultSeg : Mem → SReg
  | .ind16 .bpsi _ | .ind16 .bpdi _ | .ind16 .bp _ => .ss
  | .ind32 .ebp _ | .ind32 .esp _ | .sib _ _ .ebp _ | .sib _ _ .esp _ => .ss
  | _ => .ds

/-- The segment register of a memory operand: an override replaces the default (20_memory.md R78). -/
def segOf (h : Head) (m : Mem) : SReg := h.override.getD (Mem.defaultSeg m)

/-! ### Operands of 16 bits -/

/-- A 16-bit operand: the low half of a register, or two bytes of memory (40 R155, 42 R206). -/
def State.readRm16 (s : State) (h : Head) : RM → Res Half
  | .reg r => .ok (s.reg16 r)
  | .mem m => do
    let v ← s.segRead (segOf h m) (s.ea m).toNat 2
    .ok (BitVec.ofNat 16 v)

/-- Store a selector: in memory 16 bits; in a register 16 bits, and with 32-bit operand size any value
in bits 31:16 (40 R156, 42 R202, 92_eei_decisions.md D21; log 11). -/
def State.writeRm16 (s : State) (h : Head) (o : RM) (v : Half) : Res State :=
  match o with
  | .reg r =>
    .ok (match h.osz with
      | .s16 => s.setReg16 r v
      | .s32 => s.setReg r (Config.upperHalf s.free ++ v))
  | .mem m => do
    let pas ← s.segWriteTo (segOf h m) (s.ea m).toNat 2
    .ok (s.store pas v.toNat)

/-! ### Far pointers (30_encoding.md R128) -/

/-- A far pointer in memory: the offset of the operand size, zero-extended, then the selector
(R128, 40 R158, 41 R182). -/
def State.readFarPtr (s : State) (h : Head) (m : Mem) : Res (Half × Word) := do
  let off ← s.segRead (segOf h m) (s.ea m).toNat (sizeBytes h.osz)
  let sel ← s.segRead (segOf h m) ((s.ea m).toNat + sizeBytes h.osz) 2
  .ok (BitVec.ofNat 16 sel, BitVec.ofNat 32 off)

/-! ### The stack (10_state.md R32, 20_memory.md R80) -/

/-- Whether the stack pointer is `ESP` or `SP`: the B flag of the segment in `SS` (10_state.md R32). -/
def State.stackSize (s : State) : Size := s.seg.ss.d.size

/-- The stack pointer as an offset in `SS` (R80). -/
def State.sp (s : State) : Nat := truncSize s.stackSize s.regs.esp.toNat

/-- `trunc_W(sp + n)` (R80). -/
def State.spPlus (s : State) (n : Nat) : Nat := truncSize s.stackSize (s.sp + n)

/-- `trunc_W(sp - n)` (R80). -/
def State.spMinus (s : State) (n : Nat) : Nat := truncSize s.stackSize (s.sp + 2 ^ 32 - n)

/-- Write the stack pointer at a width: `SP` leaves `ESP[31:16]` alone (10_state.md R32). -/
def State.setSp (s : State) (z : Size) (v : Nat) : State := s.setRegSize z .esp (BitVec.ofNat 32 v)

/-- The read of a pop of `n` bytes (R80). -/
def State.popRead (s : State) (n : Nat) : Res Nat := s.segRead .ss s.sp n

/-- The checks of a push of `n` bytes whose new stack pointer is `sp'` (R80). -/
def State.pushTo (s : State) (sp' n : Nat) : Res (List Nat) := s.segWriteTo .ss sp' n

end Sys2Proof.Machine
end

