-- ==== Sys2Proof/Machine/FarTransfers.lean ====
section
/-! DEFINITION. Family 2: the control transfers that load `CS` (41_far_control_transfers.md R180 to
R192). -/

namespace Sys2Proof.Machine

/-! ### Entering a code segment (R181) -/

/-- The checks (b) to (h) of `EnterCode(sel, off)` on the descriptor read (R181). -/
def enterChecks (s : State) (sel : Half) (off : Word) (d : Desc) : Res Unit := do
  need (d.s || !d.isGateOrTask) (.refuse (.gateOrTask d.type))
  need d.s (raise s .gp (selCode sel))
  need d.isCode (raise s .gp (selCode sel))
  need (if d.conforming then decide (d.dpl ≤ s.cpl)
    else decide (d.dpl = s.cpl) && decide (selRPL sel ≤ s.cpl)) (raise s .gp (selCode sel))
  need d.p (raise s .np (selCode sel))
  need (decide (off.toNat ≤ effLimit d)) (raise s .gp 0)

/-- `EnterCode(sel, off)` up to and including check (h): the descriptor's address and fields (R181). -/
def State.enterRead (s : State) (sel : Half) (off : Word) : Res (Word × Desc) := do
  need (!isNull sel) (raise s .gp 0)
  let r ← s.readDescriptor sel
  enterChecks s sel off r.2
  .ok r

/-- The selector `CS` receives from a far `JMP` or `CALL`: its RPL is forced to `CPL` (R181). -/
def forceRPL (sel : Half) (cpl : BitVec 2) : Half := (sel &&& 0xFFFC) ||| cpl.setWidth 16

/-- The commit of a transfer: the accessed bit, `CS` and `pc`; `CPL` is unchanged (R181). -/
def State.enterCommit (s : State) (a : Option Nat) (cs : SegReg) (off : Word) : State :=
  { (s.setAccessed a).setSreg .cs cs with pc := off }

/-! ### Far `JMP` (R182) -/

/-- A far `JMP` to a selector and an offset (R181, R182). -/
def State.jumpFar (s : State) (sel : Half) (off : Word) : Res State := do
  let r ← s.enterRead sel off
  let a ← s.accessedAt r.1 r.2
  .ok (s.enterCommit a (loaded (forceRPL sel s.cpl) r.2) off)

/-- A far-pointer immediate's offset at an operand size: 16 bits are zero-extended (R182). -/
def immOffset (z : Size) (off : Word) : Word :=
  match z with
  | .s32 => off
  | .s16 => (off.setWidth 16).setWidth 32

/-- `JMP ptr16:z` (R182). -/
def execJmpPtr (h : Head) (sel : Half) (off : Word) (s : State) : Host.Outcome State Fault Refusal :=
  conclude s (s.jumpFar sel (immOffset h.osz off))

/-- `JMP m16:z` (R182). -/
def execJmpMem (h : Head) (m : Mem) (s : State) : Host.Outcome State Fault Refusal :=
  conclude s do
    let p ← s.readFarPtr h m
    s.jumpFar p.1 p.2

/-! ### Far `CALL` (R183) -/

/-- What a far `CALL` pushes for `CS`: the selector, with any value in bits 31:16 of a 32-bit slot
(R183, 92_eei_decisions.md D21; log 11). -/
def State.pushedCs (s : State) (z : Size) : Word :=
  match z with
  | .s16 => s.seg.cs.sel.setWidth 32
  | .s32 => Config.upperHalf s.free ++ s.seg.cs.sel

/-- The room a far `CALL` needs for two slots of `n` bytes: `SegAccess` of all `2n` bytes passes, its
alignment check included, or else `SegFault(SS, 0)` (R183). -/
def State.callRoom (s : State) (n : Nat) : Res Unit :=
  match s.segAccess .ss (s.spMinus (2 * n)) (2 * n) .write with
  | .ok _ => .ok ()
  | .error _ => .error (segFault s .ss 0)

/-- A far `CALL` to a selector and an offset: all checks, among them the room for both pushes and the
accessed-bit write, then the pushes, then the commit (R183; log 24). -/
def State.callFar (s : State) (z : Size) (sel : Half) (off : Word) (len : Nat) : Res State := do
  let r ← s.enterRead sel off
  s.callRoom (sizeBytes z)
  let csTo ← s.pushTo (s.spMinus (sizeBytes z)) (sizeBytes z)
  let retTo ← s.pushTo (s.spMinus (2 * sizeBytes z)) (sizeBytes z)
  let a ← s.accessedAt r.1 r.2
  let pushed := (s.store csTo (s.pushedCs z).toNat).store retTo (s.pcPlus len).toNat
  .ok ((pushed.setSp s.stackSize (s.spMinus (2 * sizeBytes z))).enterCommit a
    (loaded (forceRPL sel s.cpl) r.2) off)

/-- `CALL ptr16:z` (R183). -/
def execCallPtr (h : Head) (sel : Half) (off : Word) (s : State) : Host.Outcome State Fault Refusal :=
  conclude s (s.callFar h.osz sel (immOffset h.osz off) (Instr.callPtr h sel off).length)

/-- `CALL m16:z` (R183). -/
def execCallMem (h : Head) (m : Mem) (s : State) : Host.Outcome State Fault Refusal :=
  conclude s do
    let p ← s.readFarPtr h m
    s.callFar h.osz p.1 p.2 (Instr.callMem h m).length

/-! ### Far `RET` (R184) -/

/-- The checks of a far `RET` on the descriptor read (R184). -/
def returnChecks (s : State) (sel : Half) (off : Word) (d : Desc) : Res Unit := do
  need (d.s && d.isCode) (raise s .gp (selCode sel))
  need (decide (s.cpl ≤ selRPL sel)) (raise s .gp (selCode sel))
  need (decide (selRPL sel ≤ s.cpl)) (.refuse .outerReturn)
  need (if d.conforming then decide (d.dpl ≤ selRPL sel) else decide (d.dpl = selRPL sel))
    (raise s .gp (selCode sel))
  need d.p (raise s .np (selCode sel))
  need (decide (off.toNat ≤ effLimit d)) (raise s .gp 0)

/-- A far `RET` that releases `extra` more bytes (R184). -/
def State.returnFar (s : State) (z : Size) (extra : Nat) : Res State := do
  let off ← s.segRead .ss s.sp (sizeBytes z)
  let w ← s.segRead .ss (s.spPlus (sizeBytes z)) (sizeBytes z)
  let sel := BitVec.ofNat 16 w
  need (!isNull sel) (raise s .gp 0)
  let r ← s.readDescriptor sel
  returnChecks s sel (BitVec.ofNat 32 off) r.2
  let a ← s.accessedAt r.1 r.2
  .ok ((s.setSp s.stackSize (s.spPlus (2 * sizeBytes z + extra))).enterCommit a (loaded sel r.2)
    (BitVec.ofNat 32 off))

/-- `RETF` (R184). -/
def execRetf (h : Head) (s : State) : Host.Outcome State Fault Refusal :=
  conclude s (s.returnFar h.osz 0)

/-- `RETF imm16` (R184). -/
def execRetfImm (h : Head) (imm : Half) (s : State) : Host.Outcome State Fault Refusal :=
  conclude s (s.returnFar h.osz imm.toNat)

/-! ### Interrupts and fast system calls, to which the spec gives no meaning (R185 to R190, D17) -/

/-- `IRET` (R185): refused by the spec. -/
def execIret (_ : Head) (_ : State) : Host.Outcome State Fault Refusal := .refused .interruptReturn

/-- `INT n` (R186): refused by the spec. -/
def execIntN (_ : Head) (n : Byte) (_ : State) : Host.Outcome State Fault Refusal :=
  .refused (.softwareInterrupt n)

/-- `INT3` (R187): refused by the spec. -/
def execInt3 (_ : Head) (_ : State) : Host.Outcome State Fault Refusal := .refused .breakpointInterrupt

/-- `INTO` (R188): refused by the spec. -/
def execInto (_ : Head) (_ : State) : Host.Outcome State Fault Refusal := .refused .overflowInterrupt

/-- `SYSENTER` (R189): refused by the spec. -/
def execSysenter (_ : Head) (_ : State) : Host.Outcome State Fault Refusal := .refused .systemEntry

/-- `SYSEXIT` (R190): refused by the spec. -/
def execSysexit (_ : Head) (_ : State) : Host.Outcome State Fault Refusal := .refused .systemExit

end Sys2Proof.Machine
end

