-- ==== Sys2Proof/Machine/SegmentLoads.lean ====
section
/-! DEFINITION. Family 1: the instructions that load and store segment registers directly
(40_segment_register_loads.md R150 to R163). -/

namespace Sys2Proof.Machine

/-! ### The common load procedure (R151 to R154, R163) -/

/-- `CheckData(sel, d)` for `DS`, `ES`, `FS`, `GS` (R153). -/
def checkData (s : State) (sel : Half) (d : Desc) : Res Unit := do
  need (!(d.isCode && !d.readable)) (raise s .gp (selCode sel))
  need ((d.isCode && d.conforming) || (decide (s.cpl ≤ d.dpl) && decide (selRPL sel ≤ d.dpl)))
    (raise s .gp (selCode sel))

/-- `CheckStack(sel, d)` for `SS` (R154). -/
def checkStack (s : State) (sel : Half) (d : Desc) : Res Unit := do
  need d.isWritableData (raise s .gp (selCode sel))
  need (decide (selRPL sel = s.cpl) && decide (d.dpl = s.cpl)) (raise s .gp (selCode sel))

/-- `NotPresent(s, code)`: `#SS` for `SS` when `P_SS_FAULT` is `SS`, else `#NP` (R163). -/
def notPresent (s : State) (x : SReg) (code : Half) : Stop :=
  if x = .ss ∧ s.par.ssFault = .ss then raise s .ss code else raise s .np code

/-- The load of a null selector: `#GP(0)` for `SS`; else the selector is kept, the register holds no
descriptor, and its hidden fields are any (R152; log 13). -/
def State.loadNull (s : State) (x : SReg) (sel : Half) : Res State :=
  if x = .ss then .error (raise s .gp 0)
  else .ok (s.setSreg x ⟨sel, false, Config.nullHidden s.free⟩)

/-- The load of a selector that is not null (R151). -/
def State.loadDescriptor (s : State) (x : SReg) (sel : Half) : Res State := do
  let r ← s.readDescriptor sel
  need r.2.s (raise s .gp (selCode sel))
  if x = .ss then checkStack s sel r.2 else checkData s sel r.2
  need r.2.p (notPresent s x (selCode sel))
  let a ← s.accessedAt r.1 r.2
  .ok ((s.setAccessed a).setSreg x (loaded sel r.2))

/-- `LoadSeg(s, sel)` (R151). `CS` cannot be named by a direct load (R150, R136; log 37). -/
def State.loadSeg (s : State) (x : SReg) (sel : Half) : Res State :=
  if x = .cs then .error (.refuse (.undecodable .invalidSegReg))
  else if isNull sel then s.loadNull x sel
  else s.loadDescriptor x sel

/-! ### The instructions -/

/-- `MOV Sreg, r/m16` (R155). -/
def execMovSregRm (h : Head) (sr : SReg) (src : RM) (s : State) : Host.Outcome State Fault Refusal :=
  conclude s do
    let sel ← s.readRm16 h src
    let t ← s.loadSeg sr sel
    .ok (t.advance (Instr.movSregRm h sr src).length)

/-- `MOV r/m16, Sreg` (R156). -/
def execMovRmSreg (h : Head) (dst : RM) (sr : SReg) (s : State) : Host.Outcome State Fault Refusal :=
  conclude s do
    let t ← s.writeRm16 h dst (s.sreg sr).sel
    .ok (t.advance (Instr.movRmSreg h dst sr).length)

/-- `POP Sreg`: the stack is read through the old `SS`, whose B flag also gives the width of the
pointer (R157; log 25). -/
def popSreg (h : Head) (sr : SReg) (len : Nat) (s : State) : Host.Outcome State Fault Refusal :=
  conclude s do
    let v ← s.popRead (sizeBytes h.osz)
    let t ← s.loadSeg sr (BitVec.ofNat 16 v)
    .ok ((t.setSp s.stackSize (s.spPlus (sizeBytes h.osz))).advance len)

/-- `POP ES` (R157). -/
def execPopEs (h : Head) (s : State) : Host.Outcome State Fault Refusal :=
  popSreg h .es (Instr.popEs h).length s

/-- `POP SS` (R157). -/
def execPopSs (h : Head) (s : State) : Host.Outcome State Fault Refusal :=
  popSreg h .ss (Instr.popSs h).length s

/-- `POP DS` (R157). -/
def execPopDs (h : Head) (s : State) : Host.Outcome State Fault Refusal :=
  popSreg h .ds (Instr.popDs h).length s

/-- `POP FS` (R157). -/
def execPopFs (h : Head) (s : State) : Host.Outcome State Fault Refusal :=
  popSreg h .fs (Instr.popFs h).length s

/-- `POP GS` (R157). -/
def execPopGs (h : Head) (s : State) : Host.Outcome State Fault Refusal :=
  popSreg h .gs (Instr.popGs h).length s

/-- A far pointer loaded into a segment register and a general register, the latter last (R158). -/
def farLoad (h : Head) (sr : SReg) (r : Reg) (m : Mem) (len : Nat) (s : State) :
    Host.Outcome State Fault Refusal :=
  conclude s do
    let p ← s.readFarPtr h m
    let t ← s.loadSeg sr p.1
    .ok ((t.setRegSize h.osz r p.2).advance len)

/-- `LDS r, m16:z` (R158). -/
def execLds (h : Head) (r : Reg) (m : Mem) (s : State) : Host.Outcome State Fault Refusal :=
  farLoad h .ds r m (Instr.lds h r m).length s

/-- `LES r, m16:z` (R159). -/
def execLes (h : Head) (r : Reg) (m : Mem) (s : State) : Host.Outcome State Fault Refusal :=
  farLoad h .es r m (Instr.les h r m).length s

/-- `LSS r, m16:z` (R160). -/
def execLss (h : Head) (r : Reg) (m : Mem) (s : State) : Host.Outcome State Fault Refusal :=
  farLoad h .ss r m (Instr.lss h r m).length s

/-- `LFS r, m16:z` (R161). -/
def execLfs (h : Head) (r : Reg) (m : Mem) (s : State) : Host.Outcome State Fault Refusal :=
  farLoad h .fs r m (Instr.lfs h r m).length s

/-- `LGS r, m16:z` (R162). -/
def execLgs (h : Head) (r : Reg) (m : Mem) (s : State) : Host.Outcome State Fault Refusal :=
  farLoad h .gs r m (Instr.lgs h r m).length s

end Sys2Proof.Machine
end

