-- ==== Sys2Proof/Machine/TableRegisters.lean ====
section
/-! DEFINITION. Family 3: the instructions that store and load the descriptor-table registers
(42_table_register_instructions.md R200 to R208). -/

namespace Sys2Proof.Machine

/-! ### Stores (R200 to R203) -/

/-- The base a pseudo-descriptor store writes: with 16-bit operand size the last byte is any
(R200; log 12). -/
def State.storedBase (s : State) (z : Size) (base : Word) : Word :=
  match z with
  | .s32 => base
  | .s16 => Config.sixthByte s.free ++ base.setWidth 24

/-- Store `GDTR` or `IDTR` as a word and a doubleword, both checked before either is stored
(R200, R201, 30_encoding.md R127). -/
def storeTable (h : Head) (m : Mem) (r : TableReg) (len : Nat) (s : State) :
    Host.Outcome State Fault Refusal :=
  conclude s do
    let limTo ← s.segWriteTo (segOf h m) (s.ea m).toNat 2
    let baseTo ← s.segWriteTo (segOf h m) ((s.ea m).toNat + 2) 4
    .ok (((s.store limTo r.limit.toNat).store baseTo (s.storedBase h.osz r.base).toNat).advance len)

/-- `SGDT m` (R200). -/
def execSgdt (h : Head) (m : Mem) (s : State) : Host.Outcome State Fault Refusal :=
  storeTable h m s.gdtr (Instr.sgdt h m).length s

/-- `SIDT m` (R201). -/
def execSidt (h : Head) (m : Mem) (s : State) : Host.Outcome State Fault Refusal :=
  storeTable h m s.idtr (Instr.sidt h m).length s

/-- `SLDT r/m16` (R202). -/
def execSldt (h : Head) (dst : RM) (s : State) : Host.Outcome State Fault Refusal :=
  conclude s do
    let t ← s.writeRm16 h dst s.ldtr.sel
    .ok (t.advance (Instr.sldt h dst).length)

/-- `STR r/m16` (R203). -/
def execStr (h : Head) (dst : RM) (s : State) : Host.Outcome State Fault Refusal :=
  conclude s do
    let t ← s.writeRm16 h dst s.tr.sel
    .ok (t.advance (Instr.str h dst).length)

/-! ### Loads (R204 to R207) -/

/-- The privilege check of the load instructions: `#GP(0)` unless `CPL` is 0 (R204 to R207). -/
def needSupervisor (s : State) : Res Unit := need (decide (s.cpl = 0)) (raise s .gp 0)

/-- The base a pseudo-descriptor load takes: 24 bits with 16-bit operand size (R204). -/
def loadedBase (z : Size) (b : Word) : Word :=
  match z with
  | .s32 => b
  | .s16 => b &&& 0x00FFFFFF

/-- The pseudo-descriptor `LGDT` and `LIDT` read (R204, R205, 30_encoding.md R127). -/
def State.readTable (s : State) (h : Head) (m : Mem) : Res TableReg := do
  needSupervisor s
  let lim ← s.segRead (segOf h m) (s.ea m).toNat 2
  let b ← s.segRead (segOf h m) ((s.ea m).toNat + 2) 4
  .ok ⟨loadedBase h.osz (BitVec.ofNat 32 b), BitVec.ofNat 16 lim⟩

/-- `LGDT m` (R204). -/
def execLgdt (h : Head) (m : Mem) (s : State) : Host.Outcome State Fault Refusal :=
  conclude s do
    let r ← s.readTable h m
    .ok (State.advance { s with gdtr := r } (Instr.lgdt h m).length)

/-- `LIDT m` (R205). -/
def execLidt (h : Head) (m : Mem) (s : State) : Host.Outcome State Fault Refusal :=
  conclude s do
    let r ← s.readTable h m
    .ok (State.advance { s with idtr := r } (Instr.lidt h m).length)

/-- The load of `LDTR`: null empties it, else the GDT must hold a present LDT descriptor (R206). -/
def State.loadLdtr (s : State) (sel : Half) : Res State :=
  if isNull sel then .ok { s with ldtr := ⟨sel, false, s.ldtr.d⟩ }
  else do
    need (!selTI sel) (raise s .gp (selCode sel))
    let r ← s.readDescriptor sel
    need r.2.isLdt (raise s .gp (selCode sel))
    need r.2.p (raise s .np (selCode sel))
    .ok { s with ldtr := ⟨sel, true, r.2⟩ }

/-- `LLDT r/m16` (R206). -/
def execLldt (h : Head) (src : RM) (s : State) : Host.Outcome State Fault Refusal :=
  conclude s do
    needSupervisor s
    let sel ← s.readRm16 h src
    let t ← s.loadLdtr sel
    .ok (t.advance (Instr.lldt h src).length)

/-- Where `LTR` marks the TSS busy, and whether the byte can be written: RAM is, ROM keeps its content
(R207, 20_memory.md R84; log 18), IO and absent memory hold no table. -/
def State.busyAt (s : State) (la : Word) : Res Nat := do
  let pa ← s.phys .table .write (la + 5)
  need (s.holdsTables pa) (.refuse .tableNotInMemory)
  .ok pa

/-- The load of `TR`: the GDT must hold a present, available TSS, which becomes busy (R207). -/
def State.loadTr (s : State) (sel : Half) : Res State := do
  need (!isNull sel) (raise s .gp 0)
  need (!selTI sel) (raise s .gp (selCode sel))
  let r ← s.readDescriptor sel
  need r.2.isAvailableTss (raise s .gp (selCode sel))
  need r.2.p (raise s .np (selCode sel))
  let pa ← s.busyAt r.1
  .ok { s.storeByte pa (Memory.read s.mem pa ||| 2) with
    tr := ⟨sel, true, { r.2 with type := r.2.type ||| 2 }⟩ }

/-- `LTR r/m16` (R207). -/
def execLtr (h : Head) (src : RM) (s : State) : Host.Outcome State Fault Refusal :=
  conclude s do
    needSupervisor s
    let sel ← s.readRm16 h src
    let t ← s.loadTr sel
    .ok (t.advance (Instr.ltr h src).length)

end Sys2Proof.Machine
end

