-- ==== Sys2Proof/Machine/Dispatch.lean ====
section
/-! DEFINITION. The meaning of every instruction, one arm per constructor. -/

namespace Sys2Proof.Machine

def exec (i : Instr) (s : State) : Host.Outcome State Fault Refusal :=
  match i with
  | .movSregRm h sr src => Sys2Proof.Machine.execMovSregRm h sr src s
  | .movRmSreg h dst sr => Sys2Proof.Machine.execMovRmSreg h dst sr s
  | .popEs h => Sys2Proof.Machine.execPopEs h s
  | .popSs h => Sys2Proof.Machine.execPopSs h s
  | .popDs h => Sys2Proof.Machine.execPopDs h s
  | .popFs h => Sys2Proof.Machine.execPopFs h s
  | .popGs h => Sys2Proof.Machine.execPopGs h s
  | .lds h r m => Sys2Proof.Machine.execLds h r m s
  | .les h r m => Sys2Proof.Machine.execLes h r m s
  | .lss h r m => Sys2Proof.Machine.execLss h r m s
  | .lfs h r m => Sys2Proof.Machine.execLfs h r m s
  | .lgs h r m => Sys2Proof.Machine.execLgs h r m s
  | .jmpPtr h sel off => Sys2Proof.Machine.execJmpPtr h sel off s
  | .jmpMem h m => Sys2Proof.Machine.execJmpMem h m s
  | .callPtr h sel off => Sys2Proof.Machine.execCallPtr h sel off s
  | .callMem h m => Sys2Proof.Machine.execCallMem h m s
  | .retf h => Sys2Proof.Machine.execRetf h s
  | .retfImm h imm => Sys2Proof.Machine.execRetfImm h imm s
  | .iret h => Sys2Proof.Machine.execIret h s
  | .intN h n => Sys2Proof.Machine.execIntN h n s
  | .int3 h => Sys2Proof.Machine.execInt3 h s
  | .into h => Sys2Proof.Machine.execInto h s
  | .sysenter h => Sys2Proof.Machine.execSysenter h s
  | .sysexit h => Sys2Proof.Machine.execSysexit h s
  | .sgdt h m => Sys2Proof.Machine.execSgdt h m s
  | .sidt h m => Sys2Proof.Machine.execSidt h m s
  | .sldt h dst => Sys2Proof.Machine.execSldt h dst s
  | .str h dst => Sys2Proof.Machine.execStr h dst s
  | .lgdt h m => Sys2Proof.Machine.execLgdt h m s
  | .lidt h m => Sys2Proof.Machine.execLidt h m s
  | .lldt h src => Sys2Proof.Machine.execLldt h src s
  | .ltr h src => Sys2Proof.Machine.execLtr h src s

end Sys2Proof.Machine
end

