-- ==== Sys2Proof/Machine/Fetch.lean ====
section
/-! DEFINITION. Fetching the instruction at `CS:EIP`, one byte at a time (10_state.md R33, 20_memory.md
R70, R93, 30_encoding.md R130; log 20). -/

namespace Sys2Proof.Machine

/-- The offset of byte `i` of the instruction: with D = 0 only 16 bits, wrapping at 64 KB; with D = 1 no
wrap, so that a byte past FFFFFFFFH is outside the limit (10_state.md R33, 20_memory.md R75; log 20). -/
def State.fetchOffset (s : State) (i : Nat) : Nat :=
  match s.seg.cs.d.size with
  | .s16 => (s.pc.toNat + i) % 2 ^ 16
  | .s32 => s.pc.toNat + i

/-- `SegFetch` of byte `i` of the instruction (20_memory.md R70). -/
def State.fetchByte (s : State) (i : Nat) : Res Byte := do
  let la ← s.segAccess .cs (s.fetchOffset i) 1 .fetch
  let v ← s.linRead .fetch la 1
  .ok (BitVec.ofNat 8 v)

/-- Run a decoder on the bytes from byte `i` on. -/
def State.fetchRun (s : State) : Dec → Nat → Res Instr
  | .done ins, _ => .ok ins
  | .bad e, _ => .error (.refuse (.undecodable e))
  | .need k, i =>
    match s.fetchByte i with
    | .error e => .error e
    | .ok b => s.fetchRun (k b) (i + 1)

/-- Fetch and decode the instruction at `CS:EIP`; `CS`'s D flag governs the decoding (30_encoding.md
R131, R139). -/
def State.fetchInstr (s : State) : Res Instr := s.fetchRun (decoder s.seg.cs.d.db) 0

/-- Place bytes where the fetch reads them, the first being byte `i`, without paging. -/
def State.placeBytes (s : State) : Nat → List Byte → State
  | _, [] => s
  | i, b :: bs =>
    State.placeBytes { s with mem := Memory.write s.mem (s.linAddr .cs (s.fetchOffset i)).toNat b } (i + 1) bs

end Sys2Proof.Machine
end

