-- ==== Sys2Proof/Machine/Step.lean ====
section
/-! DEFINITION. One step of the machine: the instruction at `CS:EIP` (00_scope.md R12,
70_reset_and_hazards.md R275). -/

namespace Sys2Proof.Machine

/-- One step: fetch, decode, execute. A machine that hangs stays as it is for ever (R12, R271; log 14). -/
def step (s : State) : Host.Outcome State Fault Refusal :=
  if s.hung then .next s
  else
    match s.fetchInstr with
    | .ok i => exec i s
    | .error e => conclude s (.error e)

/-- The state with the bytes of a table word (all bits above `nbits` zero) at the next fetch. -/
def State.withFetchWord (s : State) (nbits w : Nat) : State := s.placeBytes 0 (tableBytes nbits w)

end Sys2Proof.Machine
end

