-- ==== Sys2Proof/Safety.lean ====
section
/-! DEFINITION. What counts as a legal state and when an instruction completes, in the words of the
spec's rules and not by the operations of the machine: the terms the statements use. -/

namespace Sys2Proof.Machine

/-! ### Legal states (70_reset_and_hazards.md R262, 10_state.md R47) -/

/-- The six segment registers. -/
def allSregs : List SReg := [.es, .cs, .ss, .ds, .fs, .gs]

/-- The four registers a data segment is loaded into. -/
def dataSregs : List SReg := [.ds, .es, .fs, .gs]

/-- The hidden part is one that a selector load leaves: S = 1, P = 1, accessed (R262 (b)). -/
abbrev SegReg.isLoaded (r : SegReg) : Prop := r.d.s = true ∧ r.d.p = true ∧ r.d.accessed = true

/-- R262 (a): a register holds no descriptor exactly when its selector is null. -/
abbrev NullAgree (s : State) : Prop :=
  ∀ x ∈ allSregs, (s.sreg x).valid = false ↔ isNull (s.sreg x).sel = true

/-- R262 (b): `CS` holds a code segment, `SS` a writable data segment, and each data register that holds
a descriptor a data segment or a readable code segment. -/
abbrev SegTypes (s : State) : Prop :=
  (s.seg.cs.valid = true ∧ s.seg.cs.isLoaded ∧ s.seg.cs.d.isCode = true) ∧
  (s.seg.ss.valid = true ∧ s.seg.ss.isLoaded ∧ s.seg.ss.d.isWritableData = true) ∧
  ∀ x ∈ dataSregs, (s.sreg x).valid = true → (s.sreg x).isLoaded ∧ (s.sreg x).d.isReadable = true

/-- R262 (c): `CPL` = `CS.sel[1:0]` = `SS.sel[1:0]` = `SS.dpl`. -/
abbrev CplAgree (s : State) : Prop :=
  selRPL s.seg.cs.sel = s.cpl ∧ selRPL s.seg.ss.sel = s.cpl ∧ s.seg.ss.d.dpl = s.cpl

/-- R262 (d): `LDTR.valid` = 1 implies `LDTR.type` = 2. -/
abbrev LdtrLegal (s : State) : Prop := s.ldtr.valid = true → s.ldtr.d.type = 2

/-- What R262 asks of `P_INIT` but for (a). -/
abbrev SegLegal (s : State) : Prop := SegTypes s ∧ CplAgree s ∧ LdtrLegal s

/-- What R262 asks of `P_INIT`, the state at the first instruction (R261). -/
abbrev PInit (s : State) : Prop := NullAgree s ∧ SegLegal s

/-- The running code may use what its registers hold (60_exceptions.md R238): `CS` holds conforming code
of its own or a more privileged level or other code of its own level, and a data register holds
conforming code or a segment that is not more privileged. -/
abbrev PrivLegal (s : State) : Prop :=
  (if s.seg.cs.d.conforming = true then s.seg.cs.d.dpl ≤ s.cpl else s.seg.cs.d.dpl = s.cpl) ∧
  ∀ x ∈ dataSregs, (s.sreg x).valid = true →
    ((s.sreg x).d.isCode = true ∧ (s.sreg x).d.conforming = true) ∨ s.cpl ≤ (s.sreg x).d.dpl

/-- Memory is in its canonical form and lists only addresses of the physical space (10_state.md R39). -/
abbrev MemLegal (s : State) : Prop :=
  Memory.wf s.mem ∧ ∀ c ∈ s.mem, c.1 < physSpace s.par.physBits

/-! ### What is kept -/

/-- `GDTR`, `IDTR`, `LDTR` and `TR` are unchanged. -/
abbrev KeepsTables (s t : State) : Prop :=
  t.gdtr = s.gdtr ∧ t.idtr = s.idtr ∧ t.ldtr = s.ldtr ∧ t.tr = s.tr

/-- `CPL` and the parameters are unchanged. -/
abbrev KeepsMode (s t : State) : Prop := t.cpl = s.cpl ∧ t.par = s.par

/-- Every general register but `r` is unchanged. -/
abbrev KeepsRegsBut (r : Reg) (s t : State) : Prop := ∀ x, x ≠ r → t.reg x = s.reg x

/-- Every segment register but `y` is unchanged, visible and hidden part. -/
abbrev KeepsSregsBut (y : SReg) (s t : State) : Prop := ∀ x, x ≠ y → t.sreg x = s.sreg x

/-- Every byte of memory outside the addresses `p` reads as before. -/
abbrev KeepsMemBut (p : Nat → Prop) (s t : State) : Prop :=
  ∀ a, ¬ p a → Memory.read t.mem a = Memory.read s.mem a

/-- The address of the accessed-bit write that loading a selector makes, if it makes one (20 R89). -/
def State.loadTarget (s : State) (sel : Half) : Option Nat :=
  if isNull sel then none
  else match s.readDescriptor sel with
    | .error _ => none
    | .ok r => match s.accessedAt r.1 r.2 with
      | .error _ => none
      | .ok a => a

/-- The address of the busy-bit write that `LTR` makes (42 R207). -/
def State.busyTarget (s : State) (sel : Half) : Option Nat :=
  match s.readDescriptor sel with
  | .error _ => none
  | .ok r => match s.busyAt r.1 with
    | .error _ => none
    | .ok pa => some pa

/-- The segment register an instruction loads, if it loads one (10_state.md R22). -/
def loadsSreg : Instr → Option SReg
  | .movSregRm _ sr _ => some sr
  | .popEs _ | .les _ _ _ => some .es
  | .popSs _ | .lss _ _ _ => some .ss
  | .popDs _ | .lds _ _ _ => some .ds
  | .popFs _ | .lfs _ _ _ => some .fs
  | .popGs _ | .lgs _ _ _ => some .gs
  | .jmpPtr _ _ _ | .jmpMem _ _ | .callPtr _ _ _ | .callMem _ _ | .retf _ | .retfImm _ _ => some .cs
  | .iret _ | .intN _ _ | .int3 _ | .into _ | .sysenter _ | .sysexit _ => some .cs
  | .movRmSreg _ _ _ | .sgdt _ _ | .sidt _ _ | .sldt _ _ | .str _ _ | .lgdt _ _ | .lidt _ _
  | .lldt _ _ | .ltr _ _ => none

/-! ### When a selector load completes -/

/-- The base of the table a selector points into (20_memory.md R66). -/
abbrev tableBase (s : State) (sel : Half) : Word := if selTI sel then s.ldtr.d.base else s.gdtr.base

/-- The limit of the table a selector points into (20_memory.md R66). -/
abbrev tableLimit (s : State) (sel : Half) : Nat :=
  if selTI sel then effLimit s.ldtr.d else s.gdtr.limit.toNat

/-- The descriptor a selector points at lies in the table and the address `la` holds the eight bytes of
`v`, in RAM or ROM, paging off (20_memory.md R63, R66, R84). -/
abbrev DescAt (s : State) (sel : Half) (la : Word) (v : BitVec 64) : Prop :=
  s.par.paging = false ∧ (selTI sel = true → s.ldtr.valid = true) ∧
  selIndex sel * 8 + 7 ≤ tableLimit s sel ∧
  la = tableBase s sel + BitVec.ofNat 32 (selIndex sel * 8) ∧
  ∀ i < 8, s.holdsTables (la + BitVec.ofNat 32 i).toNat = true ∧
    Memory.read s.mem (la + BitVec.ofNat 32 i).toNat = v.extractLsb' (8 * i) 8

/-- A selector points into an LDT that is not loaded, or its descriptor passes the limit of its table
(20_memory.md R66). -/
abbrev BeyondTable (s : State) (sel : Half) : Prop :=
  (selTI sel = true ∧ s.ldtr.valid = false) ∨ tableLimit s sel < selIndex sel * 8 + 7

/-- The descriptor a selector points at lies in its table, and at least one of its eight bytes at `la` is in IO
or absent memory, paging off (20_memory.md R66, R84). -/
abbrev EntryNotInMemory (s : State) (sel : Half) (la : Word) : Prop :=
  s.par.paging = false ∧ ¬ BeyondTable s sel ∧
  la = tableBase s sel + BitVec.ofNat 32 (selIndex sel * 8) ∧
  ∃ i < 8, s.holdsTables (la + BitVec.ofNat 32 i).toNat = false

/-- The accessed bit is set already, or its byte is RAM (20_memory.md R89). -/
abbrev AccessedWritable (s : State) (la : Word) (d : Desc) : Prop :=
  d.accessed = true ∨ s.kindAt (la + 5).toNat = .ram

/-- The checks of 40 R153 pass. -/
abbrev DataLoadable (s : State) (sel : Half) (d : Desc) : Prop :=
  (d.isCode = true → d.readable = true) ∧
  ((d.isCode = true ∧ d.conforming = true) ∨ (s.cpl ≤ d.dpl ∧ selRPL sel ≤ d.dpl))

/-- The checks of 40 R154 pass. -/
abbrev StackLoadable (s : State) (sel : Half) (d : Desc) : Prop :=
  d.isWritableData = true ∧ selRPL sel = s.cpl ∧ d.dpl = s.cpl

/-- The type and privilege checks of 40 R151 for a register. -/
abbrev TypeLoadable (s : State) (x : SReg) (sel : Half) (d : Desc) : Prop :=
  if x = .ss then StackLoadable s sel d else DataLoadable s sel d

/-- All checks of 40 R151 after the descriptor is read pass. -/
abbrev Loadable (s : State) (x : SReg) (sel : Half) (d : Desc) : Prop :=
  x ≠ .cs ∧ isNull sel = false ∧ d.s = true ∧ TypeLoadable s x sel d ∧ d.p = true

/-- The privilege checks (d) to (f) of 41 R181 pass. -/
abbrev EnterPriv (s : State) (sel : Half) (d : Desc) : Prop :=
  if d.conforming = true then d.dpl ≤ s.cpl else d.dpl = s.cpl ∧ selRPL sel ≤ s.cpl

/-- All checks of 41 R181 pass. -/
abbrev Enterable (s : State) (sel : Half) (off : Word) (d : Desc) : Prop :=
  isNull sel = false ∧ d.s = true ∧ d.isCode = true ∧ EnterPriv s sel d ∧ d.p = true ∧
  off.toNat ≤ effLimit d

/-- The privilege check of 41 R184 passes. -/
abbrev ReturnPriv (sel : Half) (d : Desc) : Prop :=
  if d.conforming = true then d.dpl ≤ selRPL sel else d.dpl = selRPL sel

/-- All checks of 41 R184 pass. -/
abbrev Returnable (s : State) (sel : Half) (off : Word) (d : Desc) : Prop :=
  isNull sel = false ∧ d.s = true ∧ d.isCode = true ∧ selRPL sel = s.cpl ∧ ReturnPriv sel d ∧
  d.p = true ∧ off.toNat ≤ effLimit d

/-- Memory after the accessed bit of the descriptor at `la` is set (20_memory.md R89). -/
def accessedMem (m : Memory) (la : Word) (d : Desc) : Memory :=
  if d.accessed then m
  else Memory.write m (la + 5).toNat (Memory.read m (la + 5).toNat ||| 1)

/-- What a selector load leaves in the register: the selector and every field of the descriptor, the
accessed bit set (40 R151). -/
def filled (sel : Half) (d : Desc) : SegReg :=
  { sel := sel, valid := true
    d := { base := d.base, limit20 := d.limit20, type := d.type ||| 1, s := d.s, dpl := d.dpl, p := d.p,
           avl := d.avl, l := d.l, db := d.db, g := d.g } }

/-- `ESP` after the stack pointer grows by `n`: all of it with B = 1, the low half with B = 0
(10_state.md R32). -/
def espPlus (s : State) (n : Nat) : Word :=
  if s.seg.ss.d.db then s.regs.esp + BitVec.ofNat 32 n
  else s.regs.esp.extractLsb' 16 16 ++ (s.regs.esp.setWidth 16 + BitVec.ofNat 16 n)

/-- `ESP` after the stack pointer shrinks by `n` (10_state.md R32). -/
def espMinus (s : State) (n : Nat) : Word :=
  if s.seg.ss.d.db then s.regs.esp - BitVec.ofNat 32 n
  else s.regs.esp.extractLsb' 16 16 ++ (s.regs.esp.setWidth 16 - BitVec.ofNat 16 n)

/-- The segmentation checks of 20_memory.md R70 pass for `n` bytes at an offset. -/
abbrev SegAllows (s : State) (x : SReg) (off n : Nat) (u : Use) : Prop :=
  (s.sreg x).valid = true ∧ typeAllows (s.sreg x).d u = true ∧ inLimit (s.sreg x).d off n = true

/-- The alignment-check condition of 20_memory.md R86. -/
abbrev Misaligned (s : State) (la : Word) (n : Nat) : Prop :=
  s.par.ac = true ∧ s.cpl = 3 ∧ (n = 2 ∨ n = 4 ∨ n = 8) ∧ la.toNat % n ≠ 0

/-- The stack has room for the two slots of a far `CALL`: every check of `SegAccess` passes for both slots
together, alignment included (41 R183). -/
abbrev CallRoom (s : State) (z : Size) : Prop :=
  SegAllows s .ss (s.spMinus (2 * sizeBytes z)) (2 * sizeBytes z) .write ∧
  ¬ Misaligned s (s.linAddr .ss (s.spMinus (2 * sizeBytes z))) (2 * sizeBytes z)

/-- The two pushes of a far `CALL` are allowed and store to these addresses, `CS` at the higher slot
(41 R183). -/
abbrev CallPushes (s : State) (z : Size) (csTo retTo : List Nat) : Prop :=
  s.segWriteTo .ss (s.spMinus (sizeBytes z)) (sizeBytes z) = .ok csTo ∧
  s.segWriteTo .ss (s.spMinus (2 * sizeBytes z)) (sizeBytes z) = .ok retTo

end Sys2Proof.Machine
end

