-- ==== Sys2Proof/Certificates/Slice0/Obligations.lean ====
section
/-! DEFINITION. The statements about the model, one `def Obligations.<Name> : Prop` each. A docstring names
the part of spec/ a statement formalises. A next state is written out, so that it says what changes and
what does not; a free value of Config in it may be any value. `State.pcPlus` moves `pc` past the instruction
(log 21). -/

open Sys2Proof Sys2Proof.Machine

/-! ### Shapes shared by several instructions -/

/-- The fault that names a selector: `#GP(sel & 0xFFFC)`. -/
def Sys2Proof.Machine.gpSel (s : State) (sel : Half) : Host.Outcome State Fault Refusal :=
  .fault (.gp (s.errCode (selCode sel)))

/-- The next state of a load of the data register `x` with a null selector, `regs` being the general
registers it leaves (40 R152). -/
def Sys2Proof.Machine.nullLoaded (s : State) (x : SReg) (sel : Half) (regs : Regs) (len : Nat) : State :=
  { s with seg := s.seg.set x ⟨sel, false, Config.nullHidden s.free⟩, regs := regs, pc := s.pcPlus len,
           free := s.free + 1 }

/-- The next state of a load of `x` with the descriptor `d` at `la` (40 R151). -/
def Sys2Proof.Machine.descLoaded (s : State) (x : SReg) (sel : Half) (la : Word) (d : Desc) (regs : Regs)
    (len : Nat) : State :=
  { s with mem := accessedMem s.mem la d, seg := s.seg.set x (filled sel d), regs := regs,
           pc := s.pcPlus len, free := s.free + 1 }

/-- The next state of a transfer that enters the code segment `d` at `la`, memory being `m` before the
accessed bit is set (41 R181, R184). -/
def Sys2Proof.Machine.entered (s : State) (sel : Half) (la : Word) (d : Desc) (m : Memory) (esp : Word)
    (off : Word) : State :=
  { s with mem := accessedMem m la d, seg := { s.seg with cs := filled sel d },
           regs := { s.regs with esp := esp }, pc := off, free := s.free + 1 }

/-- `POP x` loads a descriptor and moves the stack pointer (40 R157). -/
def Sys2Proof.Machine.PopLoads (mk : Head → Instr) (x : SReg) : Prop :=
  ∀ (s : State) (h : Head) (w : Nat) (la : Word) (v : BitVec 64),
    s.segRead .ss s.sp (sizeBytes h.osz) = .ok w →
    DescAt s (BitVec.ofNat 16 w) la v → Loadable s x (BitVec.ofNat 16 w) (Desc.ofBits v) →
    AccessedWritable s la (Desc.ofBits v) →
    exec (mk h) s = .next (descLoaded s x (BitVec.ofNat 16 w) la (Desc.ofBits v)
      { s.regs with esp := espPlus s (sizeBytes h.osz) } (mk h).length)

/-- `POP x` of a null selector completes and moves the stack pointer (40 R152, R157). -/
def Sys2Proof.Machine.PopLoadsNull (mk : Head → Instr) (x : SReg) : Prop :=
  ∀ (s : State) (h : Head) (w : Nat), s.segRead .ss s.sp (sizeBytes h.osz) = .ok w →
    isNull (BitVec.ofNat 16 w) = true →
    exec (mk h) s = .next (nullLoaded s x (BitVec.ofNat 16 w)
      { s.regs with esp := espPlus s (sizeBytes h.osz) } (mk h).length)

/-- The general registers after `x[r] <- v` at an operand size (40 R158). -/
def Sys2Proof.Machine.regsWith (s : State) (z : Size) (r : Reg) (v : Word) : Regs :=
  match z with
  | .s32 => s.regs.set r v
  | .s16 => s.regs.set r ((s.regs.get r).extractLsb' 16 16 ++ v.setWidth 16)

/-- A far-pointer load of `x` loads a descriptor and a general register (40 R158 to R162). -/
def Sys2Proof.Machine.FarLoads (mk : Head → Reg → Mem → Instr) (x : SReg) : Prop :=
  ∀ (s : State) (h : Head) (r : Reg) (m : Mem) (sel : Half) (off la : Word) (v : BitVec 64),
    s.readFarPtr h m = .ok (sel, off) →
    DescAt s sel la v → Loadable s x sel (Desc.ofBits v) → AccessedWritable s la (Desc.ofBits v) →
    exec (mk h r m) s = .next (descLoaded s x sel la (Desc.ofBits v) (regsWith s h.osz r off)
      (mk h r m).length)

/-- A far-pointer load of `x` with a null selector completes (40 R152, R158). -/
def Sys2Proof.Machine.FarLoadsNull (mk : Head → Reg → Mem → Instr) (x : SReg) : Prop :=
  ∀ (s : State) (h : Head) (r : Reg) (m : Mem) (sel : Half) (off : Word),
    s.readFarPtr h m = .ok (sel, off) → isNull sel = true →
    exec (mk h r m) s = .next (nullLoaded s x sel (regsWith s h.osz r off) (mk h r m).length)

/-- A store of the selector `sel s` to a register or to memory (40 R156, 42 R202, R203). -/
def Sys2Proof.Machine.StoresSelector (mk : Head → RM → Instr) (sel : State → Half) : Prop :=
  (∀ (s : State) (h : Head) (r : Reg), exec (mk h (.reg r)) s =
    .next { s with
      regs := s.regs.set r (match h.osz with
        | .s16 => (s.regs.get r).extractLsb' 16 16 ++ sel s
        | .s32 => Config.upperHalf s.free ++ sel s)
      pc := s.pcPlus (mk h (.reg r)).length, free := s.free + 1 }) ∧
  (∀ (s : State) (h : Head) (m : Mem) (pas : List Nat),
    s.segWriteTo (segOf h m) (s.ea m).toNat 2 = .ok pas →
    exec (mk h (.mem m)) s =
      .next { s.store pas (sel s).toNat with pc := s.pcPlus (mk h (.mem m)).length, free := s.free + 1 })

/-- A store of the pseudo-descriptor of `r s` (42 R200, R201). -/
def Sys2Proof.Machine.StoresTable (mk : Head → Mem → Instr) (r : State → TableReg) : Prop :=
  ∀ (s : State) (h : Head) (m : Mem) (limTo baseTo : List Nat),
    s.segWriteTo (segOf h m) (s.ea m).toNat 2 = .ok limTo →
    s.segWriteTo (segOf h m) ((s.ea m).toNat + 2) 4 = .ok baseTo →
    exec (mk h m) s = .next
      { (s.store limTo (r s).limit.toNat).store baseTo
          (match h.osz with
            | .s32 => (r s).base
            | .s16 => Config.sixthByte s.free ++ (r s).base.setWidth 24).toNat with
        pc := s.pcPlus (mk h m).length, free := s.free + 1 }

/-- The frame of a store of a selector (40 R156, 42 R202, R203): only the destination changes. -/
def Sys2Proof.Machine.SelectorStoreFrame (mk : Head → RM → Instr) : Prop :=
  (∀ (s t : State) (h : Head) (r : Reg), exec (mk h (.reg r)) s = .next t →
    KeepsRegsBut r s t ∧ t.seg = s.seg ∧ KeepsTables s t ∧ KeepsMode s t ∧ KeepsMemBut (fun _ => False) s t) ∧
  (∀ (s t : State) (h : Head) (m : Mem), exec (mk h (.mem m)) s = .next t →
    t.regs = s.regs ∧ t.seg = s.seg ∧ KeepsTables s t ∧ KeepsMode s t ∧
    ∀ pas, s.segWriteTo (segOf h m) (s.ea m).toNat 2 = .ok pas → KeepsMemBut (· ∈ pas) s t)

/-- The frame of a pop into `x` (40 R157): `ESP`, `x` and the accessed bit of the descriptor loaded. -/
def Sys2Proof.Machine.PopFrame (mk : Head → Instr) (x : SReg) : Prop :=
  ∀ (s t : State) (h : Head), exec (mk h) s = .next t →
    KeepsRegsBut .esp s t ∧ (s.seg.ss.d.db = false → t.regs.esp.extractLsb' 16 16 = s.regs.esp.extractLsb' 16 16) ∧
    KeepsSregsBut x s t ∧ KeepsTables s t ∧ KeepsMode s t ∧
    ∀ w, s.segRead .ss s.sp (sizeBytes h.osz) = .ok w →
      KeepsMemBut (fun a => s.loadTarget (BitVec.ofNat 16 w) = some a) s t

/-- The frame of a far-pointer load (40 R158): the general register, `x` and the accessed bit. -/
def Sys2Proof.Machine.FarLoadFrame (mk : Head → Reg → Mem → Instr) (x : SReg) : Prop :=
  ∀ (s t : State) (h : Head) (r : Reg) (m : Mem), exec (mk h r m) s = .next t →
    KeepsRegsBut r s t ∧ KeepsSregsBut x s t ∧ KeepsTables s t ∧ KeepsMode s t ∧
    ∀ sel off, s.readFarPtr h m = .ok (sel, off) → KeepsMemBut (fun a => s.loadTarget sel = some a) s t

/-- The frame of a far call to `sel` (41 R183): `CS`, `ESP`, the two pushed slots and the accessed bit. -/
def Sys2Proof.Machine.CallFrame (s t : State) (z : Size) (sel : Half) : Prop :=
  KeepsRegsBut .esp s t ∧ KeepsSregsBut .cs s t ∧ KeepsTables s t ∧ KeepsMode s t ∧
  ∀ csTo retTo,
    s.segWriteTo .ss (s.spMinus (sizeBytes z)) (sizeBytes z) = .ok csTo →
    s.segWriteTo .ss (s.spMinus (2 * sizeBytes z)) (sizeBytes z) = .ok retTo →
    KeepsMemBut (fun a => a ∈ csTo ∨ a ∈ retTo ∨ s.loadTarget sel = some a) s t

/-- The frame of a far return (41 R184): `CS`, `ESP` and the accessed bit. -/
def Sys2Proof.Machine.ReturnFrame (s t : State) (z : Size) : Prop :=
  KeepsRegsBut .esp s t ∧ KeepsSregsBut .cs s t ∧ KeepsTables s t ∧ KeepsMode s t ∧
  ∀ w, s.segRead .ss (s.spPlus (sizeBytes z)) (sizeBytes z) = .ok w →
    KeepsMemBut (fun a => s.loadTarget (BitVec.ofNat 16 w) = some a) s t

/-- `P` holds of every instruction that loads a data segment register or `SS`, once its selector is read:
`P s i x sel regs` is about `i` in `s`, which loads `x` with `sel` and leaves the general registers `regs`
(40 R155, R157 to R162). -/
def Sys2Proof.Machine.EachLoad (P : State → Instr → SReg → Half → Regs → Prop) : Prop :=
  (∀ (s : State) (h : Head) (x : SReg) (src : RM) (sel : Half), x ≠ .cs → s.readRm16 h src = .ok sel →
    P s (.movSregRm h x src) x sel s.regs) ∧
  (∀ (s : State) (h : Head) (w : Nat), s.segRead .ss s.sp (sizeBytes h.osz) = .ok w →
    ∀ p ∈ [(Instr.popEs h, SReg.es), (.popSs h, .ss), (.popDs h, .ds), (.popFs h, .fs), (.popGs h, .gs)],
      P s p.1 p.2 (BitVec.ofNat 16 w) { s.regs with esp := espPlus s (sizeBytes h.osz) }) ∧
  (∀ (s : State) (h : Head) (r : Reg) (m : Mem) (sel : Half) (off : Word), s.readFarPtr h m = .ok (sel, off) →
    ∀ p ∈ [(Instr.lds h r m, SReg.ds), (.les h r m, .es), (.lss h r m, .ss), (.lfs h r m, .fs),
        (.lgs h r m, .gs)],
      P s p.1 p.2 sel (regsWith s h.osz r off))

/-- `P` holds of both far `JMP` forms, once the far pointer is read: `P s i sel off` (41 R182). -/
def Sys2Proof.Machine.EachJump (P : State → Instr → Half → Word → Prop) : Prop :=
  (∀ (s : State) (h : Head) (sel : Half) (off : Word), P s (.jmpPtr h sel off) sel (immOffset h.osz off)) ∧
  (∀ (s : State) (h : Head) (m : Mem) (sel : Half) (off : Word), s.readFarPtr h m = .ok (sel, off) →
    P s (.jmpMem h m) sel off)

/-- `P` holds of both far `CALL` forms, once the far pointer is read: `P s i z sel off`, `z` being the operand
size (41 R183). -/
def Sys2Proof.Machine.EachCall (P : State → Instr → Size → Half → Word → Prop) : Prop :=
  (∀ (s : State) (h : Head) (sel : Half) (off : Word),
    P s (.callPtr h sel off) h.osz sel (immOffset h.osz off)) ∧
  (∀ (s : State) (h : Head) (m : Mem) (sel : Half) (off : Word), s.readFarPtr h m = .ok (sel, off) →
    P s (.callMem h m) h.osz sel off)

/-- `P` holds of both far `RET` forms, once both stack slots are read: `P s i sel off n`, `n` being the bytes
they release (41 R184). -/
def Sys2Proof.Machine.EachReturn (P : State → Instr → Half → Word → Nat → Prop) : Prop :=
  ∀ (s : State) (h : Head) (off w : Nat),
    s.segRead .ss s.sp (sizeBytes h.osz) = .ok off →
    s.segRead .ss (s.spPlus (sizeBytes h.osz)) (sizeBytes h.osz) = .ok w →
    P s (.retf h) (BitVec.ofNat 16 w) (BitVec.ofNat 32 off) (2 * sizeBytes h.osz) ∧
    ∀ imm : Half, P s (.retfImm h imm) (BitVec.ofNat 16 w) (BitVec.ofNat 32 off)
      (2 * sizeBytes h.osz + imm.toNat)

/-- What `i` does with a selector that names no readable table entry: `#GP` with the selector past the table or
into an absent LDT; a refusal where the entry stands in IO or absent memory (20_memory.md R66, R84). -/
def Sys2Proof.Machine.EntryMissing (s : State) (i : Instr) (sel : Half) : Prop :=
  (BeyondTable s sel → exec i s = gpSel s sel) ∧
  ∀ la, EntryNotInMemory s sel la → exec i s = .refused .tableNotInMemory

/-- `i` hangs on a selector whose descriptor passes its checks `ok`, is not accessed and has its access byte
in ROM (20_memory.md R89, 70_reset_and_hazards.md R271). -/
def Sys2Proof.Machine.HangsOnRom (s : State) (i : Instr) (sel : Half) (ok : Desc → Prop) : Prop :=
  ∀ (la : Word) (v : BitVec 64), DescAt s sel la v → ok (Desc.ofBits v) → (Desc.ofBits v).accessed = false →
    s.kindAt (la + 5).toNat = .rom → exec i s = .next { s with hung := true }

/-- The last step of a transfer whose other checks pass: `hang` for a descriptor in ROM that is not accessed
(the state with `hung` set, log 14), else the next state `t` (20_memory.md R89). -/
def Sys2Proof.Machine.hangOr (s : State) (la : Word) (d : Desc) (t : State) :
    Host.Outcome State Fault Refusal :=
  if d.accessed = false ∧ s.kindAt (la + 5).toNat = .rom then .next { s with hung := true } else .next t

/-- Every outcome of `i`, which loads `x` with `sel` and leaves the general registers `regs`, without paging, in
the order of the checks (40 R151 to R154, R163). -/
def Sys2Proof.Machine.LoadDecides (s : State) (i : Instr) (x : SReg) (sel : Half) (regs : Regs) : Prop :=
  (isNull sel = true → exec i s =
    if x = .ss then .fault (.gp (s.errCode 0)) else .next (nullLoaded s x sel regs i.length)) ∧
  (isNull sel = false → EntryMissing s i sel) ∧
  ∀ (la : Word) (v : BitVec 64), isNull sel = false → DescAt s sel la v →
    exec i s =
      if (Desc.ofBits v).s = false then gpSel s sel
      else if ¬ TypeLoadable s x sel (Desc.ofBits v) then gpSel s sel
      else if (Desc.ofBits v).p = false then
        .fault (if x = .ss ∧ s.par.ssFault = .ss then .ss (s.errCode (selCode sel))
          else .np (s.errCode (selCode sel)))
      else hangOr s la (Desc.ofBits v) (descLoaded s x sel la (Desc.ofBits v) regs i.length)

/-- `i` faults when the segmentation checks of its access of `n` bytes at an offset fail: `#SS(0)` for `SS`
when `P_SS_FAULT` is `SS`, else `#GP(0)` (20_memory.md R70). -/
def Sys2Proof.Machine.FaultsDenied (s : State) (i : Instr) (x : SReg) (off n : Nat) (u : Use) : Prop :=
  ¬ SegAllows s x off n u →
    exec i s = .fault (if x = .ss ∧ s.par.ssFault = .ss then .ss (s.errCode 0) else .gp (s.errCode 0))

/-- `i` faults at its access of `n` bytes at an offset: as `FaultsDenied` when the segmentation checks fail,
with `#AC(0)` when they pass and the access is misaligned (20_memory.md R70, R86). -/
def Sys2Proof.Machine.FaultsAt (s : State) (i : Instr) (x : SReg) (off n : Nat) (u : Use) : Prop :=
  FaultsDenied s i x off n u ∧
  (SegAllows s x off n u → Misaligned s (s.linAddr x off) n → exec i s = .fault (.ac (s.errCode 0)))

/-- Every outcome of a far `JMP` or `CALL` `i` to `sel` and `off` without paging, in the order of the checks of
41 R181, `finish` being the outcome once all of them pass. -/
def Sys2Proof.Machine.EnterDecides (s : State) (i : Instr) (sel : Half) (off : Word)
    (finish : Word → Desc → Host.Outcome State Fault Refusal) : Prop :=
  (isNull sel = true → exec i s = .fault (.gp (s.errCode 0))) ∧
  (isNull sel = false → EntryMissing s i sel) ∧
  ∀ (la : Word) (v : BitVec 64), isNull sel = false → DescAt s sel la v →
    exec i s =
      if (Desc.ofBits v).s = false then
        if (Desc.ofBits v).type ∈ [4, 12, 5, 1, 9] then .refused (.gateOrTask (Desc.ofBits v).type)
        else gpSel s sel
      else if (Desc.ofBits v).isCode = false then gpSel s sel
      else if ¬ EnterPriv s sel (Desc.ofBits v) then gpSel s sel
      else if (Desc.ofBits v).p = false then .fault (.np (s.errCode (selCode sel)))
      else if effLimit (Desc.ofBits v) < off.toNat then .fault (.gp (s.errCode 0))
      else finish la (Desc.ofBits v)

/-- Every outcome of a far `RET` `i` to `sel` and `off` that releases `n` bytes, without paging, in the order of
the checks of 41 R184. -/
def Sys2Proof.Machine.ReturnDecides (s : State) (i : Instr) (sel : Half) (off : Word) (n : Nat) : Prop :=
  (isNull sel = true → exec i s = .fault (.gp (s.errCode 0))) ∧
  (isNull sel = false → EntryMissing s i sel) ∧
  ∀ (la : Word) (v : BitVec 64), isNull sel = false → DescAt s sel la v →
    exec i s =
      if (Desc.ofBits v).s = false ∨ (Desc.ofBits v).isCode = false then gpSel s sel
      else if selRPL sel < s.cpl then gpSel s sel
      else if s.cpl < selRPL sel then .refused .outerReturn
      else if ¬ ReturnPriv sel (Desc.ofBits v) then gpSel s sel
      else if (Desc.ofBits v).p = false then .fault (.np (s.errCode (selCode sel)))
      else if effLimit (Desc.ofBits v) < off.toNat then .fault (.gp (s.errCode 0))
      else hangOr s la (Desc.ofBits v) (entered s sel la (Desc.ofBits v) s.mem (espPlus s n) off)

/-- The next state of a far `CALL` of length `len` that passes every check (41 R183). -/
def Sys2Proof.Machine.called (s : State) (z : Size) (sel : Half) (la : Word) (d : Desc) (csTo retTo : List Nat)
    (len : Nat) (off : Word) : State :=
  entered s (forceRPL sel s.cpl) la d
    ((s.store csTo (s.pushedCs z).toNat).store retTo (s.pcPlus len).toNat).mem
    (espMinus s (2 * sizeBytes z)) off

/-- When the far call `i` to `sel`, made in `s` over RAM that its accessed bit does not lie in, is
followed by `RETF` of the same operand size, the caller's place is restored. -/
def Sys2Proof.Machine.CallComesBack (i : Instr) (h : Head) (s : State) (sel : Half) : Prop :=
  ∀ (t u : State) (h' : Head), h'.osz = h.osz → s.par.paging = false → 2 * sizeBytes h.osz ≤ s.sp →
    (∀ k < 2 * sizeBytes h.osz,
      s.kindAt (s.linAddr .ss (s.sp - 2 * sizeBytes h.osz + k)).toNat = .ram ∧
      s.loadTarget sel ≠ some (s.linAddr .ss (s.sp - 2 * sizeBytes h.osz + k)).toNat) →
    exec i s = .next t → t.hung = false → exec (.retf h') t = .next u → u.hung = false →
    u.pc.toNat = (s.pcPlus i.length).toNat % 256 ^ sizeBytes h.osz ∧ u.seg.cs.sel = s.seg.cs.sel ∧
    u.regs = s.regs

/-! ### Encoding (30_encoding.md Part B) -/

/-- Decoding the encoding of a well-formed instruction gives it back, with what follows it untouched. -/
def Obligations.DecodeOfEncode : Prop :=
  ∀ (db : Bool) (i : Instr) (rest : List Byte), i.wf db = true → decode db (encode i ++ rest) = .ok i rest

/-- The example words of files 40, 41, 42 and 95 of spec/ decode to the instructions they are printed
beside; 30_encoding.md R139's bytes decode by the D flag. -/
def Obligations.SpecWordsDecode : Prop :=
  decode true [0x8E, 0xD8] = .ok (.movSregRm ⟨[], .s32⟩ .ds (.reg .eax)) [] ∧
  decode true [0x8C, 0x0B] = .ok (.movRmSreg ⟨[], .s32⟩ (.mem (.ind32 .ebx .none)) .cs) [] ∧
  decode true [0x65, 0x8C, 0x1B] = .ok (.movRmSreg ⟨[.seg .gs], .s32⟩ (.mem (.ind32 .ebx .none)) .ds) [] ∧
  decode true [0x66, 0x1F] = .ok (.popDs ⟨[.opSize], .s16⟩) [] ∧
  decode true [0x0F, 0xB2, 0x23] = .ok (.lss ⟨[], .s32⟩ .esp (.ind32 .ebx .none)) [] ∧
  decode true [0xEA, 0x00, 0x10, 0x00, 0x00, 0x08, 0x00] = .ok (.jmpPtr ⟨[], .s32⟩ 0x0008 0x00001000) [] ∧
  decode false [0xEA, 0x00, 0x10, 0x00, 0x00, 0x08, 0x00] = .ok (.jmpPtr ⟨[], .s16⟩ 0x0000 0x1000) [0x08, 0x00] ∧
  decode true [0xFF, 0x1B] = .ok (.callMem ⟨[], .s32⟩ (.ind32 .ebx .none)) [] ∧
  decode true [0xCA, 0x08, 0x00] = .ok (.retfImm ⟨[], .s32⟩ 8) [] ∧
  decode true [0x0F, 0x01, 0x0B] = .ok (.sidt ⟨[], .s32⟩ (.ind32 .ebx .none)) [] ∧
  decode true [0x0F, 0x00, 0xD0] = .ok (.lldt ⟨[], .s32⟩ (.reg .eax)) []

/-- The illegal forms of listed opcodes are no instruction (30_encoding.md section on illegal
encodings): `8EH` with `reg` 1, 6, 7; `8CH` with `reg` 6, 7; `mod` 3 where memory is needed. -/
def Obligations.IllegalFormsRefused : Prop :=
  ∀ (db : Bool) (m : Byte) (rest : List Byte),
    ((field3 3 m = 1 ∨ field3 3 m = 6 ∨ field3 3 m = 7) →
      ∀ i r, decode db (0x8E :: m :: rest) ≠ .ok i r) ∧
    ((field3 3 m = 6 ∨ field3 3 m = 7) → ∀ i r, decode db (0x8C :: m :: rest) ≠ .ok i r) ∧
    (topField m = 3 →
      decode db (0xC4 :: m :: rest) = .illegal .registerOperand ∧
      decode db (0xC5 :: m :: rest) = .illegal .registerOperand ∧
      decode db (0x0F :: 0xB2 :: m :: rest) = .illegal .registerOperand ∧
      decode db (0x0F :: 0xB4 :: m :: rest) = .illegal .registerOperand ∧
      decode db (0x0F :: 0xB5 :: m :: rest) = .illegal .registerOperand ∧
      (field3 3 m = 3 ∨ field3 3 m = 5 → decode db (0xFF :: m :: rest) = .illegal .registerOperand) ∧
      (field3 3 m = 0 ∨ field3 3 m = 1 ∨ field3 3 m = 2 ∨ field3 3 m = 3 →
        decode db (0x0F :: 0x01 :: m :: rest) = .illegal .registerOperand))

/-! ### Steps -/

/-- When the bytes at `CS:EIP` decode to an instruction, a step executes it: nothing else is done
around `exec` (10_state.md section 4, 20_memory.md section 6). -/
def Obligations.StepRunsDecodedInstruction : Prop :=
  ∀ (s : State) (bs rest : List Byte) (i : Instr), s.hung = false →
    decode s.seg.cs.d.db bs = .ok i rest →
    (∀ k b, bs[k]? = some b → s.fetchByte k = .ok b) →
    step s = exec i s

/-- The accessed-bit write to ROM hangs, for every instruction that loads a segment register: the state is kept
but for the model's own field `hung` (log 14), and every later step stays where it is
(70_reset_and_hazards.md section 3, 92_eei_decisions.md D19). -/
def Obligations.RomDescriptorHangs : Prop :=
  EachLoad (fun s i x sel _ => HangsOnRom s i sel (Loadable s x sel)) ∧
  EachJump (fun s i sel off => HangsOnRom s i sel (Enterable s sel off)) ∧
  EachCall (fun s i z sel off => ∀ csTo retTo, CallRoom s z → CallPushes s z csTo retTo →
    HangsOnRom s i sel (Enterable s sel off)) ∧
  EachReturn (fun s i sel off _ => HangsOnRom s i sel (Returnable s sel off)) ∧
  ∀ s : State, s.hung = true → step s = .next s

/-! ### Selectors and descriptors (30_encoding.md Part A) -/

/-- A selector is its index, table indicator and privilege level; the indicator selects the GDT or the
LDT, and the index times 8 is added to the table's base (30_encoding.md R110). -/
def Obligations.SelectorFieldsCompose : Prop :=
  (∀ sel : Half, sel.toNat = selIndex sel * 8 + (selTI sel).toNat * 4 + (selRPL sel).toNat ∧
    selIndex sel < 8192 ∧ selIndex sel = sel.toNat / 8 ∧ (selTI sel).toNat = sel.toNat / 4 % 2 ∧
    (selRPL sel).toNat = sel.toNat % 4) ∧
  (∀ (i : BitVec 13) (ti : Bool) (rpl : BitVec 2),
    selIndex (mkSel i ti rpl) = i.toNat ∧ selTI (mkSel i ti rpl) = ti ∧ selRPL (mkSel i ti rpl) = rpl) ∧
  (∀ (s : State) (sel : Half) (la : Word) (d : Desc), s.readDescriptor sel = .ok (la, d) →
    la = (if selTI sel then s.ldtr.d.base else s.gdtr.base) + BitVec.ofNat 32 (selIndex sel * 8))

/-- Exactly the four values 0000H to 0003H are null: Index 0 and TI 0, whatever RPL is. Index 0 with TI 1
is not null and names entry 0 of the LDT (30_encoding.md R111). -/
def Obligations.NullSelectorValues : Prop :=
  (∀ sel : Half, (isNull sel = true ↔ sel.toNat ≤ 3) ∧
    (isNull sel = true ↔ selIndex sel = 0 ∧ selTI sel = false)) ∧
  (∀ sel : Half, selIndex sel = 0 ∧ selTI sel = true ↔ 4 ≤ sel.toNat ∧ sel.toNat ≤ 7) ∧
  (∀ (s : State) (sel : Half) (la : Word) (d : Desc), selIndex sel = 0 → selTI sel = true →
    isNull sel = false ∧ (s.readDescriptor sel = .ok (la, d) → la = s.ldtr.d.base))

/-- The table offset of a selector: the index times 8, at most 65528, which is `sel & 0xFFF8`. Index 8191 of
the GDT, the last of 8192 descriptors, is inside the table exactly when the limit is FFFFH
(20_memory.md R67). -/
def Obligations.SelectorTableOffset : Prop :=
  (∀ sel : Half, selIndex sel * 8 = (sel &&& 0xFFF8).toNat ∧ selIndex sel * 8 ≤ 8191 * 8 ∧ 8191 * 8 = 65528 ∧
    selIndex sel * 8 % 8 = 0) ∧
  ∀ (s : State) (sel : Half), selIndex sel = 8191 → selTI sel = false →
    (s.readDescriptor sel ≠ .error (raise s .gp (selCode sel)) ↔ s.gdtr.limit.toNat = 65535)

/-- The descriptor layout loses nothing: fields to bits to fields, and bits to fields to bits
(30_encoding.md section A2). -/
def Obligations.DescriptorLayoutRoundTrip : Prop :=
  (∀ d : Desc, Desc.ofBits d.toBits = d) ∧ (∀ v : BitVec 64, (Desc.ofBits v).toBits = v)

/-- Table 1: the sixteen code and data types; data segments have no conforming bit and code segments
are never writable (30_encoding.md R121). -/
def Obligations.CodeAndDataTypes : Prop :=
  ∀ d : Desc, d.s = true →
    d.kind = [DescKind.data false false false, .data false false true, .data true false false,
      .data true false true, .data false true false, .data false true true, .data true true false,
      .data true true true, .code false false false, .code false false true, .code true false false,
      .code true false true, .code false true false, .code false true true, .code true true false,
      .code true true true].getD d.type.toNat .reserved ∧
    (8 ≤ d.type.toNat → typeAllows d .write = false)

/-- Table 2, its 32-bit column: the sixteen system-segment and gate types; 0, 8, 10 and 13 are reserved
(30_encoding.md Part A). -/
def Obligations.SystemTypes : Prop :=
  ∀ d : Desc, d.s = false →
    d.kind = [DescKind.reserved, .tss16 false, .ldt, .tss16 true, .callGate16, .taskGate, .interruptGate16,
      .trapGate16, .reserved, .tss32 false, .reserved, .tss32 true, .callGate32, .reserved,
      .interruptGate32, .trapGate32].getD d.type.toNat .reserved

/-! ### Translation (20_memory.md sections 2 and 3) -/

/-- The effective limit, and that with G = 1 the low 12 bits of an offset are not tested. -/
def Obligations.EffectiveLimitScaling : Prop :=
  ∀ d : Desc, (d.g = false → effLimit d = d.limit20.toNat ∧ effLimit d < 2 ^ 20) ∧
    (d.g = true → effLimit d = d.limit20.toNat * 2 ^ 12 + 0xFFF ∧ effLimit d < 2 ^ 32 ∧
      ∀ off : Nat, off ≤ effLimit d ↔ off / 2 ^ 12 ≤ d.limit20.toNat)

/-- The limit check covers every byte of an access; the offset equal to the limit is the last valid one
of an expand-up segment and is not valid in an expand-down one. -/
def Obligations.LimitCheckCoversEveryByte : Prop :=
  (∀ (d : Desc) (off n : Nat), 1 ≤ n → (inLimit d off n = true ↔ ∀ i < n, inLimit d (off + i) 1 = true)) ∧
  (∀ d : Desc, d.expandDown = false → ∀ off, inLimit d off 1 = true ↔ off ≤ effLimit d) ∧
  (∀ d : Desc, d.expandDown = true → ∀ off, inLimit d off 1 = true ↔
    effLimit d < off ∧ off ≤ if d.db = true then 0xFFFFFFFF else 0xFFFF)

/-- `SegAccess`: the segmentation checks, then alignment, then base plus offset modulo 2^32; nothing else
of the state decides. Offsets are unbounded (log 19); every `SS` violation is a `SegFault` (log 26). -/
def Obligations.SegAccessDecision : Prop :=
  ∀ (s : State) (x : SReg) (off n : Nat) (u : Use),
    s.segAccess x off n u =
      if ¬ SegAllows s x off n u then
        .error (.fault (if x = .ss ∧ s.par.ssFault = .ss then .ss (s.errCode 0) else .gp (s.errCode 0)))
      else if Misaligned s ((s.sreg x).d.base + BitVec.ofNat 32 off) n then .error (.fault (.ac (s.errCode 0)))
      else .ok ((s.sreg x).d.base + BitVec.ofNat 32 off)

/-- An operand access that fails a check is the fault of that check, whatever instruction makes it. A load or
store through a data register that holds the null selector raises `#GP(0)`. A limit or type violation, or a
misaligned access at `CPL` 3 with `P_AC`, of a memory operand or of the stack read of `POP` and far `RET` raises
the fault of `SegAccess`. So does the second access of a pseudo-descriptor, a far pointer and a return frame when
the first one passes, at the offset log 19 names; that of a far pointer or a return frame is then never
misaligned. The privileged loads are at `CPL` 0, where no access is. Every `SS` violation is a `SegFault`
(log 26). -/
def Obligations.NullRegisterUseFaults : Prop :=
  (∀ (s : State) (h : Head) (m : Mem) (x : SReg) (r : Reg), segOf h m ∈ dataSregs →
    (s.sreg (segOf h m)).valid = false →
    ∀ i ∈ [Instr.movRmSreg h (.mem m) x, .sldt h (.mem m), .str h (.mem m), .sgdt h m, .sidt h m,
        .movSregRm h x (.mem m), .lds h r m, .les h r m, .lss h r m, .lfs h r m, .lgs h r m,
        .jmpMem h m, .callMem h m, .lgdt h m, .lidt h m, .lldt h (.mem m), .ltr h (.mem m)],
      exec i s = .fault (.gp (s.errCode 0))) ∧
  (∀ (s : State) (h : Head) (m : Mem) (x : SReg),
    (∀ i ∈ [Instr.movRmSreg h (.mem m) x, .sldt h (.mem m), .str h (.mem m)],
      FaultsAt s i (segOf h m) (s.ea m).toNat 2 .write) ∧
    FaultsAt s (.movSregRm h x (.mem m)) (segOf h m) (s.ea m).toNat 2 .read ∧
    (∀ i ∈ [Instr.sgdt h m, .sidt h m],
      FaultsAt s i (segOf h m) (s.ea m).toNat 2 .write ∧
      ∀ limTo, s.segWriteTo (segOf h m) (s.ea m).toNat 2 = .ok limTo →
        FaultsAt s i (segOf h m) ((s.ea m).toNat + 2) 4 .write) ∧
    (s.cpl = 0 →
      (∀ i ∈ [Instr.lldt h (.mem m), .ltr h (.mem m)],
        FaultsDenied s i (segOf h m) (s.ea m).toNat 2 .read) ∧
      ∀ i ∈ [Instr.lgdt h m, .lidt h m],
        FaultsDenied s i (segOf h m) (s.ea m).toNat 2 .read ∧
        ∀ lim, s.segRead (segOf h m) (s.ea m).toNat 2 = .ok lim →
          FaultsDenied s i (segOf h m) ((s.ea m).toNat + 2) 4 .read)) ∧
  (∀ (s : State) (h : Head) (m : Mem) (r : Reg),
    ∀ i ∈ [Instr.lds h r m, .les h r m, .lss h r m, .lfs h r m, .lgs h r m, .jmpMem h m, .callMem h m],
      FaultsAt s i (segOf h m) (s.ea m).toNat (sizeBytes h.osz) .read ∧
      ∀ off, s.segRead (segOf h m) (s.ea m).toNat (sizeBytes h.osz) = .ok off →
        FaultsDenied s i (segOf h m) ((s.ea m).toNat + sizeBytes h.osz) 2 .read) ∧
  ∀ (s : State) (h : Head) (imm : Half),
    (∀ i ∈ [Instr.popEs h, .popSs h, .popDs h, .popFs h, .popGs h, .retf h, .retfImm h imm],
      FaultsAt s i .ss s.sp (sizeBytes h.osz) .read) ∧
    ∀ i ∈ [Instr.retf h, .retfImm h imm], ∀ off, s.segRead .ss s.sp (sizeBytes h.osz) = .ok off →
      FaultsDenied s i .ss (s.spPlus (sizeBytes h.osz)) (sizeBytes h.osz) .read

/-- Basic flat model: base 0 and limit 4 GB make every offset its own linear address, with no limit
fault. -/
def Obligations.FlatSegmentIdentity : Prop :=
  ∀ (s : State) (x : SReg) (u : Use) (off n : Nat), (s.sreg x).valid = true →
    (s.sreg x).d.base = 0 → (s.sreg x).d.limit20 = 0xFFFFF → (s.sreg x).d.g = true →
    (s.sreg x).d.expandDown = false → typeAllows (s.sreg x).d u = true → 1 ≤ n → off + n ≤ 2 ^ 32 →
    ¬ Misaligned s (BitVec.ofNat 32 off) n →
    ∃ la, s.segAccess x off n u = .ok la ∧ la.toNat = off

/-- Without paging a read of `n` bytes never faults, whatever memory stands there, and gives them
little-endian (log 1); RAM and ROM bytes are memory's, others are any value (log 10). -/
def Obligations.LinearReadLittleEndian : Prop :=
  ∀ (s : State) (k : Access) (la : Word) (n : Nat), s.par.paging = false →
    s.linRead k la n = .ok (∑ i ∈ Finset.range n,
      (match s.kindAt (la + BitVec.ofNat 32 i).toNat with
        | .ram | .rom => Memory.read s.mem (la + BitVec.ofNat 32 i).toNat
        | .io | .none => Config.unbackedByte s.free k (la + BitVec.ofNat 32 i)).toNat * 256 ^ i)

/-- What is stored at a logical address in RAM is read back there. -/
def Obligations.StoreThenReadBack : Prop :=
  ∀ (s : State) (x : SReg) (off n v : Nat) (pas : List Nat), s.par.paging = false →
    s.segWriteTo x off n = .ok pas → (∀ a ∈ pas, s.kindAt a = .ram) →
    (s.store pas v).segRead x off n = .ok (v % 256 ^ n)

/-- No step changes a byte that is not RAM (log 16 for IO and absent memory). -/
def Obligations.StepKeepsWhatIsNotRam : Prop :=
  ∀ (s t : State) (a : Nat), step s = .next t → s.kindAt a ≠ .ram →
    Memory.read t.mem a = Memory.read s.mem a

/-- `ReadDescriptor` gives the eight bytes of the table entry a selector points at. -/
def Obligations.DescriptorReadResult : Prop :=
  ∀ (s : State) (sel : Half) (la : Word) (v : BitVec 64), DescAt s sel la v →
    s.readDescriptor sel = .ok (la, Desc.ofBits v)

/-- A selector with TI = 1 when no LDT is loaded, or whose descriptor passes the table limit, raises `#GP` with
the selector, by every instruction that reads a descriptor; a table entry in IO or absent memory is refused. -/
def Obligations.SelectorBeyondTableFaults : Prop :=
  EachLoad (fun s i _ sel _ => isNull sel = false → EntryMissing s i sel) ∧
  EachJump (fun s i sel _ => isNull sel = false → EntryMissing s i sel) ∧
  EachCall (fun s i _ sel _ => isNull sel = false → EntryMissing s i sel) ∧
  EachReturn (fun s i sel _ _ => isNull sel = false → EntryMissing s i sel) ∧
  ∀ (s : State) (h : Head) (src : RM) (sel : Half), s.cpl = 0 → s.readRm16 h src = .ok sel →
    isNull sel = false → selTI sel = false →
    EntryMissing s (.lldt h src) sel ∧ EntryMissing s (.ltr h src) sel

/-! ### Family 1: loads and stores of segment registers (40_segment_register_loads.md) -/

/-- `MOV Sreg`, the five pops and the five far-pointer loads: every outcome without paging once the selector is
read, in the order of the checks. `DescAt` has paging off. A hang is the state with `hung` set (log 14); the
hidden fields after a null load are any (log 13); a pop moves the stack pointer of the old `SS` (log 25). -/
def Obligations.MovSregDecision : Prop := EachLoad LoadDecides

/-- `MOV Sreg` completes when the descriptor passes every check: the register holds the selector and
the descriptor's fields, and the accessed bit is set. -/
def Obligations.MovSregLoadsDescriptor : Prop :=
  ∀ (s : State) (h : Head) (x : SReg) (src : RM) (sel : Half) (la : Word) (v : BitVec 64),
    s.readRm16 h src = .ok sel → DescAt s sel la v → Loadable s x sel (Desc.ofBits v) →
    AccessedWritable s la (Desc.ofBits v) →
    exec (.movSregRm h x src) s =
      .next (descLoaded s x sel la (Desc.ofBits v) s.regs (Instr.movSregRm h x src).length)

/-- A null selector loads `DS`, `ES`, `FS` or `GS` without an exception, by `MOV`, `POP` or a far-pointer
load, and no memory is written. -/
def Obligations.NullSelectorLoads : Prop :=
  (∀ (s : State) (h : Head) (x : SReg) (src : RM) (sel : Half), x ∈ dataSregs →
    s.readRm16 h src = .ok sel → isNull sel = true →
    exec (.movSregRm h x src) s = .next (nullLoaded s x sel s.regs (Instr.movSregRm h x src).length)) ∧
  PopLoadsNull .popEs .es ∧ PopLoadsNull .popDs .ds ∧ PopLoadsNull .popFs .fs ∧ PopLoadsNull .popGs .gs ∧
  FarLoadsNull .lds .ds ∧ FarLoadsNull .les .es ∧ FarLoadsNull .lfs .fs ∧ FarLoadsNull .lgs .gs

/-- A null selector into `SS` raises `#GP(0)`, by `MOV SS`, `POP SS` and `LSS`. -/
def Obligations.NullStackSelectorFaults : Prop :=
  (∀ (s : State) (h : Head) (src : RM) (sel : Half), s.readRm16 h src = .ok sel → isNull sel = true →
    exec (.movSregRm h .ss src) s = .fault (.gp (s.errCode 0))) ∧
  (∀ (s : State) (h : Head) (w : Nat), s.segRead .ss s.sp (sizeBytes h.osz) = .ok w →
    isNull (BitVec.ofNat 16 w) = true → exec (.popSs h) s = .fault (.gp (s.errCode 0))) ∧
  (∀ (s : State) (h : Head) (r : Reg) (m : Mem) (sel : Half) (off : Word),
    s.readFarPtr h m = .ok (sel, off) → isNull sel = true →
    exec (.lss h r m) s = .fault (.gp (s.errCode 0)))

/-- The five `POP Sreg` complete when the popped selector's descriptor passes every check. -/
def Obligations.PopsLoadDescriptor : Prop :=
  PopLoads .popEs .es ∧ PopLoads .popSs .ss ∧ PopLoads .popDs .ds ∧ PopLoads .popFs .fs ∧ PopLoads .popGs .gs

/-- The five far-pointer loads complete when the selector's descriptor passes every check. -/
def Obligations.FarPointerLoads : Prop :=
  FarLoads .lds .ds ∧ FarLoads .les .es ∧ FarLoads .lss .ss ∧ FarLoads .lfs .fs ∧ FarLoads .lgs .gs

/-- `MOV r/m16, Sreg` stores the selector; with 32-bit operand size bits 31:16 of a register get any
value (log 11). -/
def Obligations.MovFromSregResult : Prop :=
  ∀ x : SReg, StoresSelector (fun h o => .movRmSreg h o x) (fun s => (s.sreg x).sel)

/-! ### Family 2: far transfers (41_far_control_transfers.md) -/

/-- Far `JMP` and far `CALL`, both forms of each: every outcome without paging once the far pointer is read, in
the order of the checks. A `CALL` without room for both slots is a stack fault; with room its pushes are
allowed. A hang is the state with `hung` set (log 14). The accessed bit is set after the pushes (log 24), and
bits 31:16 of a pushed 32-bit `CS` are any value (log 11). -/
def Obligations.FarJumpDecision : Prop :=
  EachJump (fun s i sel off => EnterDecides s i sel off fun la d =>
    hangOr s la d (entered s (forceRPL sel s.cpl) la d s.mem s.regs.esp off)) ∧
  EachCall (fun s i z sel off =>
    (¬ CallRoom s z → EnterDecides s i sel off fun _ _ =>
      .fault (if s.par.ssFault = .ss then .ss (s.errCode 0) else .gp (s.errCode 0))) ∧
    ∀ csTo retTo, CallRoom s z → CallPushes s z csTo retTo →
      EnterDecides s i sel off fun la d => hangOr s la d (called s z sel la d csTo retTo i.length off)) ∧
  ∀ (s : State) (z : Size), s.par.paging = false → CallRoom s z → ∃ csTo retTo, CallPushes s z csTo retTo

/-- Both far `JMP` forms enter a code segment that passes every check; `CPL` is kept and forced into
the selector. -/
def Obligations.FarJumpEnters : Prop :=
  (∀ (s : State) (h : Head) (sel : Half) (off la : Word) (v : BitVec 64), DescAt s sel la v →
    Enterable s sel (immOffset h.osz off) (Desc.ofBits v) → AccessedWritable s la (Desc.ofBits v) →
    exec (.jmpPtr h sel off) s =
      .next (entered s (forceRPL sel s.cpl) la (Desc.ofBits v) s.mem s.regs.esp (immOffset h.osz off))) ∧
  (∀ (s : State) (h : Head) (m : Mem) (sel : Half) (off la : Word) (v : BitVec 64),
    s.readFarPtr h m = .ok (sel, off) → DescAt s sel la v → Enterable s sel off (Desc.ofBits v) →
    AccessedWritable s la (Desc.ofBits v) →
    exec (.jmpMem h m) s =
      .next (entered s (forceRPL sel s.cpl) la (Desc.ofBits v) s.mem s.regs.esp off))

/-- Both far `CALL` forms push `CS` and the return offset and enter a code segment that passes every check, when
the stack has room. The accessed bit is set after the pushes (log 24). Bits 31:16 of a pushed 32-bit `CS` are
any value (log 11). -/
def Obligations.FarCallEnters : Prop :=
  EachCall fun s i z sel off =>
    ∀ (la : Word) (v : BitVec 64) (csTo retTo : List Nat),
      DescAt s sel la v → Enterable s sel off (Desc.ofBits v) → AccessedWritable s la (Desc.ofBits v) →
      CallRoom s z → CallPushes s z csTo retTo →
      exec i s = .next (called s z sel la (Desc.ofBits v) csTo retTo i.length off)

/-- Far `RET`, both forms: every outcome without paging once the offset and the selector are read from the
stack, in the order of the checks. A hang is the state with `hung` set (log 14). -/
def Obligations.FarReturnDecision : Prop := EachReturn ReturnDecides

/-- Both far `RET` forms return to a code segment of the same level that passes every check and release
the frame and the immediate's bytes. -/
def Obligations.FarReturnEnters : Prop :=
  ∀ (s : State) (h : Head) (off w : Nat) (la : Word) (v : BitVec 64),
    s.segRead .ss s.sp (sizeBytes h.osz) = .ok off →
    s.segRead .ss (s.spPlus (sizeBytes h.osz)) (sizeBytes h.osz) = .ok w →
    DescAt s (BitVec.ofNat 16 w) la v →
    Returnable s (BitVec.ofNat 16 w) (BitVec.ofNat 32 off) (Desc.ofBits v) →
    AccessedWritable s la (Desc.ofBits v) →
    exec (.retf h) s = .next (entered s (BitVec.ofNat 16 w) la (Desc.ofBits v) s.mem
      (espPlus s (2 * sizeBytes h.osz)) (BitVec.ofNat 32 off)) ∧
    ∀ imm : Half, exec (.retfImm h imm) s = .next (entered s (BitVec.ofNat 16 w) la (Desc.ofBits v) s.mem
      (espPlus s (2 * sizeBytes h.osz + imm.toNat)) (BitVec.ofNat 32 off))

/-- A far `RET` takes up what either far `CALL` pushed: the offset of the next instruction (its low half
with 16-bit operand size), the caller's `CS` selector and its stack pointer, whatever stood in the pushed
slot's free half. -/
def Obligations.CallThenReturnComesBack : Prop :=
  (∀ (s : State) (h : Head) (sel : Half) (off : Word), CallComesBack (.callPtr h sel off) h s sel) ∧
  (∀ (s : State) (h : Head) (m : Mem) (sel : Half) (off : Word), s.readFarPtr h m = .ok (sel, off) →
    CallComesBack (.callMem h m) h s sel)

/-- `IRET`, `INT n`, `INT3`, `INTO`, `SYSENTER` and `SYSEXIT` are refused, each by its name, in every
state. -/
def Obligations.InterruptsAndFastCallsRefused : Prop :=
  ∀ (s : State) (h : Head) (n : Byte),
    exec (.iret h) s = .refused .interruptReturn ∧ exec (.intN h n) s = .refused (.softwareInterrupt n) ∧
    exec (.int3 h) s = .refused .breakpointInterrupt ∧ exec (.into h) s = .refused .overflowInterrupt ∧
    exec (.sysenter h) s = .refused .systemEntry ∧ exec (.sysexit h) s = .refused .systemExit

/-! ### Family 3: table registers (42_table_register_instructions.md) -/

/-- `SGDT` and `SIDT` store a word, the limit, and a doubleword, the base, at every privilege level; with
16-bit operand size the sixth byte is any value (log 12). -/
def Obligations.PseudoDescriptorStores : Prop :=
  StoresTable .sgdt (fun s => s.gdtr) ∧ StoresTable .sidt (fun s => s.idtr)

/-- `SLDT` and `STR` store the visible selectors at every privilege level; with 32-bit operand size bits
31:16 of a register get any value (log 11). -/
def Obligations.TableSelectorStores : Prop :=
  StoresSelector .sldt (fun s => s.ldtr.sel) ∧ StoresSelector .str (fun s => s.tr.sel)

/-- `LGDT` and `LIDT` at `CPL` 0 load limit and base; with 16-bit operand size the base is 24 bits.
Nothing else changes but `pc`. -/
def Obligations.PseudoDescriptorLoads : Prop :=
  ∀ (s : State) (h : Head) (m : Mem) (lim b : Nat), s.cpl = 0 →
    s.segRead (segOf h m) (s.ea m).toNat 2 = .ok lim →
    s.segRead (segOf h m) ((s.ea m).toNat + 2) 4 = .ok b →
    exec (.lgdt h m) s = .next { s with
      gdtr := ⟨if h.osz = .s16 then BitVec.ofNat 32 b &&& 0x00FFFFFF else BitVec.ofNat 32 b, BitVec.ofNat 16 lim⟩
      pc := s.pcPlus (Instr.lgdt h m).length, free := s.free + 1 } ∧
    exec (.lidt h m) s = .next { s with
      idtr := ⟨if h.osz = .s16 then BitVec.ofNat 32 b &&& 0x00FFFFFF else BitVec.ofNat 32 b, BitVec.ofNat 16 lim⟩
      pc := s.pcPlus (Instr.lidt h m).length, free := s.free + 1 }

/-- `LLDT` at `CPL` 0: a null selector empties `LDTR`, whose hidden fields stay (log 27); a selector of a present LDT descriptor in the GDT
loads it, and no memory is written. -/
def Obligations.LldtLoads : Prop :=
  (∀ (s : State) (h : Head) (src : RM) (sel : Half), s.cpl = 0 → s.readRm16 h src = .ok sel →
    isNull sel = true →
    exec (.lldt h src) s = .next { s with
      ldtr := ⟨sel, false, s.ldtr.d⟩, pc := s.pcPlus (Instr.lldt h src).length, free := s.free + 1 }) ∧
  (∀ (s : State) (h : Head) (src : RM) (sel : Half) (la : Word) (v : BitVec 64), s.cpl = 0 →
    s.readRm16 h src = .ok sel → isNull sel = false → selTI sel = false → DescAt s sel la v →
    (Desc.ofBits v).s = false → (Desc.ofBits v).type = 2 → (Desc.ofBits v).p = true →
    exec (.lldt h src) s = .next { s with
      ldtr := ⟨sel, true, Desc.ofBits v⟩, pc := s.pcPlus (Instr.lldt h src).length, free := s.free + 1 })

/-- `LTR` at `CPL` 0: a selector of a present, available TSS in the GDT loads `TR` and marks the
descriptor busy in memory. -/
def Obligations.LtrLoads : Prop :=
  ∀ (s : State) (h : Head) (src : RM) (sel : Half) (la : Word) (v : BitVec 64), s.cpl = 0 →
    s.readRm16 h src = .ok sel → isNull sel = false → selTI sel = false → DescAt s sel la v →
    (Desc.ofBits v).s = false → ((Desc.ofBits v).type = 1 ∨ (Desc.ofBits v).type = 9) →
    (Desc.ofBits v).p = true → s.kindAt (la + 5).toNat = .ram →
    exec (.ltr h src) s = .next { s with
      mem := Memory.write s.mem (la + 5).toNat (Memory.read s.mem (la + 5).toNat ||| 2)
      tr := ⟨sel, true, { Desc.ofBits v with type := (Desc.ofBits v).type ||| 2 }⟩
      pc := s.pcPlus (Instr.ltr h src).length, free := s.free + 1 }

/-- Where the privileged loads trap: all four at every `CPL` but 0 with `#GP(0)`; at `CPL` 0 `LTR` of a null
selector with `#GP(0)`, `LLDT` and `LTR` of a selector into the LDT or of a descriptor of another kind with
`#GP` and the selector, and of a descriptor that is not present with `#NP` and the selector. -/
def Obligations.PrivilegedLoadsTrap : Prop :=
  (∀ (s : State) (h : Head) (m : Mem) (src : RM), s.cpl ≠ 0 →
    exec (.lgdt h m) s = .fault (.gp (s.errCode 0)) ∧ exec (.lidt h m) s = .fault (.gp (s.errCode 0)) ∧
    exec (.lldt h src) s = .fault (.gp (s.errCode 0)) ∧ exec (.ltr h src) s = .fault (.gp (s.errCode 0))) ∧
  ∀ (s : State) (h : Head) (src : RM) (sel : Half), s.cpl = 0 → s.readRm16 h src = .ok sel →
    (isNull sel = true → exec (.ltr h src) s = .fault (.gp (s.errCode 0))) ∧
    (isNull sel = false → selTI sel = true →
      exec (.lldt h src) s = gpSel s sel ∧ exec (.ltr h src) s = gpSel s sel) ∧
    ∀ (la : Word) (v : BitVec 64), isNull sel = false → selTI sel = false → DescAt s sel la v →
      (¬ ((Desc.ofBits v).s = false ∧ (Desc.ofBits v).type = 2) → exec (.lldt h src) s = gpSel s sel) ∧
      ((Desc.ofBits v).s = false ∧ (Desc.ofBits v).type = 2 → (Desc.ofBits v).p = false →
        exec (.lldt h src) s = .fault (.np (s.errCode (selCode sel)))) ∧
      (¬ ((Desc.ofBits v).s = false ∧ ((Desc.ofBits v).type = 1 ∨ (Desc.ofBits v).type = 9)) →
        exec (.ltr h src) s = gpSel s sel) ∧
      ((Desc.ofBits v).s = false ∧ ((Desc.ofBits v).type = 1 ∨ (Desc.ofBits v).type = 9) →
        (Desc.ofBits v).p = false → exec (.ltr h src) s = .fault (.np (s.errCode (selCode sel))))

/-! ### Frames -/

/-- `MOV Sreg` changes its register, `pc` and at most the accessed bit of the descriptor it loads. -/
def Obligations.MovSregFrame : Prop :=
  ∀ (s t : State) (h : Head) (x : SReg) (src : RM), exec (.movSregRm h x src) s = .next t →
    t.regs = s.regs ∧ KeepsSregsBut x s t ∧ KeepsTables s t ∧ KeepsMode s t ∧
    ∀ sel, s.readRm16 h src = .ok sel → KeepsMemBut (fun a => s.loadTarget sel = some a) s t

/-- The five pops change `ESP` (with B = 0 in the old `SS` only its low half, log 25), their register and at
most the accessed bit of the descriptor they load. -/
def Obligations.PopsFrame : Prop :=
  PopFrame .popEs .es ∧ PopFrame .popSs .ss ∧ PopFrame .popDs .ds ∧ PopFrame .popFs .fs ∧ PopFrame .popGs .gs

/-- The far-pointer loads change their two registers and at most the accessed bit. -/
def Obligations.FarPointerLoadsFrame : Prop :=
  FarLoadFrame .lds .ds ∧ FarLoadFrame .les .es ∧ FarLoadFrame .lss .ss ∧ FarLoadFrame .lfs .fs ∧
  FarLoadFrame .lgs .gs

/-- `MOV r/m16, Sreg`, `SLDT` and `STR` change their destination only: one register, or the bytes at the
operand's addresses. -/
def Obligations.SelectorStoresFrame : Prop :=
  (∀ x : SReg, SelectorStoreFrame fun h o => .movRmSreg h o x) ∧ SelectorStoreFrame .sldt ∧ SelectorStoreFrame .str

/-- The far jumps change `CS`, `pc` and at most the accessed bit; nothing is pushed. -/
def Obligations.FarJumpsFrame : Prop :=
  (∀ (s t : State) (h : Head) (sel : Half) (off : Word), exec (.jmpPtr h sel off) s = .next t →
    t.regs = s.regs ∧ KeepsSregsBut .cs s t ∧ KeepsTables s t ∧ KeepsMode s t ∧
    KeepsMemBut (fun a => s.loadTarget sel = some a) s t) ∧
  (∀ (s t : State) (h : Head) (m : Mem), exec (.jmpMem h m) s = .next t →
    t.regs = s.regs ∧ KeepsSregsBut .cs s t ∧ KeepsTables s t ∧ KeepsMode s t ∧
    ∀ sel off, s.readFarPtr h m = .ok (sel, off) → KeepsMemBut (fun a => s.loadTarget sel = some a) s t)

/-- The far calls change `CS`, `pc`, `ESP`, the two pushed slots and at most the accessed bit. -/
def Obligations.FarCallsFrame : Prop :=
  (∀ (s t : State) (h : Head) (sel : Half) (off : Word), exec (.callPtr h sel off) s = .next t →
    CallFrame s t h.osz sel) ∧
  (∀ (s t : State) (h : Head) (m : Mem), exec (.callMem h m) s = .next t →
    ∀ sel off, s.readFarPtr h m = .ok (sel, off) → CallFrame s t h.osz sel)

/-- The far returns change `CS`, `pc`, `ESP` and at most the accessed bit. -/
def Obligations.FarReturnsFrame : Prop :=
  (∀ (s t : State) (h : Head), exec (.retf h) s = .next t → ReturnFrame s t h.osz) ∧
  (∀ (s t : State) (h : Head) (imm : Half), exec (.retfImm h imm) s = .next t → ReturnFrame s t h.osz)

/-- `SGDT` and `SIDT` change the six bytes of their operand only. -/
def Obligations.PseudoDescriptorStoresFrame : Prop :=
  ∀ (s t : State) (h : Head) (m : Mem), (exec (.sgdt h m) s = .next t ∨ exec (.sidt h m) s = .next t) →
    t.regs = s.regs ∧ t.seg = s.seg ∧ KeepsTables s t ∧ KeepsMode s t ∧
    ∀ limTo baseTo, s.segWriteTo (segOf h m) (s.ea m).toNat 2 = .ok limTo →
      s.segWriteTo (segOf h m) ((s.ea m).toNat + 2) 4 = .ok baseTo →
      KeepsMemBut (fun a => a ∈ limTo ∨ a ∈ baseTo) s t

/-- `LGDT`, `LIDT` and `LLDT` change their own table register and no memory; no segment register's
hidden part changes. -/
def Obligations.TableLoadsFrame : Prop :=
  ∀ (s t : State) (h : Head),
    (∀ m, exec (.lgdt h m) s = .next t → t.regs = s.regs ∧ t.seg = s.seg ∧ t.idtr = s.idtr ∧
      t.ldtr = s.ldtr ∧ t.tr = s.tr ∧ KeepsMode s t ∧ KeepsMemBut (fun _ => False) s t) ∧
    (∀ m, exec (.lidt h m) s = .next t → t.regs = s.regs ∧ t.seg = s.seg ∧ t.gdtr = s.gdtr ∧
      t.ldtr = s.ldtr ∧ t.tr = s.tr ∧ KeepsMode s t ∧ KeepsMemBut (fun _ => False) s t) ∧
    (∀ src, exec (.lldt h src) s = .next t → t.regs = s.regs ∧ t.seg = s.seg ∧ t.gdtr = s.gdtr ∧
      t.idtr = s.idtr ∧ t.tr = s.tr ∧ KeepsMode s t ∧ KeepsMemBut (fun _ => False) s t)

/-- `LTR` changes `TR` and the byte of the descriptor that holds the busy bit. -/
def Obligations.LtrFrame : Prop :=
  ∀ (s t : State) (h : Head) (src : RM), exec (.ltr h src) s = .next t →
    t.regs = s.regs ∧ t.seg = s.seg ∧ t.gdtr = s.gdtr ∧ t.idtr = s.idtr ∧ t.ldtr = s.ldtr ∧ KeepsMode s t ∧
    ∀ sel, s.readRm16 h src = .ok sel → KeepsMemBut (fun a => s.busyTarget sel = some a) s t

/-! ### Rules of the whole machine -/

/-- A segment register, visible and hidden part, changes only by an instruction that loads it. -/
def Obligations.HiddenPartOnlyByLoads : Prop :=
  ∀ (i : Instr) (s t : State) (x : SReg), exec i s = .next t → loadsSreg i ≠ some x → t.sreg x = s.sreg x

/-- `CPL` is constant over a run, and so are the parameters, which no instruction of the table writes
(log 7, the model's choice). -/
def Obligations.StepKeepsCplAndParameters : Prop :=
  ∀ s t : State, step s = .next t → KeepsMode s t

/-- Code at a level other than 0 cannot change `GDTR`, `IDTR`, `LDTR` or `TR`. -/
def Obligations.UserStepKeepsTableRegisters : Prop :=
  ∀ s t : State, s.cpl ≠ 0 → step s = .next t → KeepsTables s t

/-- Every step keeps what the spec asks of the segment registers, `CPL` and `LDTR`: clauses (b) to (d) of
the initial state's invariants. -/
def Obligations.StepKeepsSegmentLegality : Prop :=
  ∀ s t : State, SegLegal s → step s = .next t → SegLegal t

/-- Every step keeps clause (a): a register holds no descriptor exactly when its selector is null. -/
def Obligations.StepKeepsNullAgreement : Prop :=
  ∀ s t : State, NullAgree s → step s = .next t → NullAgree t

/-- Every step keeps the registers within the privilege of the running code. -/
def Obligations.StepKeepsPrivilege : Prop :=
  ∀ s t : State, PrivLegal s → step s = .next t → PrivLegal t

/-- Every step keeps memory canonical and inside the physical space. -/
def Obligations.StepKeepsMemoryForm : Prop :=
  ∀ s t : State, MemLegal s → step s = .next t → MemLegal t

/-- After reset the first fetch is at physical FFFFFFF0H and `DS.base` is 0 (70_reset_and_hazards.md
R260). -/
def Obligations.ResetFacts : Prop :=
  State.reset.segAccess .cs (State.reset.fetchOffset 0) 1 .fetch = .ok 0xFFFFFFF0 ∧
  State.reset.phys .fetch .read 0xFFFFFFF0 = .ok 0xFFFFFFF0 ∧ State.reset.seg.ds.d.base = 0

/-- The model's reset state (log 2 to log 4, the model's choice) satisfies the three invariants. -/
def Obligations.ResetIsLegal : Prop :=
  SegLegal State.reset ∧ PrivLegal State.reset ∧ MemLegal State.reset
end

