-- ==== Sys2Proof/Laws/Decode.lean ====
section
/-! SUPPORT. The decoder's fields read what the encoder writes: numbers of registers and prefixes, the
fields of ModRM and SIB bytes, and immediates of two and four bytes (30_encoding.md R130 to R134). -/

namespace Sys2Proof

@[simp] theorem Reg.ofBits_toBits (r : Reg) : Reg.ofBits r.toBits = r := by cases r <;> decide

@[simp] theorem SReg.ofBits_toBits (x : SReg) : SReg.ofBits x.toBits = some x := by cases x <;> decide

@[simp] theorem Base16.ofBits_toBits (b : Base16) : Base16.ofBits b.toBits = b := by cases b <;> decide

@[simp] theorem Pfx.ofByte_toByte (p : Pfx) : Pfx.ofByte p.toByte = some p := by
  cases p with
  | opSize => decide
  | addrSize => decide
  | seg x => cases x <;> decide

/-- An index that is not `ESP` is read back. -/
theorem indexOfBits_toBits (i : Option Reg) (h : Mem.indexWf i = true) : indexOfBits (indexToBits i) = i := by
  cases i with
  | none => decide
  | some r => cases r <;> first | decide | (revert h; decide)

@[simp] theorem topField_packByte (hi : BitVec 2) (mid lo : BitVec 3) : topField (packByte hi mid lo) = hi := by
  revert hi mid lo; decide

@[simp] theorem field3_packByte_mid (hi : BitVec 2) (mid lo : BitVec 3) : field3 3 (packByte hi mid lo) = mid := by
  revert hi mid lo; decide

@[simp] theorem field3_packByte_lo (hi : BitVec 2) (mid lo : BitVec 3) : field3 0 (packByte hi mid lo) = lo := by
  revert hi mid lo; decide

/-- Two bytes are read back as the value they encode. -/
theorem bytes16_join (v : BitVec 16) : v.extractLsb' 8 8 ++ v.extractLsb' 0 8 = v := by
  apply BitVec.eq_of_getLsbD_eq
  intro i hi
  simp only [BitVec.getLsbD_append, BitVec.getLsbD_extractLsb']
  by_cases h : i < 8
  · simp [h]
  · simp only [h, if_false]
    rw [show 8 + (i - 8) = i by omega]
    simp [show i - 8 < 8 by omega]

/-- Four bytes are read back as the value they encode. -/
theorem bytes32_join (v : BitVec 32) :
    v.extractLsb' 24 8 ++ v.extractLsb' 16 8 ++ v.extractLsb' 8 8 ++ v.extractLsb' 0 8 = v := by
  apply BitVec.eq_of_getLsbD_eq
  intro i hi
  simp only [BitVec.getLsbD_append, BitVec.getLsbD_extractLsb']
  by_cases h1 : i < 8
  · simp [h1]
  · by_cases h2 : i - 8 < 8
    · simp only [h1, h2, if_true, if_false]
      rw [show 8 + (i - 8) = i by omega]; simp
    · by_cases h3 : i - 8 - 8 < 8
      · simp only [h1, h2, h3, if_true, if_false]
        rw [show 16 + (i - 8 - 8) = i by omega]; simp
      · simp only [h1, h2, h3, if_false]
        rw [show 24 + (i - 8 - 8 - 8) = i by omega]
        simp [show i - 8 - 8 - 8 < 8 by omega]

/-- An immediate of two bytes is read back. -/
@[simp] theorem Dec.run_imm16 (k : BitVec 16 → Dec) (v : BitVec 16) (rest : List Byte) :
    (Dec.imm16 k).run (bytes16 v ++ rest) = (k v).run rest := by
  simp only [Dec.imm16, bytes16, List.cons_append, List.nil_append, Dec.run, bytes16_join]

/-- An immediate of four bytes is read back. -/
@[simp] theorem Dec.run_imm32 (k : BitVec 32 → Dec) (v : BitVec 32) (rest : List Byte) :
    (Dec.imm32 k).run (bytes32 v ++ rest) = (k v).run rest := by
  simp only [Dec.imm32, bytes32, List.cons_append, List.nil_append, Dec.run, bytes32_join]

/-! ### What each opcode byte selects (R135) -/

theorem Dec.opcode_8C (z : Size) (h : Head) : Dec.opcode z h 0x8C = .movRmSreg z h := by simp [Dec.opcode]

theorem Dec.opcode_8E (z : Size) (h : Head) : Dec.opcode z h 0x8E = .movSregRm z h := by simp [Dec.opcode]

theorem Dec.opcode_C4 (z : Size) (h : Head) : Dec.opcode z h 0xC4 = .farLoad z (.les h) := by simp [Dec.opcode]

theorem Dec.opcode_C5 (z : Size) (h : Head) : Dec.opcode z h 0xC5 = .farLoad z (.lds h) := by simp [Dec.opcode]

theorem Dec.opcode_FF (z : Size) (h : Head) : Dec.opcode z h 0xFF = .groupFF z h := by simp [Dec.opcode]

theorem Dec.opcode_0F (z : Size) (h : Head) : Dec.opcode z h 0x0F = .need fun c => .opcode0F z h c := by
  simp [Dec.opcode]

theorem Dec.opcode0F_00 (z : Size) (h : Head) : Dec.opcode0F z h 0x00 = .group0F00 z h := by simp [Dec.opcode0F]

theorem Dec.opcode0F_01 (z : Size) (h : Head) : Dec.opcode0F z h 0x01 = .group0F01 z h := by simp [Dec.opcode0F]

theorem Dec.opcode0F_B2 (z : Size) (h : Head) : Dec.opcode0F z h 0xB2 = .farLoad z (.lss h) := by
  simp [Dec.opcode0F]

theorem Dec.opcode0F_B4 (z : Size) (h : Head) : Dec.opcode0F z h 0xB4 = .farLoad z (.lfs h) := by
  simp [Dec.opcode0F]

theorem Dec.opcode0F_B5 (z : Size) (h : Head) : Dec.opcode0F z h 0xB5 = .farLoad z (.lgs h) := by
  simp [Dec.opcode0F]

@[simp] theorem bytes16_length (v : BitVec 16) : (bytes16 v).length = 2 := rfl

@[simp] theorem bytes32_length (v : BitVec 32) : (bytes32 v).length = 4 := rfl

end Sys2Proof
end

