-- ==== Sys2Proof/Laws/State.lean ====
section
/-! SUPPORT. One lemma per field per update of State, true by unfolding the update once, so that no later
proof unfolds a record update. -/

namespace Sys2Proof.Machine

/-! ### Register files -/

@[simp] theorem Regs.get_set_self (r : Regs) (x : Reg) (v : Word) : (r.set x v).get x = v := by
  cases x <;> rfl

theorem Regs.get_set_ne (r : Regs) (x y : Reg) (v : Word) (h : y ≠ x) : (r.set x v).get y = r.get y := by
  cases x <;> cases y <;> first | rfl | exact absurd rfl h

@[simp] theorem SegRegs.get_set_self (r : SegRegs) (x : SReg) (v : SegReg) : (r.set x v).get x = v := by
  cases x <;> rfl

theorem SegRegs.get_set_ne (r : SegRegs) (x y : SReg) (v : SegReg) (h : y ≠ x) :
    (r.set x v).get y = r.get y := by
  cases x <;> cases y <;> first | rfl | exact absurd rfl h

/-! ### `setReg` -/

section
variable (s : State) (r : Reg) (v : Word)
@[simp] theorem State.setReg_regs : (s.setReg r v).regs = s.regs.set r v := rfl
@[simp] theorem State.setReg_pc : (s.setReg r v).pc = s.pc := rfl
@[simp] theorem State.setReg_seg : (s.setReg r v).seg = s.seg := rfl
@[simp] theorem State.setReg_gdtr : (s.setReg r v).gdtr = s.gdtr := rfl
@[simp] theorem State.setReg_idtr : (s.setReg r v).idtr = s.idtr := rfl
@[simp] theorem State.setReg_ldtr : (s.setReg r v).ldtr = s.ldtr := rfl
@[simp] theorem State.setReg_tr : (s.setReg r v).tr = s.tr := rfl
@[simp] theorem State.setReg_cpl : (s.setReg r v).cpl = s.cpl := rfl
@[simp] theorem State.setReg_mem : (s.setReg r v).mem = s.mem := rfl
@[simp] theorem State.setReg_par : (s.setReg r v).par = s.par := rfl
@[simp] theorem State.setReg_free : (s.setReg r v).free = s.free := rfl
@[simp] theorem State.setReg_hung : (s.setReg r v).hung = s.hung := rfl
end

/-! ### `setRegSize` and `setSp` -/

/-- A write at an operand size is a write of the whole register. -/
theorem State.setRegSize_eq (s : State) (z : Size) (r : Reg) (v : Word) :
    s.setRegSize z r v =
      s.setReg r (match z with | .s32 => v | .s16 => (s.reg r).extractLsb' 16 16 ++ v.setWidth 16) := by
  cases z <;> rfl

section
variable (s : State) (z : Size) (r : Reg) (v : Word)
@[simp] theorem State.setRegSize_pc : (s.setRegSize z r v).pc = s.pc := by cases z <;> rfl
@[simp] theorem State.setRegSize_seg : (s.setRegSize z r v).seg = s.seg := by cases z <;> rfl
@[simp] theorem State.setRegSize_gdtr : (s.setRegSize z r v).gdtr = s.gdtr := by cases z <;> rfl
@[simp] theorem State.setRegSize_idtr : (s.setRegSize z r v).idtr = s.idtr := by cases z <;> rfl
@[simp] theorem State.setRegSize_ldtr : (s.setRegSize z r v).ldtr = s.ldtr := by cases z <;> rfl
@[simp] theorem State.setRegSize_tr : (s.setRegSize z r v).tr = s.tr := by cases z <;> rfl
@[simp] theorem State.setRegSize_cpl : (s.setRegSize z r v).cpl = s.cpl := by cases z <;> rfl
@[simp] theorem State.setRegSize_mem : (s.setRegSize z r v).mem = s.mem := by cases z <;> rfl
@[simp] theorem State.setRegSize_par : (s.setRegSize z r v).par = s.par := by cases z <;> rfl
@[simp] theorem State.setRegSize_free : (s.setRegSize z r v).free = s.free := by cases z <;> rfl
@[simp] theorem State.setRegSize_hung : (s.setRegSize z r v).hung = s.hung := by cases z <;> rfl

theorem State.setRegSize_reg_ne (x : Reg) (h : x ≠ r) : (s.setRegSize z r v).reg x = s.reg x := by
  cases z <;> exact Regs.get_set_ne _ _ _ _ h
end

section
variable (s : State) (z : Size) (n : Nat)
@[simp] theorem State.setSp_pc : (s.setSp z n).pc = s.pc := by simp [State.setSp]
@[simp] theorem State.setSp_seg : (s.setSp z n).seg = s.seg := by simp [State.setSp]
@[simp] theorem State.setSp_gdtr : (s.setSp z n).gdtr = s.gdtr := by simp [State.setSp]
@[simp] theorem State.setSp_idtr : (s.setSp z n).idtr = s.idtr := by simp [State.setSp]
@[simp] theorem State.setSp_ldtr : (s.setSp z n).ldtr = s.ldtr := by simp [State.setSp]
@[simp] theorem State.setSp_tr : (s.setSp z n).tr = s.tr := by simp [State.setSp]
@[simp] theorem State.setSp_cpl : (s.setSp z n).cpl = s.cpl := by simp [State.setSp]
@[simp] theorem State.setSp_mem : (s.setSp z n).mem = s.mem := by simp [State.setSp]
@[simp] theorem State.setSp_par : (s.setSp z n).par = s.par := by simp [State.setSp]
@[simp] theorem State.setSp_free : (s.setSp z n).free = s.free := by simp [State.setSp]
@[simp] theorem State.setSp_hung : (s.setSp z n).hung = s.hung := by simp [State.setSp]

theorem State.setSp_reg_ne (x : Reg) (h : x ≠ .esp) : (s.setSp z n).reg x = s.reg x :=
  State.setRegSize_reg_ne s z .esp _ x h
end

/-! ### `setSreg` -/

section
variable (s : State) (x : SReg) (v : SegReg)
@[simp] theorem State.setSreg_regs : (s.setSreg x v).regs = s.regs := rfl
@[simp] theorem State.setSreg_pc : (s.setSreg x v).pc = s.pc := rfl
@[simp] theorem State.setSreg_seg : (s.setSreg x v).seg = s.seg.set x v := rfl
@[simp] theorem State.setSreg_gdtr : (s.setSreg x v).gdtr = s.gdtr := rfl
@[simp] theorem State.setSreg_idtr : (s.setSreg x v).idtr = s.idtr := rfl
@[simp] theorem State.setSreg_ldtr : (s.setSreg x v).ldtr = s.ldtr := rfl
@[simp] theorem State.setSreg_tr : (s.setSreg x v).tr = s.tr := rfl
@[simp] theorem State.setSreg_cpl : (s.setSreg x v).cpl = s.cpl := rfl
@[simp] theorem State.setSreg_mem : (s.setSreg x v).mem = s.mem := rfl
@[simp] theorem State.setSreg_par : (s.setSreg x v).par = s.par := rfl
@[simp] theorem State.setSreg_free : (s.setSreg x v).free = s.free := rfl
@[simp] theorem State.setSreg_hung : (s.setSreg x v).hung = s.hung := rfl

@[simp] theorem State.sreg_setSreg_self : (s.setSreg x v).sreg x = v := SegRegs.get_set_self _ _ _

theorem State.sreg_setSreg_ne (y : SReg) (h : y ≠ x) : (s.setSreg x v).sreg y = s.sreg y :=
  SegRegs.get_set_ne _ _ _ _ h
end

/-! ### `advance` -/

section
variable (s : State) (n : Nat)
@[simp] theorem State.advance_regs : (s.advance n).regs = s.regs := rfl
@[simp] theorem State.advance_pc : (s.advance n).pc = s.pcPlus n := rfl
@[simp] theorem State.advance_seg : (s.advance n).seg = s.seg := rfl
@[simp] theorem State.advance_gdtr : (s.advance n).gdtr = s.gdtr := rfl
@[simp] theorem State.advance_idtr : (s.advance n).idtr = s.idtr := rfl
@[simp] theorem State.advance_ldtr : (s.advance n).ldtr = s.ldtr := rfl
@[simp] theorem State.advance_tr : (s.advance n).tr = s.tr := rfl
@[simp] theorem State.advance_cpl : (s.advance n).cpl = s.cpl := rfl
@[simp] theorem State.advance_mem : (s.advance n).mem = s.mem := rfl
@[simp] theorem State.advance_par : (s.advance n).par = s.par := rfl
@[simp] theorem State.advance_free : (s.advance n).free = s.free := rfl
@[simp] theorem State.advance_hung : (s.advance n).hung = s.hung := rfl
end

/-! ### `storeByte`, `store`, `setAccessed`: only memory changes -/

/-- A store of one byte changes only memory. -/
theorem State.storeByte_eq (s : State) (pa : Nat) (v : Byte) :
    s.storeByte pa v = { s with mem := (s.storeByte pa v).mem } := by
  unfold State.storeByte; split <;> rfl

/-- A store changes only memory. -/
theorem State.store_eq (s : State) (pas : List Nat) (v : Nat) :
    s.store pas v = { s with mem := (s.store pas v).mem } := by
  induction pas generalizing s v with
  | nil => rfl
  | cons pa pas ih =>
    simp only [State.store]
    rw [ih, State.storeByte_eq]

/-- Setting the accessed bit changes only memory. -/
theorem State.setAccessed_eq (s : State) (a : Option Nat) :
    s.setAccessed a = { s with mem := (s.setAccessed a).mem } := by cases a <;> rfl

section
variable (s : State) (pa : Nat) (v : Byte)
@[simp] theorem State.storeByte_regs : (s.storeByte pa v).regs = s.regs := by rw [State.storeByte_eq]
@[simp] theorem State.storeByte_pc : (s.storeByte pa v).pc = s.pc := by rw [State.storeByte_eq]
@[simp] theorem State.storeByte_seg : (s.storeByte pa v).seg = s.seg := by rw [State.storeByte_eq]
@[simp] theorem State.storeByte_gdtr : (s.storeByte pa v).gdtr = s.gdtr := by rw [State.storeByte_eq]
@[simp] theorem State.storeByte_idtr : (s.storeByte pa v).idtr = s.idtr := by rw [State.storeByte_eq]
@[simp] theorem State.storeByte_ldtr : (s.storeByte pa v).ldtr = s.ldtr := by rw [State.storeByte_eq]
@[simp] theorem State.storeByte_tr : (s.storeByte pa v).tr = s.tr := by rw [State.storeByte_eq]
@[simp] theorem State.storeByte_cpl : (s.storeByte pa v).cpl = s.cpl := by rw [State.storeByte_eq]
@[simp] theorem State.storeByte_par : (s.storeByte pa v).par = s.par := by rw [State.storeByte_eq]
@[simp] theorem State.storeByte_free : (s.storeByte pa v).free = s.free := by rw [State.storeByte_eq]
@[simp] theorem State.storeByte_hung : (s.storeByte pa v).hung = s.hung := by rw [State.storeByte_eq]
end

section
variable (s : State) (pas : List Nat) (v : Nat)
@[simp] theorem State.store_regs : (s.store pas v).regs = s.regs := by rw [State.store_eq]
@[simp] theorem State.store_pc : (s.store pas v).pc = s.pc := by rw [State.store_eq]
@[simp] theorem State.store_seg : (s.store pas v).seg = s.seg := by rw [State.store_eq]
@[simp] theorem State.store_gdtr : (s.store pas v).gdtr = s.gdtr := by rw [State.store_eq]
@[simp] theorem State.store_idtr : (s.store pas v).idtr = s.idtr := by rw [State.store_eq]
@[simp] theorem State.store_ldtr : (s.store pas v).ldtr = s.ldtr := by rw [State.store_eq]
@[simp] theorem State.store_tr : (s.store pas v).tr = s.tr := by rw [State.store_eq]
@[simp] theorem State.store_cpl : (s.store pas v).cpl = s.cpl := by rw [State.store_eq]
@[simp] theorem State.store_par : (s.store pas v).par = s.par := by rw [State.store_eq]
@[simp] theorem State.store_free : (s.store pas v).free = s.free := by rw [State.store_eq]
@[simp] theorem State.store_hung : (s.store pas v).hung = s.hung := by rw [State.store_eq]
end

section
variable (s : State) (a : Option Nat)
@[simp] theorem State.setAccessed_regs : (s.setAccessed a).regs = s.regs := by cases a <;> rfl
@[simp] theorem State.setAccessed_pc : (s.setAccessed a).pc = s.pc := by cases a <;> rfl
@[simp] theorem State.setAccessed_seg : (s.setAccessed a).seg = s.seg := by cases a <;> rfl
@[simp] theorem State.setAccessed_gdtr : (s.setAccessed a).gdtr = s.gdtr := by cases a <;> rfl
@[simp] theorem State.setAccessed_idtr : (s.setAccessed a).idtr = s.idtr := by cases a <;> rfl
@[simp] theorem State.setAccessed_ldtr : (s.setAccessed a).ldtr = s.ldtr := by cases a <;> rfl
@[simp] theorem State.setAccessed_tr : (s.setAccessed a).tr = s.tr := by cases a <;> rfl
@[simp] theorem State.setAccessed_cpl : (s.setAccessed a).cpl = s.cpl := by cases a <;> rfl
@[simp] theorem State.setAccessed_par : (s.setAccessed a).par = s.par := by cases a <;> rfl
@[simp] theorem State.setAccessed_free : (s.setAccessed a).free = s.free := by cases a <;> rfl
@[simp] theorem State.setAccessed_hung : (s.setAccessed a).hung = s.hung := by cases a <;> rfl
end

/-! ### `enterCommit` -/

section
variable (s : State) (a : Option Nat) (cs : SegReg) (off : Word)
@[simp] theorem State.enterCommit_regs : (s.enterCommit a cs off).regs = s.regs := by simp [State.enterCommit]
@[simp] theorem State.enterCommit_pc : (s.enterCommit a cs off).pc = off := rfl
@[simp] theorem State.enterCommit_seg : (s.enterCommit a cs off).seg = { s.seg with cs := cs } := by
  simp [State.enterCommit, SegRegs.set]
@[simp] theorem State.enterCommit_gdtr : (s.enterCommit a cs off).gdtr = s.gdtr := by simp [State.enterCommit]
@[simp] theorem State.enterCommit_idtr : (s.enterCommit a cs off).idtr = s.idtr := by simp [State.enterCommit]
@[simp] theorem State.enterCommit_ldtr : (s.enterCommit a cs off).ldtr = s.ldtr := by simp [State.enterCommit]
@[simp] theorem State.enterCommit_tr : (s.enterCommit a cs off).tr = s.tr := by simp [State.enterCommit]
@[simp] theorem State.enterCommit_cpl : (s.enterCommit a cs off).cpl = s.cpl := by simp [State.enterCommit]
@[simp] theorem State.enterCommit_mem : (s.enterCommit a cs off).mem = (s.setAccessed a).mem := rfl
@[simp] theorem State.enterCommit_par : (s.enterCommit a cs off).par = s.par := by simp [State.enterCommit]
@[simp] theorem State.enterCommit_free : (s.enterCommit a cs off).free = s.free := by simp [State.enterCommit]
@[simp] theorem State.enterCommit_hung : (s.enterCommit a cs off).hung = s.hung := by simp [State.enterCommit]

theorem State.enterCommit_sreg_ne (x : SReg) (h : x ≠ .cs) : (s.enterCommit a cs off).sreg x = s.sreg x := by
  cases x <;> first | (simp [State.sreg, SegRegs.get]; done) | exact absurd rfl h
end

/-! ### What depends only on the parameters -/

theorem State.kindAt_congr (s t : State) (h : t.par = s.par) (a : Nat) : t.kindAt a = s.kindAt a := by
  simp [State.kindAt, h]

end Sys2Proof.Machine
end

