-- ==== Sys2Proof/Laws/Memory.lean ====
section
/-! SUPPORT. The laws of memory: a read after a write, every other byte left alone, the canonical form
kept, and which addresses a store can change. -/

namespace Sys2Proof.Machine

@[simp] theorem Memory.read_nil (a : Nat) : Memory.read [] a = unlistedByte := rfl

theorem Memory.read_cons (b : Nat) (v : Byte) (m : Memory) (a : Nat) :
    Memory.read ((b, v) :: m) a = if a = b then v else Memory.read m a := rfl

/-- An address that is not listed reads as `unlistedByte`. -/
theorem Memory.read_of_not_listed (m : Memory) (a : Nat) (h : ∀ c ∈ m, c.1 ≠ a) :
    Memory.read m a = unlistedByte := by
  induction m with
  | nil => rfl
  | cons c m ih =>
    obtain ⟨b, v⟩ := c
    rw [Memory.read_cons, if_neg (fun e => h (b, v) (by simp) e.symm)]
    exact ih fun c hc => h c (by simp [hc])

theorem Memory.read_filter_self (m : Memory) (a : Nat) :
    Memory.read (m.filter fun c => c.1 != a) a = unlistedByte :=
  Memory.read_of_not_listed _ _ fun c hc => by simpa using (List.mem_filter.mp hc).2

theorem Memory.read_filter_ne (m : Memory) (a x : Nat) (h : x ≠ a) :
    Memory.read (m.filter fun c => c.1 != a) x = Memory.read m x := by
  induction m with
  | nil => rfl
  | cons c m ih =>
    obtain ⟨b, v⟩ := c
    by_cases hb : b = a
    · subst hb
      simp only [List.filter_cons, bne_self_eq_false, Bool.false_eq_true, if_false, ih,
        Memory.read_cons, if_neg h]
    · have hb' : (b != a) = true := by simpa using hb
      simp only [List.filter_cons, hb', if_true, Memory.read_cons, ih]

theorem Memory.read_insert_self (m : Memory) (a : Nat) (v : Byte) (h : ∀ c ∈ m, c.1 ≠ a) :
    Memory.read (Memory.insert a v m) a = v := by
  induction m with
  | nil => simp [Memory.insert, Memory.read_cons]
  | cons c m ih =>
    obtain ⟨b, w⟩ := c
    have hb : a ≠ b := fun e => h (b, w) (by simp) e.symm
    simp only [Memory.insert]
    split
    · simp [Memory.read_cons]
    · rw [Memory.read_cons, if_neg hb]
      exact ih fun c hc => h c (by simp [hc])

theorem Memory.read_insert_ne (m : Memory) (a x : Nat) (v : Byte) (h : x ≠ a) :
    Memory.read (Memory.insert a v m) x = Memory.read m x := by
  induction m with
  | nil => simp [Memory.insert, Memory.read_cons, h]
  | cons c m ih =>
    obtain ⟨b, w⟩ := c
    simp only [Memory.insert]
    split
    · rw [Memory.read_cons, if_neg h]
    · rw [Memory.read_cons, Memory.read_cons, ih]

/-- A read after a write to the same address gives the value written. -/
@[simp] theorem Memory.read_write_self (m : Memory) (a : Nat) (v : Byte) :
    Memory.read (Memory.write m a v) a = v := by
  simp only [Memory.write]
  split
  · next h => rw [Memory.read_filter_self, h]
  · exact Memory.read_insert_self _ _ _ fun c hc => by simpa using (List.mem_filter.mp hc).2

/-- A write leaves every other address alone. -/
theorem Memory.read_write_ne (m : Memory) (a x : Nat) (v : Byte) (h : x ≠ a) :
    Memory.read (Memory.write m a v) x = Memory.read m x := by
  simp only [Memory.write]
  split
  · exact Memory.read_filter_ne m a x h
  · rw [Memory.read_insert_ne _ _ _ _ h, Memory.read_filter_ne m a x h]

theorem Memory.read_write (m : Memory) (a x : Nat) (v : Byte) :
    Memory.read (Memory.write m a v) x = if x = a then v else Memory.read m x := by
  split
  · next h => rw [h, Memory.read_write_self]
  · next h => exact Memory.read_write_ne m a x v h

/-! ### The canonical form -/

theorem Memory.mem_insert (m : Memory) (a : Nat) (v : Byte) (c : Host.Cell) :
    c ∈ Memory.insert a v m ↔ c = (a, v) ∨ c ∈ m := by
  induction m with
  | nil => simp [Memory.insert]
  | cons d m ih =>
    obtain ⟨b, w⟩ := d
    simp only [Memory.insert]
    split
    · simp
    · simp only [List.mem_cons, ih]; tauto

theorem Memory.pairwise_insert (m : Memory) (a : Nat) (v : Byte)
    (h : m.Pairwise fun c d => c.1 < d.1) (ha : ∀ c ∈ m, c.1 ≠ a) :
    (Memory.insert a v m).Pairwise fun c d => c.1 < d.1 := by
  induction m with
  | nil => simp [Memory.insert]
  | cons d m ih =>
    obtain ⟨b, w⟩ := d
    have hp := List.pairwise_cons.mp h
    simp only [Memory.insert]
    split
    · next hab =>
      refine List.pairwise_cons.mpr ⟨fun c hc => ?_, h⟩
      rcases List.mem_cons.mp hc with rfl | hc
      · exact hab
      · exact Nat.lt_trans hab (hp.1 c hc)
    · next hab =>
      have hb : b ≠ a := ha (b, w) (by simp)
      refine List.pairwise_cons.mpr ⟨fun c hc => ?_, ih hp.2 fun c hc => ha c (by simp [hc])⟩
      rcases (Memory.mem_insert m a v c).mp hc with rfl | hc
      · show b < a; omega
      · exact hp.1 c hc

/-- A write keeps the canonical form. -/
theorem Memory.write_wf (m : Memory) (a : Nat) (v : Byte) (h : Memory.wf m) : Memory.wf (Memory.write m a v) := by
  obtain ⟨hp, hv⟩ := h
  have hfp := hp.filter (fun c => c.1 != a)
  have hfv : ∀ c ∈ m.filter (fun c => c.1 != a), c.2 ≠ unlistedByte :=
    fun c hc => hv c (List.mem_of_mem_filter hc)
  simp only [Memory.write]
  split
  · exact ⟨hfp, hfv⟩
  · next hne =>
    refine ⟨Memory.pairwise_insert _ _ _ hfp fun c hc => by simpa using (List.mem_filter.mp hc).2, ?_⟩
    intro c hc
    rcases (Memory.mem_insert _ a v c).mp hc with rfl | hc
    · exact hne
    · exact hfv c hc

/-- A write lists no address but those listed before and its own. -/
theorem Memory.write_listed (m : Memory) (a : Nat) (v : Byte) (c : Host.Cell) (hc : c ∈ Memory.write m a v) :
    c.1 = a ∨ c ∈ m := by
  simp only [Memory.write] at hc
  split at hc
  · exact .inr (List.mem_of_mem_filter hc)
  · rcases (Memory.mem_insert _ a v c).mp hc with rfl | hc
    · exact .inl rfl
    · exact .inr (List.mem_of_mem_filter hc)

/-! ### Stores of the machine -/

/-- A byte store leaves every other address alone. -/
theorem State.storeByte_read_ne (s : State) (pa a : Nat) (v : Byte) (h : a ≠ pa) :
    Memory.read (s.storeByte pa v).mem a = Memory.read s.mem a := by
  unfold State.storeByte
  split <;> first | exact Memory.read_write_ne _ _ _ _ h | rfl

/-- A byte store to RAM is a write. -/
theorem State.storeByte_ram (s : State) (pa : Nat) (v : Byte) (h : s.kindAt pa = .ram) :
    (s.storeByte pa v).mem = Memory.write s.mem pa v := by simp [State.storeByte, h]

/-- A byte store outside RAM changes nothing. -/
theorem State.storeByte_not_ram (s : State) (pa : Nat) (v : Byte) (h : s.kindAt pa ≠ .ram) :
    s.storeByte pa v = s := by
  unfold State.storeByte
  split
  · next hr => exact absurd hr h
  all_goals rfl

/-- A store leaves every address outside its list alone. -/
theorem State.store_read_not_mem (s : State) (pas : List Nat) (v a : Nat) (h : a ∉ pas) :
    Memory.read (s.store pas v).mem a = Memory.read s.mem a := by
  induction pas generalizing s v with
  | nil => rfl
  | cons pa pas ih =>
    have hp : a ≠ pa ∧ a ∉ pas := by simpa using h
    rw [State.store, ih _ _ hp.2, State.storeByte_read_ne _ _ _ _ hp.1]

/-- A store leaves every address that is not RAM alone. -/
theorem State.store_read_not_ram (s : State) (pas : List Nat) (v a : Nat) (h : s.kindAt a ≠ .ram) :
    Memory.read (s.store pas v).mem a = Memory.read s.mem a := by
  induction pas generalizing s v with
  | nil => rfl
  | cons pa pas ih =>
    have hk : (s.storeByte pa (BitVec.ofNat 8 v)).kindAt a ≠ .ram := by
      rw [State.kindAt_congr s _ (by simp)]; exact h
    rw [State.store, ih _ _ hk]
    by_cases hp : a = pa
    · subst hp; rw [State.storeByte_not_ram _ _ _ h]
    · exact State.storeByte_read_ne _ _ _ _ hp

/-- A byte store keeps the canonical form. -/
theorem State.storeByte_wf (s : State) (pa : Nat) (v : Byte) (h : Memory.wf s.mem) :
    Memory.wf (s.storeByte pa v).mem := by
  unfold State.storeByte
  split <;> first | exact Memory.write_wf _ _ _ h | exact h

/-- A store keeps the canonical form. -/
theorem State.store_wf (s : State) (pas : List Nat) (v : Nat) (h : Memory.wf s.mem) :
    Memory.wf (s.store pas v).mem := by
  induction pas generalizing s v with
  | nil => exact h
  | cons pa pas ih => exact ih _ _ (State.storeByte_wf s pa _ h)

/-- A store lists no address but those listed before and its own. -/
theorem State.store_listed (s : State) (pas : List Nat) (v : Nat) (c : Host.Cell)
    (hc : c ∈ (s.store pas v).mem) : c.1 ∈ pas ∨ c ∈ s.mem := by
  induction pas generalizing s v with
  | nil => exact .inr hc
  | cons pa pas ih =>
    rcases ih _ _ hc with h | h
    · exact .inl (by simp [h])
    · by_cases hr : s.kindAt pa = .ram
      · rw [State.storeByte_ram _ _ _ hr] at h
        rcases Memory.write_listed _ _ _ _ h with h | h
        · exact .inl (by simp [h])
        · exact .inr h
      · rw [State.storeByte_not_ram _ _ _ hr] at h
        exact .inr h

/-- Setting the accessed bit keeps the canonical form. -/
theorem State.setAccessed_wf (s : State) (a : Option Nat) (h : Memory.wf s.mem) :
    Memory.wf (s.setAccessed a).mem := by
  cases a with
  | none => exact h
  | some pa => exact Memory.write_wf _ _ _ h

/-- Setting the accessed bit leaves every other address alone. -/
theorem State.setAccessed_read_ne (s : State) (a : Option Nat) (x : Nat) (h : a ≠ some x) :
    Memory.read (s.setAccessed a).mem x = Memory.read s.mem x := by
  cases a with
  | none => rfl
  | some pa => exact Memory.read_write_ne _ _ _ _ fun e => h (by rw [e])

/-- Setting the accessed bit lists no address but those listed before and its own. -/
theorem State.setAccessed_listed (s : State) (a : Option Nat) (c : Host.Cell)
    (hc : c ∈ (s.setAccessed a).mem) : a = some c.1 ∨ c ∈ s.mem := by
  cases a with
  | none => exact .inr hc
  | some pa =>
    rcases Memory.write_listed _ _ _ _ hc with h | h
    · exact .inl (by rw [h])
    · exact .inr h

end Sys2Proof.Machine
end

