-- ==== Sys2Proof/Laws/Ops.lean ====
section
/-! SUPPORT. One lemma per shared operation that says what it can do: if it answers, then one of these
cases holds. Later proofs cite these and do not unfold the operations. -/

namespace Sys2Proof.Machine

/-! ### Results -/

/-- A sequence answers exactly when both its parts do. -/
theorem bind_ok {α β : Type} {x : Res α} {f : α → Res β} {b : β} :
    (x >>= f) = .ok b ↔ ∃ a, x = .ok a ∧ f a = .ok b := by
  cases x with
  | error e =>
    constructor
    · intro h; cases h
    · rintro ⟨_, h, _⟩; cases h
  | ok a =>
    constructor
    · intro h; exact ⟨a, rfl, h⟩
    · rintro ⟨_, h, hf⟩; cases h; exact hf

@[simp] theorem ok_bind {α β : Type} (a : α) (f : α → Res β) : ((.ok a : Res α) >>= f) = f a := rfl

@[simp] theorem error_bind {α β : Type} (e : Stop) (f : α → Res β) : ((.error e : Res α) >>= f) = .error e := rfl

@[simp] theorem need_true (e : Stop) : need true e = .ok () := rfl

@[simp] theorem need_false (e : Stop) : need false e = .error e := rfl

/-- A check answers exactly when its condition holds. -/
theorem need_ok {b : Bool} {e : Stop} {u : Unit} : need b e = .ok u ↔ b = true := by
  cases b <;> simp [need]

/-- An instruction answers a next state exactly when its operation answers, or hangs. -/
theorem conclude_next {s t : State} {r : Res State} :
    conclude s r = .next t ↔
      (∃ u, r = .ok u ∧ t = { u with free := u.free + 1 }) ∨ (r = .error .hang ∧ t = { s with hung := true }) := by
  cases r with
  | ok u =>
    constructor
    · intro h; cases h; exact .inl ⟨u, rfl, rfl⟩
    · rintro (⟨v, h, rfl⟩ | ⟨h, _⟩)
      · cases h; rfl
      · cases h
  | error e =>
    cases e with
    | hang =>
      constructor
      · intro h; cases h; exact .inr ⟨rfl, rfl⟩
      · rintro (⟨v, h, _⟩ | ⟨_, rfl⟩)
        · cases h
        · rfl
    | fault f => simp [conclude]
    | refuse r => simp [conclude]

@[simp] theorem conclude_ok (s t : State) : conclude s (.ok t) = .next { t with free := t.free + 1 } := rfl

@[simp] theorem conclude_fault (s : State) (f : Fault) : conclude s (.error (.fault f)) = .fault f := rfl

@[simp] theorem conclude_refuse (s : State) (r : Refusal) : conclude s (.error (.refuse r)) = .refused r := rfl

@[simp] theorem conclude_hang (s : State) : conclude s (.error .hang) = .next { s with hung := true } := rfl

/-! ### Translation -/

/-- A translated address is one of the physical space. -/
theorem State.phys_lt {s : State} {k : Access} {rw : Dir} {la : Word} {pa : Nat}
    (h : s.phys k rw la = .ok pa) : pa < physSpace s.par.physBits := by
  unfold State.phys at h
  split at h
  · split at h
    · cases h; exact Nat.mod_lt _ (by cases s.par.physBits <;> simp [physSpace])
    · cases h
  · cases h
    have := la.isLt
    cases s.par.physBits <;> simp only [physSpace] <;> omega

/-- Without paging the physical address is the linear one. -/
theorem State.phys_flat {s : State} (h : s.par.paging = false) (k : Access) (rw : Dir) (la : Word) :
    s.phys k rw la = .ok la.toNat := by simp [State.phys, h]

/-- Every translated address is one of the physical space. -/
theorem State.translate_lt {s : State} {k : Access} {rw : Dir} {la : Word} {n : Nat} {pas : List Nat}
    (h : s.translate k rw la n = .ok pas) : ∀ a ∈ pas, a < physSpace s.par.physBits := by
  induction n generalizing la pas with
  | zero => cases h; simp
  | succ n ih =>
    simp only [State.translate] at h
    obtain ⟨pa, hp, h⟩ := bind_ok.mp h
    obtain ⟨ps, hps, h⟩ := bind_ok.mp h
    cases h
    intro a ha
    rcases List.mem_cons.mp ha with rfl | ha
    · exact State.phys_lt hp
    · exact ih hps a ha

/-- Without paging an access of `n` bytes goes to the `n` linear addresses themselves. -/
theorem State.translate_flat {s : State} (h : s.par.paging = false) (k : Access) (rw : Dir) (la : Word)
    (n : Nat) : s.translate k rw la n = .ok ((List.range n).map fun i => (la + BitVec.ofNat 32 i).toNat) := by
  induction n generalizing la with
  | zero => rfl
  | succ n ih =>
    simp only [State.translate, State.phys_flat h, ok_bind, ih, List.range_succ_eq_map, List.map_cons,
      List.map_map]
    congr 2
    · simp
    · apply List.map_congr_left
      intro i _
      simp only [Function.comp]
      congr 1
      apply BitVec.eq_of_toNat_eq
      simp [BitVec.toNat_add]
      omega

/-! ### Segments -/

/-- The segmentation checks answer exactly when all three pass. -/
theorem State.segCheck_ok {s : State} {x : SReg} {off n : Nat} {u : Use} {w : Unit} :
    s.segCheck x off n u = .ok w ↔
      (s.sreg x).valid = true ∧ typeAllows (s.sreg x).d u = true ∧ inLimit (s.sreg x).d off n = true := by
  unfold State.segCheck
  cases (s.sreg x).valid <;> cases typeAllows (s.sreg x).d u <;> cases inLimit (s.sreg x).d off n <;> simp

/-- `SegAccess` answers the linear address exactly when every check passes. -/
theorem State.segAccess_ok {s : State} {x : SReg} {off n : Nat} {u : Use} {la : Word} :
    s.segAccess x off n u = .ok la ↔
      s.segCheck x off n u = .ok () ∧ s.alignFault (s.linAddr x off) n = false ∧ la = s.linAddr x off := by
  unfold State.segAccess
  constructor
  · intro h
    obtain ⟨_, h1, h⟩ := bind_ok.mp h
    obtain ⟨_, h2, h⟩ := bind_ok.mp h
    cases h
    exact ⟨h1, by simpa using need_ok.mp h2, rfl⟩
  · rintro ⟨h1, h2, rfl⟩
    simp [h1, h2]

/-- The checks of a write answer the translation of an accessible range. -/
theorem State.segWriteTo_ok {s : State} {x : SReg} {off n : Nat} {pas : List Nat} :
    s.segWriteTo x off n = .ok pas ↔
      ∃ la, s.segAccess x off n .write = .ok la ∧ s.translate .data .write la n = .ok pas := bind_ok

theorem State.segWriteTo_lt {s : State} {x : SReg} {off n : Nat} {pas : List Nat}
    (h : s.segWriteTo x off n = .ok pas) : ∀ a ∈ pas, a < physSpace s.par.physBits := by
  obtain ⟨la, _, h⟩ := State.segWriteTo_ok.mp h
  exact State.translate_lt h

/-! ### Descriptors -/

/-- The accessed-bit plan: nothing when the bit is set, else the translated address of a RAM byte. -/
theorem State.accessedAt_ok {s : State} {la : Word} {d : Desc} {a : Option Nat} :
    s.accessedAt la d = .ok a ↔
      (d.accessed = true ∧ a = none) ∨
      (d.accessed = false ∧ ∃ pa, s.phys .table .write (la + 5) = .ok pa ∧ s.kindAt pa = .ram ∧ a = some pa) := by
  unfold State.accessedAt
  cases hd : d.accessed with
  | true => simp [eq_comm]
  | false =>
    simp only [Bool.false_eq_true, if_false, false_and, false_or, true_and]
    constructor
    · intro h
      obtain ⟨pa, hp, h⟩ := bind_ok.mp h
      refine ⟨pa, hp, ?_⟩
      split at h
      · next hk => cases h; exact ⟨hk, rfl⟩
      all_goals cases h
    · rintro ⟨pa, hp, hk, rfl⟩
      rw [hp, ok_bind, hk]

/-- An accessed-bit write goes to RAM in the physical space. -/
theorem State.accessedAt_some {s : State} {la : Word} {d : Desc} {pa : Nat}
    (h : s.accessedAt la d = .ok (some pa)) : s.kindAt pa = .ram ∧ pa < physSpace s.par.physBits := by
  rcases State.accessedAt_ok.mp h with ⟨_, h⟩ | ⟨_, q, hq, hk, h⟩
  · cases h
  · cases h; exact ⟨hk, State.phys_lt hq⟩

/-- What `CheckData` passes (40 R153). -/
theorem checkData_ok {s : State} {sel : Half} {d : Desc} {u : Unit} :
    checkData s sel d = .ok u ↔
      (d.isCode = true → d.readable = true) ∧
      ((d.isCode = true ∧ d.conforming = true) ∨ (s.cpl ≤ d.dpl ∧ selRPL sel ≤ d.dpl)) := by
  unfold checkData
  constructor
  · intro h
    obtain ⟨_, h1, h⟩ := bind_ok.mp h
    have h1 := need_ok.mp h1
    have h := need_ok.mp h
    simp only [Bool.not_eq_true', Bool.and_eq_false_iff, Bool.not_eq_false'] at h1
    simp only [Bool.or_eq_true, Bool.and_eq_true, decide_eq_true_eq] at h
    exact ⟨fun hc => by rcases h1 with h1 | h1 <;> simp_all, h⟩
  · rintro ⟨h1, h2⟩
    have e1 : (!(d.isCode && !d.readable)) = true := by
      cases hc : d.isCode <;> simp_all
    have e2 : ((d.isCode && d.conforming) || (decide (s.cpl ≤ d.dpl) && decide (selRPL sel ≤ d.dpl))) = true := by
      simpa using h2
    rw [e1, e2]; rfl

/-- What `CheckStack` passes (40 R154). -/
theorem checkStack_ok {s : State} {sel : Half} {d : Desc} {u : Unit} :
    checkStack s sel d = .ok u ↔ d.isWritableData = true ∧ selRPL sel = s.cpl ∧ d.dpl = s.cpl := by
  unfold checkStack
  constructor
  · intro h
    obtain ⟨_, h1, h⟩ := bind_ok.mp h
    have h := need_ok.mp h
    exact ⟨need_ok.mp h1, by simpa using h⟩
  · rintro ⟨h1, h2, h3⟩
    simp [h1, h2, h3]

/-- The load of a descriptor: the checks it passed and the state it leaves (40 R151). -/
theorem State.loadDescriptor_ok {s t : State} {x : SReg} {sel : Half} :
    s.loadDescriptor x sel = .ok t ↔
      ∃ la d a, s.readDescriptor sel = .ok (la, d) ∧ d.s = true ∧
        (if x = .ss then checkStack s sel d else checkData s sel d) = .ok () ∧ d.p = true ∧
        s.accessedAt la d = .ok a ∧ t = (s.setAccessed a).setSreg x (loaded sel d) := by
  unfold State.loadDescriptor
  constructor
  · intro h
    obtain ⟨⟨la, d⟩, hr, h⟩ := bind_ok.mp h
    obtain ⟨_, hs, h⟩ := bind_ok.mp h
    refine ⟨la, d, ?_⟩
    by_cases hx : x = .ss
    all_goals
      simp only [hx, if_true, if_false] at h ⊢
      obtain ⟨_, hc, h⟩ := bind_ok.mp h
      obtain ⟨_, hp, h⟩ := bind_ok.mp h
      obtain ⟨a, ha, h⟩ := bind_ok.mp h
      cases h
      exact ⟨a, hr, need_ok.mp hs, hc, need_ok.mp hp, ha, rfl⟩
  · rintro ⟨la, d, a, hr, hs, hc, hp, ha, rfl⟩
    by_cases hx : x = .ss
    · subst hx
      simp only [if_true] at hc
      simp [hr, hs, hc, hp, ha]
    · simp only [hx, if_false] at hc
      simp [hr, hs, hx, hc, hp, ha]

/-- `LoadSeg`: a null load of a data register, or the load of a descriptor (40 R151, R152). -/
theorem State.loadSeg_ok {s t : State} {x : SReg} {sel : Half} :
    s.loadSeg x sel = .ok t ↔
      x ≠ .cs ∧
      ((isNull sel = true ∧ x ≠ .ss ∧ t = s.setSreg x ⟨sel, false, Config.nullHidden s.free⟩) ∨
       (isNull sel = false ∧ s.loadDescriptor x sel = .ok t)) := by
  unfold State.loadSeg State.loadNull
  by_cases hx : x = .cs
  · simp [hx]
  · by_cases hn : isNull sel = true
    · by_cases hs : x = .ss <;> simp [hx, hn, hs, eq_comm]
    · simp [hx, hn]

/-! ### Operands -/

/-- A selector stored to a register or to memory (40 R156, 42 R202). -/
theorem State.writeRm16_ok {s t : State} {h : Head} {o : RM} {v : Half} :
    s.writeRm16 h o v = .ok t ↔
      (∃ r, o = .reg r ∧ t = (match h.osz with
        | .s16 => s.setReg16 r v
        | .s32 => s.setReg r (Config.upperHalf s.free ++ v))) ∨
      (∃ m pas, o = .mem m ∧ s.segWriteTo (segOf h m) (s.ea m).toNat 2 = .ok pas ∧ t = s.store pas v.toNat) := by
  cases o with
  | reg r =>
    constructor
    · intro h; cases h; exact .inl ⟨r, rfl, rfl⟩
    · rintro (⟨r', h, rfl⟩ | ⟨m, pas, h, _⟩)
      · cases h; rfl
      · cases h
  | mem m =>
    simp only [State.writeRm16, bind_ok]
    constructor
    · rintro ⟨pas, hp, h⟩; cases h; exact .inr ⟨m, pas, rfl, hp, rfl⟩
    · rintro (⟨r, h, _⟩ | ⟨m', pas, h, hp, rfl⟩)
      · cases h
      · cases h; exact ⟨pas, hp, rfl⟩

/-! ### Far transfers -/

/-- What `EnterCode` passes (41 R181). -/
theorem enterChecks_ok {s : State} {sel : Half} {off : Word} {d : Desc} {u : Unit} :
    enterChecks s sel off d = .ok u ↔
      d.s = true ∧ d.isCode = true ∧
      (if d.conforming = true then d.dpl ≤ s.cpl else d.dpl = s.cpl ∧ selRPL sel ≤ s.cpl) ∧ d.p = true ∧
      off.toNat ≤ effLimit d := by
  unfold enterChecks
  cases d.s <;> cases d.isCode <;> cases d.conforming <;> cases d.p <;> simp [bind_ok, need_ok]

/-- `EnterCode` up to its commit (41 R181). -/
theorem State.enterRead_ok {s : State} {sel : Half} {off : Word} {r : Word × Desc} :
    s.enterRead sel off = .ok r ↔
      isNull sel = false ∧ s.readDescriptor sel = .ok r ∧ enterChecks s sel off r.2 = .ok () := by
  unfold State.enterRead
  constructor
  · intro h
    obtain ⟨_, hn, h⟩ := bind_ok.mp h
    obtain ⟨r', hr, h⟩ := bind_ok.mp h
    obtain ⟨_, hc, h⟩ := bind_ok.mp h
    cases h
    exact ⟨by simpa using need_ok.mp hn, hr, hc⟩
  · rintro ⟨hn, hr, hc⟩
    simp [hn, hr, hc]

/-- A far jump (41 R182). -/
theorem State.jumpFar_ok {s t : State} {sel : Half} {off : Word} :
    s.jumpFar sel off = .ok t ↔
      ∃ r a, s.enterRead sel off = .ok r ∧ s.accessedAt r.1 r.2 = .ok a ∧
        t = s.enterCommit a (loaded (forceRPL sel s.cpl) r.2) off := by
  unfold State.jumpFar
  constructor
  · intro h
    obtain ⟨r, hr, h⟩ := bind_ok.mp h
    obtain ⟨a, ha, h⟩ := bind_ok.mp h
    cases h
    exact ⟨r, a, hr, ha, rfl⟩
  · rintro ⟨r, a, hr, ha, rfl⟩
    simp [hr, ha]

/-- The room for the pushes is there exactly when `SegAccess` passes for both slots together (41 R183). -/
theorem State.callRoom_ok {s : State} {n : Nat} {u : Unit} :
    s.callRoom n = .ok u ↔ ∃ la, s.segAccess .ss (s.spMinus (2 * n)) (2 * n) .write = .ok la := by
  unfold State.callRoom
  cases s.segAccess .ss (s.spMinus (2 * n)) (2 * n) .write <;> simp

/-- Without the room a far call is a stack fault, whichever check of `SegAccess` failed (41 R183). -/
theorem State.callRoom_error {s : State} {n : Nat} {e : Stop}
    (h : s.segAccess .ss (s.spMinus (2 * n)) (2 * n) .write = .error e) :
    s.callRoom n = .error (segFault s .ss 0) := by
  simp [State.callRoom, h]

/-- A far call (41 R183). -/
theorem State.callFar_ok {s t : State} {z : Size} {sel : Half} {off : Word} {len : Nat} :
    s.callFar z sel off len = .ok t ↔
      ∃ r csTo retTo a, s.enterRead sel off = .ok r ∧
        s.callRoom (sizeBytes z) = .ok () ∧
        s.pushTo (s.spMinus (sizeBytes z)) (sizeBytes z) = .ok csTo ∧
        s.pushTo (s.spMinus (2 * sizeBytes z)) (sizeBytes z) = .ok retTo ∧
        s.accessedAt r.1 r.2 = .ok a ∧
        t = ((((s.store csTo (s.pushedCs z).toNat).store retTo (s.pcPlus len).toNat).setSp s.stackSize
          (s.spMinus (2 * sizeBytes z))).enterCommit a (loaded (forceRPL sel s.cpl) r.2) off) := by
  unfold State.callFar
  constructor
  · intro h
    obtain ⟨r, hr, h⟩ := bind_ok.mp h
    obtain ⟨_, hs, h⟩ := bind_ok.mp h
    obtain ⟨c, hc, h⟩ := bind_ok.mp h
    obtain ⟨p, hp, h⟩ := bind_ok.mp h
    obtain ⟨a, ha, h⟩ := bind_ok.mp h
    cases h
    exact ⟨r, c, p, a, hr, hs, hc, hp, ha, rfl⟩
  · rintro ⟨r, c, p, a, hr, hs, hc, hp, ha, rfl⟩
    simp [hr, hs, hc, hp, ha]

/-- What a far return passes (41 R184). -/
theorem returnChecks_ok {s : State} {sel : Half} {off : Word} {d : Desc} {u : Unit} :
    returnChecks s sel off d = .ok u ↔
      d.s = true ∧ d.isCode = true ∧ selRPL sel = s.cpl ∧
      (if d.conforming = true then d.dpl ≤ selRPL sel else d.dpl = selRPL sel) ∧ d.p = true ∧
      off.toNat ≤ effLimit d := by
  have hle : selRPL sel = s.cpl ↔ s.cpl ≤ selRPL sel ∧ selRPL sel ≤ s.cpl :=
    ⟨fun h => by simp [h], fun ⟨h1, h2⟩ => BitVec.le_antisymm h2 h1⟩
  rw [hle]
  unfold returnChecks
  cases d.s <;> cases d.isCode <;> cases d.conforming <;> cases d.p <;> simp [bind_ok, need_ok, and_assoc]

/-- A far return (41 R184). -/
theorem State.returnFar_ok {s t : State} {z : Size} {extra : Nat} :
    s.returnFar z extra = .ok t ↔
      ∃ off w r a, s.segRead .ss s.sp (sizeBytes z) = .ok off ∧
        s.segRead .ss (s.spPlus (sizeBytes z)) (sizeBytes z) = .ok w ∧
        isNull (BitVec.ofNat 16 w) = false ∧ s.readDescriptor (BitVec.ofNat 16 w) = .ok r ∧
        returnChecks s (BitVec.ofNat 16 w) (BitVec.ofNat 32 off) r.2 = .ok () ∧
        s.accessedAt r.1 r.2 = .ok a ∧
        t = (s.setSp s.stackSize (s.spPlus (2 * sizeBytes z + extra))).enterCommit a
          (loaded (BitVec.ofNat 16 w) r.2) (BitVec.ofNat 32 off) := by
  unfold State.returnFar
  constructor
  · intro h
    obtain ⟨off, ho, h⟩ := bind_ok.mp h
    obtain ⟨w, hw, h⟩ := bind_ok.mp h
    obtain ⟨_, hn, h⟩ := bind_ok.mp h
    obtain ⟨r, hr, h⟩ := bind_ok.mp h
    obtain ⟨_, hc, h⟩ := bind_ok.mp h
    obtain ⟨a, ha, h⟩ := bind_ok.mp h
    cases h
    exact ⟨off, w, r, a, ho, hw, by simpa using need_ok.mp hn, hr, hc, ha, rfl⟩
  · rintro ⟨off, w, r, a, ho, hw, hn, hr, hc, ha, rfl⟩
    simp [ho, hw, hn, hr, hc, ha]

/-! ### Table registers -/

/-- The privilege check of the load instructions (42 R204 to R207). -/
theorem needSupervisor_ok {s : State} {u : Unit} : needSupervisor s = .ok u ↔ s.cpl = 0 := by
  unfold needSupervisor; rw [need_ok]; simp

/-- A pseudo-descriptor load (42 R204, R205). -/
theorem State.readTable_ok {s : State} {h : Head} {m : Mem} {r : TableReg} :
    s.readTable h m = .ok r ↔
      s.cpl = 0 ∧ ∃ lim b, s.segRead (segOf h m) (s.ea m).toNat 2 = .ok lim ∧
        s.segRead (segOf h m) ((s.ea m).toNat + 2) 4 = .ok b ∧
        r = ⟨loadedBase h.osz (BitVec.ofNat 32 b), BitVec.ofNat 16 lim⟩ := by
  unfold State.readTable
  constructor
  · intro h
    obtain ⟨_, hc, h⟩ := bind_ok.mp h
    obtain ⟨lim, hl, h⟩ := bind_ok.mp h
    obtain ⟨b, hb, h⟩ := bind_ok.mp h
    cases h
    exact ⟨needSupervisor_ok.mp hc, lim, b, hl, hb, rfl⟩
  · rintro ⟨hc, lim, b, hl, hb, rfl⟩
    have hc' : needSupervisor s = .ok () := needSupervisor_ok.mpr hc
    simp [hc', hl, hb]

/-- The load of `LDTR` (42 R206). -/
theorem State.loadLdtr_ok {s t : State} {sel : Half} :
    s.loadLdtr sel = .ok t ↔
      (isNull sel = true ∧ t = { s with ldtr := ⟨sel, false, s.ldtr.d⟩ }) ∨
      (isNull sel = false ∧ selTI sel = false ∧ ∃ r, s.readDescriptor sel = .ok r ∧ r.2.isLdt = true ∧
        r.2.p = true ∧ t = { s with ldtr := ⟨sel, true, r.2⟩ }) := by
  unfold State.loadLdtr
  by_cases hn : isNull sel = true
  · rw [if_pos hn]
    constructor
    · intro h; cases h; exact .inl ⟨hn, rfl⟩
    · rintro (⟨_, rfl⟩ | ⟨h, _⟩)
      · rfl
      · simp [hn] at h
  · simp only [hn, if_false, Bool.false_eq_true, false_and, false_or]
    constructor
    · intro h
      obtain ⟨_, ht, h⟩ := bind_ok.mp h
      obtain ⟨r, hr, h⟩ := bind_ok.mp h
      obtain ⟨_, hl, h⟩ := bind_ok.mp h
      obtain ⟨_, hp, h⟩ := bind_ok.mp h
      cases h
      exact ⟨by simp, by simpa using need_ok.mp ht, r, hr, need_ok.mp hl, need_ok.mp hp, rfl⟩
    · rintro ⟨_, ht, r, hr, hl, hp, rfl⟩
      simp [ht, hr, hl, hp]

/-- Where the busy bit goes (42 R207). -/
theorem State.busyAt_ok {s : State} {la : Word} {pa : Nat} :
    s.busyAt la = .ok pa ↔ s.phys .table .write (la + 5) = .ok pa ∧ s.holdsTables pa = true := by
  unfold State.busyAt
  constructor
  · intro h
    obtain ⟨q, hq, h⟩ := bind_ok.mp h
    obtain ⟨_, hh, h⟩ := bind_ok.mp h
    cases h
    exact ⟨hq, need_ok.mp hh⟩
  · rintro ⟨hq, hh⟩
    rw [hq, ok_bind, hh]; rfl

/-- The load of `TR` (42 R207). -/
theorem State.loadTr_ok {s t : State} {sel : Half} :
    s.loadTr sel = .ok t ↔
      isNull sel = false ∧ selTI sel = false ∧ ∃ r pa, s.readDescriptor sel = .ok r ∧
        r.2.isAvailableTss = true ∧ r.2.p = true ∧ s.busyAt r.1 = .ok pa ∧
        t = { s.storeByte pa (Memory.read s.mem pa ||| 2) with
          tr := ⟨sel, true, { r.2 with type := r.2.type ||| 2 }⟩ } := by
  unfold State.loadTr
  constructor
  · intro h
    obtain ⟨_, hn, h⟩ := bind_ok.mp h
    obtain ⟨_, ht, h⟩ := bind_ok.mp h
    obtain ⟨r, hr, h⟩ := bind_ok.mp h
    obtain ⟨_, hl, h⟩ := bind_ok.mp h
    obtain ⟨_, hp, h⟩ := bind_ok.mp h
    obtain ⟨pa, hb, h⟩ := bind_ok.mp h
    cases h
    exact ⟨by simpa using need_ok.mp hn, by simpa using need_ok.mp ht, r, pa, hr, need_ok.mp hl,
      need_ok.mp hp, hb, rfl⟩
  · rintro ⟨hn, ht, r, pa, hr, hl, hp, hb, rfl⟩
    simp [hn, ht, hr, hl, hp, hb]

/-! ### Steps -/

/-- A step: a hung machine stays, else the fetched instruction is executed, else the fetch stopped. -/
theorem step_next {s t : State} (h : step s = .next t) :
    (s.hung = true ∧ t = s) ∨ (s.hung = false ∧ ∃ i, s.fetchInstr = .ok i ∧ exec i s = .next t) ∨
    (s.hung = false ∧ s.fetchInstr = .error .hang ∧ t = { s with hung := true }) := by
  unfold step at h
  by_cases hh : s.hung = true
  · rw [if_pos hh] at h; cases h; exact .inl ⟨hh, rfl⟩
  · rw [if_neg hh] at h
    have hh : s.hung = false := by simpa using hh
    split at h
    · next i hi => exact .inr (.inl ⟨hh, i, hi, h⟩)
    · next e he =>
      rcases conclude_next.mp h with ⟨u, hu, _⟩ | ⟨hu, ht⟩
      · cases hu
      · cases hu; exact .inr (.inr ⟨hh, he, ht⟩)

/-- Placing bytes for the fetch keeps the canonical form. -/
theorem State.placeBytes_wf (s : State) (i : Nat) (bs : List Byte) (h : Memory.wf s.mem) :
    Memory.wf (s.placeBytes i bs).mem := by
  induction bs generalizing s i with
  | nil => exact h
  | cons b bs ih => exact ih _ _ (Memory.write_wf _ _ _ h)

end Sys2Proof.Machine
end

