-- ==== Sys2Proof/Laws/Flat.lean ====
section
/-! SUPPORT. The operations over memory and the stack without paging, in the terms of Safety: what bytes a
read takes, what a store leaves to read, the accessed bit and the stack pointer. -/

namespace Sys2Proof.Machine

/-! ### Bytes -/

/-- The bytes read at the physical addresses of a flat translation, each from its own linear address. -/
theorem State.readBytes_flat (s : State) (k : Access) (la : Word) (n : Nat) :
    s.readBytes k la ((List.range n).map fun i => (la + BitVec.ofNat 32 i).toNat) =
      (List.range n).map fun i => s.readByte k (la + BitVec.ofNat 32 i) (la + BitVec.ofNat 32 i).toNat := by
  induction n generalizing la with
  | zero => rfl
  | succ n ih =>
    have e : ∀ i, la + 1 + BitVec.ofNat 32 i = la + BitVec.ofNat 32 (i + 1) := by
      intro i
      apply BitVec.eq_of_toNat_eq
      simp [BitVec.toNat_add]
      omega
    have e0 : la + BitVec.ofNat 32 0 = la := by simp
    rw [List.range_succ_eq_map, List.map_cons, List.map_map, List.map_cons, List.map_map]
    simp only [State.readBytes, e0]
    congr 1
    have h := ih (la + 1)
    simp only [e] at h
    exact h

/-- What is read at RAM addresses depends on memory there and on nothing else that a store changes. -/
theorem State.readBytes_congr (s t : State) (k : Access) (hp : t.par = s.par) (pas : List Nat)
    (hr : ∀ a ∈ pas, s.kindAt a = .ram) (hm : ∀ a ∈ pas, Memory.read t.mem a = Memory.read s.mem a)
    (la : Word) : t.readBytes k la pas = s.readBytes k la pas := by
  induction pas generalizing la with
  | nil => rfl
  | cons a as ih =>
    simp only [State.readBytes]
    rw [ih (fun b hb => hr b (by simp [hb])) (fun b hb => hm b (by simp [hb]))]
    congr 1
    unfold State.readByte
    rw [State.kindAt_congr s t hp, hr a (by simp)]
    exact hm a (by simp)

/-- A value stored at distinct RAM addresses is read back there, cut to their number of bytes. -/
theorem State.leValue_readBytes_store (s : State) (k : Access) (pas : List Nat) (v : Nat) (hn : pas.Nodup)
    (hr : ∀ a ∈ pas, s.kindAt a = .ram) (la : Word) :
    leValue ((s.store pas v).readBytes k la pas) = v % 256 ^ pas.length := by
  induction pas generalizing s v la with
  | nil => simp [State.readBytes, leValue, Nat.mod_one]
  | cons a as ih =>
    have ha := hr a (by simp)
    have hna := (List.nodup_cons.mp hn).1
    simp only [State.store, State.readBytes, leValue, List.length_cons]
    have hr' : ∀ b ∈ as, (s.storeByte a (BitVec.ofNat 8 v)).kindAt b = .ram := by
      intro b hb
      rw [State.kindAt_congr s _ (by simp)]
      exact hr b (by simp [hb])
    rw [ih _ _ (List.nodup_cons.mp hn).2 hr']
    have hb : ((s.storeByte a (BitVec.ofNat 8 v)).store as (v / 256)).readByte k la a = BitVec.ofNat 8 v := by
      unfold State.readByte
      rw [State.kindAt_congr s _ (by simp), ha]
      simp only
      rw [State.store_read_not_mem _ _ _ _ hna, State.storeByte_ram _ _ _ ha]
      simp
    rw [hb, BitVec.toNat_ofNat, show 256 ^ (as.length + 1) = 256 * 256 ^ as.length from pow_succ' _ _, Nat.mod_mul]

/-- The addresses of a flat access of at most 2^32 bytes are distinct. -/
theorem nodup_flat (la : Word) (n : Nat) (h : n ≤ 2 ^ 32) :
    ((List.range n).map fun i => (la + BitVec.ofNat 32 i).toNat).Nodup := by
  apply List.Nodup.map_on _ List.nodup_range
  intro x hx y hy e
  rw [List.mem_range] at hx hy
  have := la.isLt
  simp only [BitVec.toNat_add, BitVec.toNat_ofNat] at e
  omega

/-- An effective limit is a 32-bit number. -/
theorem effLimit_lt (d : Desc) : effLimit d < 2 ^ 32 := by
  have := d.limit20.isLt
  unfold effLimit
  split <;> omega

/-! ### The accessed bit -/

/-- The accessed-bit plan where it can be carried out, without paging. -/
theorem State.accessedAt_flat {s : State} {la : Word} {d : Desc} (hp : s.par.paging = false)
    (h : AccessedWritable s la d) :
    s.accessedAt la d = .ok (if d.accessed = true then none else some (la + 5).toNat) := by
  rw [State.accessedAt_ok]
  by_cases hd : d.accessed = true
  · simp [hd]
  · refine .inr ⟨by simpa using hd, (la + 5).toNat, State.phys_flat hp _ _ _, ?_, by simp [hd]⟩
    exact h.resolve_left hd

/-- Carrying out the accessed-bit plan is `accessedMem`. -/
theorem State.setAccessed_flat (s : State) (la : Word) (d : Desc) :
    s.setAccessed (if d.accessed = true then none else some (la + 5).toNat) =
      { s with mem := accessedMem s.mem la d } := by
  unfold accessedMem
  by_cases hd : d.accessed = true <;> simp [hd, State.setAccessed]

/-! ### The stack pointer -/

/-- Writing the stack pointer depends on the general registers only. -/
theorem State.setSp_congr (t s : State) (h : t.regs = s.regs) (z : Size) (n : Nat) :
    t.setSp z n = { t with regs := (s.setSp z n).regs } := by
  cases z <;> simp [State.setSp, State.setRegSize, State.setReg16, State.setReg, State.reg, h]

/-- The stack pointer moved up by `n` is `espPlus`. -/
theorem State.setSp_spPlus (t s : State) (h : t.regs = s.regs) (n : Nat) :
    t.setSp s.stackSize (s.spPlus n) = { t with regs := { s.regs with esp := espPlus s n } } := by
  rw [State.setSp_congr t s h]
  congr 1
  unfold State.setSp espPlus State.spPlus State.sp State.stackSize Desc.size
  cases hb : s.seg.ss.d.db
  · simp only [Bool.false_eq_true, if_false, truncSize, State.setRegSize, State.setReg16, State.setReg, Regs.set]
    congr 1
    rw [show s.reg .esp = s.regs.esp from rfl]
    congr 1
    apply BitVec.eq_of_toNat_eq
    simp [BitVec.toNat_add]
  · simp only [if_true, truncSize, State.setRegSize, State.setReg, Regs.set]
    congr 1
    apply BitVec.eq_of_toNat_eq
    simp [BitVec.toNat_add]

/-- The stack pointer moved down by `n` is `espMinus`. -/
theorem State.setSp_spMinus (t s : State) (h : t.regs = s.regs) (n : Nat) (hn : n ≤ 2 ^ 31) :
    t.setSp s.stackSize (s.spMinus n) = { t with regs := { s.regs with esp := espMinus s n } } := by
  rw [State.setSp_congr t s h]
  congr 1
  unfold State.setSp espMinus State.spMinus State.sp State.stackSize Desc.size
  have := s.regs.esp.isLt
  cases hb : s.seg.ss.d.db
  · simp only [Bool.false_eq_true, if_false, truncSize, State.setRegSize, State.setReg16, State.setReg, Regs.set]
    congr 1
    rw [show s.reg .esp = s.regs.esp from rfl]
    congr 1
    apply BitVec.eq_of_toNat_eq
    simp [BitVec.toNat_sub]
    omega
  · simp only [if_true, truncSize, State.setRegSize, State.setReg, Regs.set]
    congr 1
    apply BitVec.eq_of_toNat_eq
    simp [BitVec.toNat_sub]
    omega

end Sys2Proof.Machine
end

