-- ==== Sys2Proof/Laws/PerInstr.lean ====
section
/-! SUPPORT. Laws made per instruction: a well-formed instruction has 1 to 15 bytes (30_encoding.md R130). -/

namespace Sys2Proof.Laws

/-! ### Lengths of the parts -/

theorem mem_enc_length (reg : BitVec 3) (m : Mem) : 1 ≤ (m.enc reg).length ∧ (m.enc reg).length ≤ 6 := by
  cases m with
  | abs16 d => simp [Mem.enc]
  | ind16 b d => cases d <;> simp [Mem.enc, Disp16.enc]
  | abs32 d => simp [Mem.enc]
  | ind32 b d => cases d <;> simp [Mem.enc, Disp32.enc]
  | sib sc i b d => cases d <;> simp [Mem.enc, Disp32.enc]
  | sibAbs sc i d => simp [Mem.enc]

theorem rm_enc_length (reg : BitVec 3) (o : RM) : 1 ≤ (o.enc reg).length ∧ (o.enc reg).length ≤ 6 := by
  cases o with
  | reg r => simp [RM.enc]
  | mem m => exact mem_enc_length reg m

theorem farPtr_length (z : Size) (sel : Half) (off : Word) :
    1 ≤ (farPtrBytes z sel off).length ∧ (farPtrBytes z sel off).length ≤ 6 := by
  cases z <;> simp [farPtrBytes]

namespace EncodeLength

/-- A well-formed instruction has 1 to 15 bytes (30_encoding.md R130). -/
def Statement (i : Instr) : Prop := ∀ db : Bool, i.wf db = true → 1 ≤ i.length ∧ i.length ≤ maxLength

/-- At most four prefixes before a body of 1 to 11 bytes. -/
theorem of_body (i : Instr) (h : 1 ≤ i.body.length ∧ i.body.length ≤ 11) : Statement i := by
  intro db hw
  simp only [Instr.wf, Head.wf, Bool.and_eq_true, decide_eq_true_eq] at hw
  have hp := hw.1.1
  simp only [Instr.length, encode, List.length_append, List.length_map, maxLength]
  omega

theorem movSregRm (h : Head) (sr : SReg) (src : RM) : Statement (.movSregRm h sr src) :=
  of_body _ (by
    have := rm_enc_length sr.toBits src
    simp only [Instr.body, List.length_cons]
    omega)

theorem movRmSreg (h : Head) (dst : RM) (sr : SReg) : Statement (.movRmSreg h dst sr) :=
  of_body _ (by
    have := rm_enc_length sr.toBits dst
    simp only [Instr.body, List.length_cons]
    omega)

theorem popEs (h : Head) : Statement (.popEs h) :=
  of_body _ (by simp [Instr.body])

theorem popSs (h : Head) : Statement (.popSs h) :=
  of_body _ (by simp [Instr.body])

theorem popDs (h : Head) : Statement (.popDs h) :=
  of_body _ (by simp [Instr.body])

theorem popFs (h : Head) : Statement (.popFs h) :=
  of_body _ (by simp [Instr.body])

theorem popGs (h : Head) : Statement (.popGs h) :=
  of_body _ (by simp [Instr.body])

theorem lds (h : Head) (r : Reg) (m : Mem) : Statement (.lds h r m) :=
  of_body _ (by
    have := mem_enc_length r.toBits m
    simp only [Instr.body, List.length_cons]
    omega)

theorem les (h : Head) (r : Reg) (m : Mem) : Statement (.les h r m) :=
  of_body _ (by
    have := mem_enc_length r.toBits m
    simp only [Instr.body, List.length_cons]
    omega)

theorem lss (h : Head) (r : Reg) (m : Mem) : Statement (.lss h r m) :=
  of_body _ (by
    have := mem_enc_length r.toBits m
    simp only [Instr.body, List.length_cons]
    omega)

theorem lfs (h : Head) (r : Reg) (m : Mem) : Statement (.lfs h r m) :=
  of_body _ (by
    have := mem_enc_length r.toBits m
    simp only [Instr.body, List.length_cons]
    omega)

theorem lgs (h : Head) (r : Reg) (m : Mem) : Statement (.lgs h r m) :=
  of_body _ (by
    have := mem_enc_length r.toBits m
    simp only [Instr.body, List.length_cons]
    omega)

theorem jmpPtr (h : Head) (sel : Half) (off : Word) : Statement (.jmpPtr h sel off) :=
  of_body _ (by
    have := farPtr_length h.osz sel off
    simp only [Instr.body, List.length_cons]
    omega)

theorem jmpMem (h : Head) (m : Mem) : Statement (.jmpMem h m) :=
  of_body _ (by
    have := mem_enc_length 5 m
    simp only [Instr.body, List.length_cons]
    omega)

theorem callPtr (h : Head) (sel : Half) (off : Word) : Statement (.callPtr h sel off) :=
  of_body _ (by
    have := farPtr_length h.osz sel off
    simp only [Instr.body, List.length_cons]
    omega)

theorem callMem (h : Head) (m : Mem) : Statement (.callMem h m) :=
  of_body _ (by
    have := mem_enc_length 3 m
    simp only [Instr.body, List.length_cons]
    omega)

theorem retf (h : Head) : Statement (.retf h) :=
  of_body _ (by simp [Instr.body])

theorem retfImm (h : Head) (imm : Half) : Statement (.retfImm h imm) :=
  of_body _ (by simp [Instr.body])

theorem iret (h : Head) : Statement (.iret h) :=
  of_body _ (by simp [Instr.body])

theorem intN (h : Head) (n : Byte) : Statement (.intN h n) :=
  of_body _ (by simp [Instr.body])

theorem int3 (h : Head) : Statement (.int3 h) :=
  of_body _ (by simp [Instr.body])

theorem into (h : Head) : Statement (.into h) :=
  of_body _ (by simp [Instr.body])

theorem sysenter (h : Head) : Statement (.sysenter h) :=
  of_body _ (by simp [Instr.body])

theorem sysexit (h : Head) : Statement (.sysexit h) :=
  of_body _ (by simp [Instr.body])

theorem sgdt (h : Head) (m : Mem) : Statement (.sgdt h m) :=
  of_body _ (by
    have := mem_enc_length 0 m
    simp only [Instr.body, List.length_cons]
    omega)

theorem sidt (h : Head) (m : Mem) : Statement (.sidt h m) :=
  of_body _ (by
    have := mem_enc_length 1 m
    simp only [Instr.body, List.length_cons]
    omega)

theorem sldt (h : Head) (o : RM) : Statement (.sldt h o) :=
  of_body _ (by
    have := rm_enc_length 0 o
    simp only [Instr.body, List.length_cons]
    omega)

theorem str (h : Head) (o : RM) : Statement (.str h o) :=
  of_body _ (by
    have := rm_enc_length 1 o
    simp only [Instr.body, List.length_cons]
    omega)

theorem lgdt (h : Head) (m : Mem) : Statement (.lgdt h m) :=
  of_body _ (by
    have := mem_enc_length 2 m
    simp only [Instr.body, List.length_cons]
    omega)

theorem lidt (h : Head) (m : Mem) : Statement (.lidt h m) :=
  of_body _ (by
    have := mem_enc_length 3 m
    simp only [Instr.body, List.length_cons]
    omega)

theorem lldt (h : Head) (o : RM) : Statement (.lldt h o) :=
  of_body _ (by
    have := rm_enc_length 2 o
    simp only [Instr.body, List.length_cons]
    omega)

theorem ltr (h : Head) (o : RM) : Statement (.ltr h o) :=
  of_body _ (by
    have := rm_enc_length 3 o
    simp only [Instr.body, List.length_cons]
    omega)

end EncodeLength

end Sys2Proof.Laws
end

