-- ==== Sys2Proof/Tests/Slice0.lean ====
section
/-! SUPPORT. Tests on fixed values, the expected results from 95_test_vectors.md of spec/ unless a comment
says otherwise, and for every statement with hypotheses a theorem `witness_<Name>` that something meets
them. -/

namespace Sys2Proof.Tests

open Sys2Proof.Machine

/-! ### Helpers -/

/-- The bytes of a descriptor at an address, as memory lists them. -/
def descCells (a : Nat) (v : BitVec 64) : Memory :=
  (List.range 8).filterMap fun i =>
    let b := v.extractLsb' (8 * i) 8
    if b = 0 then none else some (a + i, b)

/-- Bytes at an address, as memory lists them. -/
def cells (a : Nat) : List Byte → Memory
  | [] => []
  | b :: bs => if b = 0 then cells (a + 1) bs else (a, b) :: cells (a + 1) bs

/-- The GDT of 95 section 2.5, at 00001000H. -/
def gdtCells : Memory :=
  descCells 0x1008 0x00CF9A000000FFFF ++ descCells 0x1010 0x00CF92000000FFFF ++
  descCells 0x1018 0x00CFFA000000FFFF ++ descCells 0x1020 0x00CFF2000000FFFF ++
  descCells 0x1028 0x0000820040000027 ++ descCells 0x1030 0x0000890080000067 ++
  descCells 0x1038 0x00CF12000000FFFF ++ descCells 0x1040 0x00CF98000000FFFF ++
  descCells 0x1048 0x00CF9E000000FFFF ++ descCells 0x1050 0x00CF90000000FFFF ++
  descCells 0x1058 0x000096020000EFFF ++ descCells 0x1060 0x0000EC0000081000

/-- The LDT of 95 section 2.5, at 00004000H. -/
def ldtCells : Memory := descCells 0x4000 0x004092100000FFFF ++ descCells 0x4008 0x00CFF2000000FFFF

/-- A segment register that holds the descriptor `v`. -/
def seg (sel : Half) (v : BitVec 64) : SegReg := ⟨sel, true, Desc.ofBits v⟩

/-- A segment register that holds the null selector. -/
def nullSeg : SegReg := ⟨0, false, default⟩

/-- The fixture of 95 section 2.5 at `CPL` 0: `low` at addresses below the GDT and `high` above the LDT. -/
def fixture (low high : Memory) : State :=
  { State.reset with
    pc := 0x7000
    seg := { es := nullSeg, cs := seg 0x0008 0x00CF9B000000FFFF, ss := seg 0x0010 0x00CF93000000FFFF,
             ds := seg 0x0010 0x00CF93000000FFFF, fs := nullSeg, gs := nullSeg }
    gdtr := ⟨0x1000, 0x0067⟩
    idtr := ⟨0x2000, 0x07FF⟩
    ldtr := seg 0x0028 0x0000820040000027
    tr := seg 0x0030 0x00008B0080000067
    regs := { State.reset.regs with ebx := 0x500, esp := 0x6000 }
    mem := low ++ gdtCells ++ ldtCells ++ high }

/-- The fixture at `CPL` 3. -/
def fixture3 (low high : Memory) : State :=
  { fixture low high with
    cpl := 3
    seg := { es := nullSeg, cs := seg 0x001B 0x00CFFB000000FFFF, ss := seg 0x0023 0x00CFF3000000FFFF,
             ds := seg 0x0023 0x00CFF3000000FFFF, fs := nullSeg, gs := nullSeg } }

/-- The fixture with `EAX` = `v`. -/
def withEax (v : Word) : State := { fixture [] [] with regs := ⟨v, 0, 0, 0x500, 0x6000, 0, 0, 0⟩ }

/-- A state with the fixture's GDT in another kind of memory. -/
def gdtIn (k : MemKind) (s : State) : State :=
  { s with par := { State.reset.par with memMap := [⟨0x1000, 0x1067, k⟩] } }

/-- The fixture with the GDT in ROM. -/
def romFixture (v : Word) : State := gdtIn .rom (withEax v)

/-- A field of the next state. -/
def after {α : Type} (o : Host.Outcome State Fault Refusal) (f : State → α) : Option α :=
  match o with
  | .next t => some (f t)
  | _ => none

/-- The fault an outcome is. -/
def faultOf : Host.Outcome State Fault Refusal → Option Fault
  | .fault f => some f
  | _ => none

/-- The refusal an outcome is. -/
def refusalOf : Host.Outcome State Fault Refusal → Option Refusal
  | .refused r => some r
  | _ => none

/-- Step on bytes placed at the fetch. -/
def stepOn (s : State) (bs : List Byte) : Host.Outcome State Fault Refusal := step (s.placeBytes 0 bs)

/-- The bytes `n` long at an address. -/
def bytesAt (a n : Nat) (s : State) : List Byte := (List.range n).map fun i => Memory.read s.mem (a + i)

/-- An outcome with a field of its next state is a next state. -/
theorem next_of_after {α : Type} {o : Host.Outcome State Fault Refusal} {f : State → α} {a : α}
    (h : after o f = some a) : ∃ t, o = .next t ∧ f t = a := by
  cases o with
  | next t => exact ⟨t, rfl, by simpa [after] using h⟩
  | fault f => cases h
  | refused r => cases h

def h32 : Head := ⟨[], .s32⟩
def h16 : Head := ⟨[.opSize], .s16⟩

/-- `[EBX]` -/
def atEbx : Mem := .ind32 .ebx .none

/-! ### WellFormed refuses an ill-formed term, check by check -/

theorem test_wf_ok : (Instr.movSregRm h32 .ds (.mem atEbx)).wf true = true := by decide
theorem test_wf_five_prefixes : (Instr.popDs ⟨[.seg .es, .seg .es, .seg .es, .seg .es, .seg .es], .s32⟩).wf true = false := by decide
theorem test_wf_operand_size : (Instr.popDs ⟨[.opSize], .s32⟩).wf true = false := by decide
theorem test_wf_mov_cs : (Instr.movSregRm h32 .cs (.reg .eax)).wf true = false := by decide
theorem test_wf_addr_size : (Instr.lgdt h32 (.abs16 0)).wf true = false := by decide
theorem test_wf_abs32_in_16bit : (Instr.lgdt ⟨[], .s16⟩ (.abs32 0)).wf false = false := by decide
theorem test_wf_bp_alone : (Instr.lgdt ⟨[], .s16⟩ (.ind16 .bp .none)).wf false = false := by decide
theorem test_wf_ebp_alone : (Instr.lgdt h32 (.ind32 .ebp .none)).wf true = false := by decide
theorem test_wf_esp_without_sib : (Instr.lgdt h32 (.ind32 .esp .none)).wf true = false := by decide
theorem test_wf_sib_ebp_alone : (Instr.lgdt h32 (.sib 0 none .ebp .none)).wf true = false := by decide
theorem test_wf_esp_index : (Instr.lgdt h32 (.sib 0 (some .esp) .eax .none)).wf true = false := by decide
theorem test_wf_esp_index_abs : (Instr.lgdt h32 (.sibAbs 0 (some .esp) 0)).wf true = false := by decide
theorem test_wf_offset_17_bits : (Instr.jmpPtr ⟨[], .s16⟩ 8 0x10000).wf false = false := by decide

/-! ### Decoding: words written out from 30_encoding.md Part B and the opcode table -/

/-- `8E /r`: mod 11, reg 011, rm 000. -/
theorem test_decode_movSregRm : decode true [0x8E, 0xD8] = .ok (.movSregRm h32 .ds (.reg .eax)) [] := by decide
/-- `8C /r`: mod 00, reg 001, rm 011. -/
theorem test_decode_movRmSreg : decode true [0x8C, 0x0B] = .ok (.movRmSreg h32 (.mem atEbx) .cs) [] := by decide
theorem test_decode_popEs : decode true [0x07] = .ok (.popEs h32) [] := by decide
theorem test_decode_popSs : decode true [0x17] = .ok (.popSs h32) [] := by decide
theorem test_decode_popDs : decode true [0x66, 0x1F] = .ok (.popDs h16) [] := by decide
theorem test_decode_popFs : decode true [0x0F, 0xA1] = .ok (.popFs h32) [] := by decide
theorem test_decode_popGs : decode true [0x0F, 0xA9] = .ok (.popGs h32) [] := by decide
/-- mod 00, reg 110, rm 011. -/
theorem test_decode_lds : decode true [0xC5, 0x33] = .ok (.lds h32 .esi atEbx) [] := by decide
/-- mod 00, reg 111, rm 110. -/
theorem test_decode_les : decode true [0xC4, 0x3E] = .ok (.les h32 .edi (.ind32 .esi .none)) [] := by decide
theorem test_decode_lss : decode true [0x0F, 0xB2, 0x23] = .ok (.lss h32 .esp atEbx) [] := by decide
/-- mod 01, reg 000, rm 100; SIB scale 10, index 110, base 101; disp8 F0H. -/
theorem test_decode_lfs : decode true [0x0F, 0xB4, 0x44, 0xB5, 0xF0] =
    .ok (.lfs h32 .eax (.sib 2 (some .esi) .ebp (.d8 0xF0))) [] := by decide
/-- mod 00, reg 000, rm 100; SIB scale 01, index 001, base 101; disp32. -/
theorem test_decode_lgs : decode true [0x0F, 0xB5, 0x04, 0x4D, 0x78, 0x56, 0x34, 0x12] =
    .ok (.lgs h32 .eax (.sibAbs 1 (some .ecx) 0x12345678)) [] := by decide
theorem test_decode_jmpPtr : decode true [0x66, 0xEA, 0x00, 0x90, 0x08, 0x00] = .ok (.jmpPtr h16 8 0x9000) [] := by decide
/-- mod 00, reg 101, rm 011. -/
theorem test_decode_jmpMem : decode true [0xFF, 0x2B] = .ok (.jmpMem h32 atEbx) [] := by decide
theorem test_decode_callPtr : decode true [0x9A, 0x00, 0x90, 0x00, 0x00, 0x08, 0x00] =
    .ok (.callPtr h32 8 0x9000) [] := by decide
/-- mod 00, reg 011, rm 011. -/
theorem test_decode_callMem : decode true [0xFF, 0x1B] = .ok (.callMem h32 atEbx) [] := by decide
theorem test_decode_retf : decode true [0xCB] = .ok (.retf h32) [] := by decide
theorem test_decode_retfImm : decode true [0xCA, 0x08, 0x00] = .ok (.retfImm h32 8) [] := by decide
theorem test_decode_iret : decode true [0xCF] = .ok (.iret h32) [] := by decide
theorem test_decode_intN : decode true [0xCD, 0x80] = .ok (.intN h32 0x80) [] := by decide
theorem test_decode_int3 : decode true [0xCC] = .ok (.int3 h32) [] := by decide
theorem test_decode_into : decode true [0xCE] = .ok (.into h32) [] := by decide
theorem test_decode_sysenter : decode true [0x0F, 0x34] = .ok (.sysenter h32) [] := by decide
theorem test_decode_sysexit : decode true [0x0F, 0x35] = .ok (.sysexit h32) [] := by decide
theorem test_decode_sgdt : decode true [0x0F, 0x01, 0x03] = .ok (.sgdt h32 atEbx) [] := by decide
/-- `67H` in a 32-bit segment: mod 10, reg 001, rm 010; disp16. -/
theorem test_decode_sidt : decode true [0x67, 0x0F, 0x01, 0x8A, 0x34, 0x12] =
    .ok (.sidt ⟨[.addrSize], .s32⟩ (.ind16 .bpsi (.d16 0x1234))) [] := by decide
theorem test_decode_sldt : decode true [0x0F, 0x00, 0xC0] = .ok (.sldt h32 (.reg .eax)) [] := by decide
theorem test_decode_str : decode true [0x0F, 0x00, 0xC8] = .ok (.str h32 (.reg .eax)) [] := by decide
/-- 16-bit segment: mod 00, reg 010, rm 110; disp16. -/
theorem test_decode_lgdt : decode false [0x0F, 0x01, 0x16, 0x00, 0x05] = .ok (.lgdt ⟨[], .s16⟩ (.abs16 0x500)) [] := by decide
/-- mod 00, reg 011, rm 101; disp32. -/
theorem test_decode_lidt : decode true [0x0F, 0x01, 0x1D, 0x00, 0x05, 0x00, 0x00] = .ok (.lidt h32 (.abs32 0x500)) [] := by decide
theorem test_decode_lldt : decode true [0x0F, 0x00, 0xD0] = .ok (.lldt h32 (.reg .eax)) [] := by decide
theorem test_decode_ltr : decode true [0x0F, 0x00, 0xD8] = .ok (.ltr h32 (.reg .eax)) [] := by decide
theorem test_decode_refuses_mov_cs : decode true [0x8E, 0xC8] = .illegal .invalidSegReg := by decide
theorem test_decode_refuses_lds_reg : decode true [0xC5, 0xC3] = .illegal .registerOperand := by decide
theorem test_decode_refuses_five_prefixes :
    decode true [0x66, 0x66, 0x66, 0x66, 0x66, 0x1F] = .illegal .tooManyPrefixes := by decide
theorem test_decode_refuses_unlisted : decode true [0x90] = .illegal .unknownOpcode := by decide

/-! ### Descriptors and limits (95 sections 2.2, 2.4) -/

theorem test_desc_all_fields : Desc.ofBits 0x129AD3345678BCDE =
    { base := 0x12345678, limit20 := 0xABCDE, type := 3, s := true, dpl := 2, p := true, avl := true,
      l := false, db := false, g := true } := by decide
theorem test_effLimit : effLimit (Desc.ofBits 0x129AD3345678BCDE) = 0xABCDEFFF := by decide
theorem test_expand_down : (inLimit (Desc.ofBits 0x000096020000EFFF) 0xEFFF 1,
    inLimit (Desc.ofBits 0x000096020000EFFF) 0xF000 1, inLimit (Desc.ofBits 0x000096020000EFFF) 0xFFFF 2)
    = (false, true, false) := by decide
theorem test_limit_top : (inLimit (Desc.ofBits 0x00CF92000000FFFF) 0xFFFFFFFC 4,
    inLimit (Desc.ofBits 0x00CF92000000FFFF) 0xFFFFFFFD 4) = (true, false) := by decide

/-! ### One step of each instruction (95 sections 2.6 to 2.9) -/

theorem test_movSregRm_loads : after (stepOn (withEax 0x0010) [0x8E, 0xD8])
    (fun t => (t.seg.ds, Memory.read t.mem 0x1015, t.pc)) = some (seg 0x10 0x00CF93000000FFFF, 0x93, 0x7002) := by
  decide
theorem test_movSregRm_not_present : faultOf (stepOn (withEax 0x0038) [0x8E, 0xD0]) = some (.ss (some 0x0038)) := by
  decide
theorem test_movRmSreg : after (stepOn (fixture [] []) [0x8C, 0x0B]) (bytesAt 0x500 2) = some [0x08, 0x00] := by
  decide
theorem test_popEs : after (stepOn (fixture [] (cells 0x6000 [0x08, 0x00, 0xEE, 0xEE])) [0x07])
    (fun t => (t.seg.es, t.regs.esp)) = some (seg 0x08 0x00CF9B000000FFFF, 0x6004) := by decide
theorem test_popSs_null : faultOf (stepOn (fixture [] []) [0x17]) = some (.gp (some 0)) := by decide
theorem test_popDs_16 : after (stepOn (fixture [] (cells 0x6000 [0x10])) [0x66, 0x1F])
    (fun t => (t.seg.ds.sel, t.regs.esp, t.pc)) = some (0x10, 0x6002, 0x7002) := by decide
theorem test_popFs : after (stepOn (fixture [] (cells 0x6000 [0x04])) [0x0F, 0xA1])
    (fun t => (t.seg.fs.d.base, t.regs.esp)) = some (0x00100000, 0x6004) := by decide
/-- 40 R157 and the row `DS` <- 0050H's kind, into `GS`. -/
theorem test_popGs : after (stepOn (fixture [] (cells 0x6000 [0x50])) [0x0F, 0xA9])
    (fun t => (t.seg.gs.d.type, t.regs.esp)) = some (1, 0x6004) := by decide
theorem test_lds : after (stepOn (fixture (cells 0x500 [0x78, 0x56, 0x34, 0x12, 0x10, 0x00]) []) [0xC5, 0x33])
    (fun t => (t.regs.esi, t.seg.ds.sel)) = some (0x12345678, 0x10) := by decide
theorem test_lds_not_present : faultOf (stepOn (fixture (cells 0x500 [0x78, 0x56, 0x34, 0x12, 0x38, 0x00]) [])
    [0xC5, 0x33]) = some (.np (some 0x38)) := by decide
theorem test_les_null : after (stepOn { fixture [] [] with regs := ⟨0, 0, 0, 0, 0x6000, 0, 0x500, 1⟩ } [0xC4, 0x3E])
    (fun t => (t.regs.edi, t.seg.es.sel, t.seg.es.valid)) = some (0, 0, false) := by decide
theorem test_lss : after (stepOn (fixture (cells 0x500 [0x00, 0xF0, 0x00, 0x00, 0x10]) []) [0x0F, 0xB2, 0x23])
    (fun t => (t.regs.esp, t.seg.ss.sel)) = some (0xF000, 0x10) := by decide
theorem test_lfs : after (stepOn (fixture (cells 0x500 [0x44, 0x33, 0x22, 0x11, 0x04]) []) [0x0F, 0xB4, 0x03])
    (fun t => (t.regs.eax, t.seg.fs.d.base)) = some (0x11223344, 0x00100000) := by decide
theorem test_lgs : after (stepOn (fixture (cells 0x500 [0x44, 0x33, 0x22, 0x11, 0x50]) []) [0x0F, 0xB5, 0x03])
    (fun t => (t.regs.eax, t.seg.gs.d.type)) = some (0x11223344, 1) := by decide
theorem test_jmpPtr : after (stepOn (fixture [] []) [0xEA, 0x00, 0x90, 0x00, 0x00, 0x08, 0x00])
    (fun t => (t.pc, t.seg.cs, Memory.read t.mem 0x100D)) = some (0x9000, seg 0x08 0x00CF9B000000FFFF, 0x9B) := by
  decide
theorem test_jmpPtr_gate : refusalOf (stepOn (fixture [] []) [0xEA, 0x00, 0x00, 0x00, 0x00, 0x60, 0x00]) =
    some (.gateOrTask 12) := by decide
theorem test_jmpMem_conforming : after (stepOn (fixture3 (cells 0x500 [0x10, 0x00, 0x00, 0x00, 0x48]) []) [0xFF, 0x2B])
    (fun t => (t.pc, t.seg.cs.sel, t.seg.cs.d.dpl, t.cpl)) = some (0x10, 0x4B, 0, 3) := by decide
theorem test_callPtr : after (stepOn { fixture [] [] with regs := ⟨0, 0, 0, 0, 0x10000, 0, 0, 0⟩ }
    [0x9A, 0x00, 0x90, 0x00, 0x00, 0x08, 0x00])
    (fun t => (t.regs.esp, t.pc, t.seg.cs.sel)) = some (0xFFF8, 0x9000, 0x08) := by decide
/-- 41 R183 with 16-bit operand size, where no byte of the pushed slots is free. -/
theorem test_callPtr_16 : after (stepOn { fixture [] [] with regs := ⟨0, 0, 0, 0, 0x10000, 0, 0, 0⟩ }
    [0x66, 0x9A, 0x00, 0x90, 0x08, 0x00]) (fun t => (bytesAt 0xFFFC 4 t, t.regs.esp)) =
    some ([0x06, 0x70, 0x08, 0x00], 0xFFFC) := by decide
theorem test_callPtr_stack_room : faultOf (stepOn { fixture [] [] with
    seg := { (fixture [] []).seg with ss := seg 0x58 0x000097020000EFFF }, regs := ⟨0, 0, 0, 0, 0xF004, 0, 0, 0⟩ }
    [0x9A, 0x00, 0x90, 0x00, 0x00, 0x08, 0x00]) = some (.ss (some 0)) := by decide
theorem test_callMem : after (stepOn (fixture (cells 0x500 [0x00, 0x90, 0x00, 0x00, 0x08]) []) [0xFF, 0x1B])
    (fun t => (t.regs.esp, t.pc, t.seg.cs.sel)) = some (0x5FF8, 0x9000, 0x08) := by
  decide
/-- R183 with R70 and R86: at `CPL` 3 with `P_AC` the eight bytes of both slots must be aligned to 8. -/
theorem test_callMem_room_alignment : faultOf (stepOn { fixture3 (cells 0x500 [0x00, 0x90, 0x00, 0x00, 0x1B]) [] with
    regs := ⟨0, 0, 0, 0x500, 0x6004, 0, 0, 0⟩, par := { State.reset.par with ac := true } } [0xFF, 0x1B]) =
    some (.ss (some 0)) := by decide
theorem test_retf : after (stepOn (fixture [] (cells 0x6000 [0x07, 0x70, 0x00, 0x00, 0x08])) [0xCB])
    (fun t => (t.pc, t.seg.cs.sel, t.regs.esp)) = some (0x7007, 0x08, 0x6008) := by decide
theorem test_retf_outer : refusalOf (stepOn (fixture [] (cells 0x6000 [0x00, 0x04, 0x00, 0x00, 0x1B])) [0xCB]) =
    some .outerReturn := by decide
theorem test_retfImm : after (stepOn (fixture [] (cells 0x6000 [0x07, 0x70, 0x00, 0x00, 0x08])) [0xCA, 0x08, 0x00])
    (fun t => (t.pc, t.regs.esp)) = some (0x7007, 0x6010) := by decide
theorem test_iret : refusalOf (stepOn (fixture [] []) [0xCF]) = some .interruptReturn := by decide
theorem test_intN : refusalOf (stepOn (fixture [] []) [0xCD, 0x80]) = some (.softwareInterrupt 0x80) := by
  decide
theorem test_int3 : refusalOf (stepOn (fixture [] []) [0xCC]) = some .breakpointInterrupt := by decide
theorem test_into : refusalOf (stepOn (fixture [] []) [0xCE]) = some .overflowInterrupt := by decide
theorem test_sysenter : refusalOf (stepOn (fixture [] []) [0x0F, 0x34]) = some .systemEntry := by decide
theorem test_sysexit : refusalOf (stepOn (fixture [] []) [0x0F, 0x35]) = some .systemExit := by decide
theorem test_sgdt : after (stepOn { fixture3 [] [] with regs := ⟨0, 0, 0, 0x3002, 0, 0, 0, 0⟩ } [0x0F, 0x01, 0x03])
    (bytesAt 0x3002 6) = some [0x67, 0x00, 0x00, 0x10, 0x00, 0x00] := by decide
theorem test_sgdt_misaligned : faultOf (stepOn { fixture3 [] [] with
    regs := ⟨0, 0, 0, 0x3000, 0, 0, 0, 0⟩, par := { State.reset.par with ac := true } } [0x0F, 0x01, 0x03]) =
    some (.ac (some 0)) := by decide
theorem test_sidt : after (stepOn (fixture [] []) [0x0F, 0x01, 0x0B]) (bytesAt 0x500 6) =
    some [0xFF, 0x07, 0x00, 0x20, 0x00, 0x00] := by decide
theorem test_sldt : after (stepOn (withEax 0xFFFFFFFF) [0x66, 0x0F, 0x00, 0xC0]) (fun t => t.regs.eax) =
    some 0xFFFF0028 := by decide
theorem test_str : after (stepOn (fixture [] []) [0x0F, 0x00, 0x0B]) (bytesAt 0x500 2) = some [0x30, 0x00] := by
  decide
theorem test_lgdt : after (stepOn (fixture (cells 0x500 [0x17, 0x00, 0x00, 0x08]) []) [0x0F, 0x01, 0x13])
    (fun t => t.gdtr) = some ⟨0x800, 0x17⟩ := by decide
theorem test_lgdt_user : faultOf (stepOn (fixture3 [] []) [0x0F, 0x01, 0x13]) = some (.gp (some 0)) := by decide
/-- 42 R205 with 16-bit operand size: the base's sixth byte is not loaded. -/
theorem test_lidt_16 : after (stepOn (fixture (cells 0x500 [0xFF, 0x07, 0x00, 0x20, 0x00, 0xAA]) []) [0x66, 0x0F, 0x01, 0x1B])
    (fun t => t.idtr) = some ⟨0x2000, 0x7FF⟩ := by decide
theorem test_lldt : after (stepOn (withEax 0x28) [0x0F, 0x00, 0xD0]) (fun t => (t.ldtr, t.mem.length)) =
    some (seg 0x28 0x0000820040000027, (withEax 0).mem.length + 2) := by decide
theorem test_lldt_local : faultOf (stepOn (withEax 0x04) [0x0F, 0x00, 0xD0]) = some (.gp (some 0x04)) := by decide
theorem test_ltr : after (stepOn (withEax 0x30) [0x0F, 0x00, 0xD8])
    (fun t => (t.tr.sel, t.tr.d.type, Memory.read t.mem 0x1035)) = some (0x30, 11, 0x8B) := by decide
theorem test_ltr_null : faultOf (stepOn (withEax 0) [0x0F, 0x00, 0xD8]) = some (.gp (some 0)) := by decide
theorem test_rom_hangs : after (stepOn (romFixture 0x10) [0x8E, 0xD8])
    (fun t => (t.hung, t.pc, t.seg.ds.sel)) = some (true, 0x7000, 0x10) := by decide

/-! ### What memory keeps and what a program needs to run -/

theorem test_fixture_memory_wf : Memory.wf (fixture [] []).mem := by decide
theorem test_reset_runs_placed_word : after (step (State.reset.withFetchWord 16 0xD88E)) (fun t => (t.seg.ds.valid, t.pc)) =
    some (false, 0xFFF2) := by decide

/-! ### Witnesses: something meets the hypotheses of each statement, clause by clause -/

/-- The fixture with a null LDTR. -/
def noLdt : State := { fixture [] [] with ldtr := ⟨0, false, default⟩ }

/-- The fixture with words on the stack. -/
def onStack (bs : List Byte) : State := fixture [] (cells 0x6000 bs)

/-- The fixture with a far pointer, or any bytes, at `[EBX]`. -/
def atPtr (bs : List Byte) : State := fixture (cells 0x500 bs) []

/-- A stack that returns to 0008H:00007007H. -/
def retStack : State := onStack [0x07, 0x70, 0, 0, 8]

/-- The fixture with code at the fetch. -/
def withCode (bs : List Byte) : State := (fixture [] []).placeBytes 0 bs

theorem witness_DecodeOfEncode :
    (Instr.movSregRm ⟨[.opSize, .addrSize, .seg .fs, .seg .gs], .s16⟩ .gs (.mem (.ind16 .bp (.d8 0xFF)))).wf true = true ∧
    (Instr.callPtr ⟨[], .s16⟩ 0xFFFF 0xFFFF).wf false = true := by decide

theorem witness_IllegalFormsRefused :
    field3 3 0x08 = 1 ∧ field3 3 0x30 = 6 ∧ field3 3 0x3F = 7 ∧ topField 0xC0 = 3 ∧
    (topField 0xD8 = 3 ∧ field3 3 0xD8 = 3) ∧ (topField 0xE8 = 3 ∧ field3 3 0xE8 = 5) ∧
    (topField 0xC0 = 3 ∧ field3 3 0xC0 = 0) := by decide

theorem witness_StepRunsDecodedInstruction :
    (withCode [0x8E, 0xD8]).hung = false ∧
    decode (withCode [0x8E, 0xD8]).seg.cs.d.db [0x8E, 0xD8] = .ok (.movSregRm h32 .ds (.reg .eax)) [] ∧
    ∀ k b, [0x8E, 0xD8][k]? = some b → (withCode [0x8E, 0xD8]).fetchByte k = .ok b := by
  refine ⟨by decide, by decide, ?_⟩
  intro k b h
  match k with
  | 0 => cases h; rfl
  | 1 => cases h; rfl
  | k + 2 => simp at h

/-- What `HangsOnRom` asks of a selector of a code segment and of one of a data segment. -/
theorem witness_RomDescriptorHangs :
    (Desc.ofBits 0x00CF92000000FFFF).accessed = false ∧ (Desc.ofBits 0x00CF9A000000FFFF).accessed = false ∧
    (let s := romFixture 0x10
     s.readRm16 h32 (.reg .eax) = .ok 0x10 ∧ DescAt s 0x10 0x1010 0x00CF92000000FFFF ∧
     Loadable s .ds 0x10 (Desc.ofBits 0x00CF92000000FFFF) ∧ s.kindAt ((0x1010 : Word) + 5).toNat = .rom) ∧
    (let s := gdtIn .rom (onStack [0x10])
     s.segRead .ss s.sp (sizeBytes .s32) = .ok 0x10 ∧ DescAt s (BitVec.ofNat 16 0x10) 0x1010 0x00CF92000000FFFF ∧
     ∀ x ∈ allSregs, x ≠ .cs → Loadable s x (BitVec.ofNat 16 0x10) (Desc.ofBits 0x00CF92000000FFFF)) ∧
    (let s := gdtIn .rom (atPtr [1, 0, 0, 0, 0x10])
     s.readFarPtr h32 atEbx = .ok (0x10, 1) ∧ DescAt s 0x10 0x1010 0x00CF92000000FFFF) ∧
    (let s := gdtIn .rom (atPtr [0, 0x90, 0, 0, 8])
     s.readFarPtr h32 atEbx = .ok (8, 0x9000) ∧ DescAt s 8 0x1008 0x00CF9A000000FFFF ∧
     Enterable s 8 0x9000 (Desc.ofBits 0x00CF9A000000FFFF) ∧ s.kindAt ((0x1008 : Word) + 5).toNat = .rom ∧
     CallRoom s .s32 ∧ CallPushes s .s32 [0x5FFC, 0x5FFD, 0x5FFE, 0x5FFF] [0x5FF8, 0x5FF9, 0x5FFA, 0x5FFB]) ∧
    (let s := gdtIn .rom retStack
     s.segRead .ss s.sp (sizeBytes .s32) = .ok 0x7007 ∧
     s.segRead .ss (s.spPlus (sizeBytes .s32)) (sizeBytes .s32) = .ok 8 ∧
     DescAt s (BitVec.ofNat 16 8) 0x1008 0x00CF9A000000FFFF ∧
     Returnable s (BitVec.ofNat 16 8) (BitVec.ofNat 32 0x7007) (Desc.ofBits 0x00CF9A000000FFFF)) ∧
    ({ romFixture 0x10 with hung := true } : State).hung = true :=
  ⟨by decide, by decide, ⟨rfl, by decide, by decide, by decide⟩, ⟨rfl, by decide, by decide⟩, ⟨rfl, by decide⟩,
   ⟨rfl, by decide, by decide, by decide, by decide, rfl, rfl⟩, ⟨rfl, rfl, by decide, by decide⟩, rfl⟩

theorem witness_SelectorFieldsCompose : (fixture [] []).readDescriptor 0x10 =
    .ok (0x1010, Desc.ofBits 0x00CF92000000FFFF) := by decide

theorem witness_NullSelectorValues : selIndex 4 = 0 ∧ selTI 4 = true ∧ selIndex 7 = 0 ∧ selTI 7 = true ∧
    (fixture [] []).readDescriptor 4 = .ok (0x4000, Desc.ofBits 0x004092100000FFFF) := by decide

/-- A selector of index 8191, and both sides of the equivalence: a limit of FFFFH and the fixture's. -/
theorem witness_SelectorTableOffset : selIndex 0xFFF8 = 8191 ∧ selTI 0xFFF8 = false ∧
    State.reset.gdtr.limit.toNat = 65535 ∧ (fixture [] []).gdtr.limit.toNat ≠ 65535 := by decide

theorem witness_CodeAndDataTypes : (Desc.ofBits 0x00CF92000000FFFF).s = true ∧
    ((Desc.ofBits 0x00CF98000000FFFF).s = true ∧ 8 ≤ (Desc.ofBits 0x00CF98000000FFFF).type.toNat) := by decide

theorem witness_SystemTypes : (Desc.ofBits 0x0000890080000067).s = false := by decide

theorem witness_EffectiveLimitScaling : (Desc.ofBits 0x0040920000000000).g = false ∧
    (Desc.ofBits 0x00CF92000000FFFF).g = true := by decide

theorem witness_LimitCheckCoversEveryByte : 1 ≤ 1 ∧ (Desc.ofBits 0x00CF92000000FFFF).expandDown = false ∧
    (Desc.ofBits 0x000096020000EFFF).expandDown = true ∧ (Desc.ofBits 0x00CF96000000FFEF).expandDown = true := by decide

theorem witness_NullRegisterUseFaults :
    segOf ⟨[.seg .es], .s32⟩ atEbx ∈ dataSregs ∧
    ((fixture [] []).sreg (segOf ⟨[.seg .es], .s32⟩ atEbx)).valid = false := by decide

/-- The fixture at `CPL` 3 with alignment checks, `EBX` and `ESP` odd. -/
def oddFixture : State :=
  { fixture3 [] [] with regs := ⟨0, 0, 0, 0x501, 0x6001, 0, 0, 0⟩, par := { State.reset.par with ac := true } }

/-- The fixture with a return frame whose second slot is past the limit of `SS`. -/
def shortStack : State :=
  { fixture [] [] with seg := { (fixture [] []).seg with ss := seg 0x0010 0x0040930000006003 } }

/-- `[FFFFFFFFH]`, `[FFFFFFFEH]` and `[FFFFFFFCH]`, whose accesses pass the limit at the first or second part. -/
theorem witness_NullRegisterUseFaults_limit :
    (let s := fixture [] []
     s.cpl = 0 ∧ ¬ SegAllows s .ds (s.ea (.abs32 0xFFFFFFFF)).toNat 2 .write ∧
     ¬ SegAllows s .ds (s.ea (.abs32 0xFFFFFFFF)).toNat 2 .read ∧
     ¬ SegAllows s .ds (s.ea (.abs32 0xFFFFFFFF)).toNat (sizeBytes .s32) .read ∧
     ¬ SegAllows s .ds ((s.ea (.abs32 0xFFFFFFFE)).toNat + 2) 4 .write ∧
     ¬ SegAllows s .ds ((s.ea (.abs32 0xFFFFFFFE)).toNat + 2) 4 .read ∧
     ¬ SegAllows s .ds ((s.ea (.abs32 0xFFFFFFFC)).toNat + sizeBytes .s32) 2 .read ∧
     ¬ SegAllows s (segOf ⟨[.seg .cs], .s32⟩ atEbx) (s.ea atEbx).toNat 2 .write) ∧
    ¬ SegAllows { fixture [] [] with regs := ⟨0, 0, 0, 0, 0xFFFFFFFD, 0, 0, 0⟩ } .ss 0xFFFFFFFD (sizeBytes .s32) .read ∧
    ¬ SegAllows shortStack .ss (shortStack.spPlus (sizeBytes .s32)) (sizeBytes .s32) .read := by decide

/-- The first parts of those accesses pass. -/
theorem witness_NullRegisterUseFaults_first :
    (fixture [] []).segWriteTo .ds 0xFFFFFFFE 2 = .ok [0xFFFFFFFE, 0xFFFFFFFF] ∧
    (fixture [] []).segRead .ds 0xFFFFFFFE 2 = .ok 0 ∧ (fixture [] []).segRead .ds 0xFFFFFFFC 4 = .ok 0 ∧
    shortStack.segRead .ss shortStack.sp (sizeBytes .s32) = .ok 0 := ⟨rfl, rfl, rfl, rfl⟩

/-- Misaligned accesses: at `[EBX]`, of the base of a pseudo-descriptor at `[500H]`, and of the stack. -/
theorem witness_NullRegisterUseFaults_alignment :
    (SegAllows oddFixture .ds (oddFixture.ea atEbx).toNat 2 .write ∧
      Misaligned oddFixture (oddFixture.linAddr .ds (oddFixture.ea atEbx).toNat) 2) ∧
    (SegAllows oddFixture .ds (oddFixture.ea atEbx).toNat (sizeBytes .s32) .read ∧
      Misaligned oddFixture (oddFixture.linAddr .ds (oddFixture.ea atEbx).toNat) (sizeBytes .s32)) ∧
    (SegAllows oddFixture .ds ((oddFixture.ea (.abs32 0x500)).toNat + 2) 4 .write ∧
      Misaligned oddFixture (oddFixture.linAddr .ds ((oddFixture.ea (.abs32 0x500)).toNat + 2)) 4) ∧
    (SegAllows oddFixture .ss oddFixture.sp (sizeBytes .s32) .read ∧
      Misaligned oddFixture (oddFixture.linAddr .ss oddFixture.sp) (sizeBytes .s32)) := by decide

theorem witness_NullRegisterUseFaults_base :
    oddFixture.segWriteTo .ds (oddFixture.ea (.abs32 0x500)).toNat 2 = .ok [0x500, 0x501] := rfl

theorem witness_FlatSegmentIdentity :
    let r := (fixture [] []).sreg .ds
    r.valid = true ∧ r.d.base = 0 ∧ r.d.limit20 = 0xFFFFF ∧ r.d.g = true ∧ r.d.expandDown = false ∧
    typeAllows r.d .write = true ∧ 1 ≤ 4 ∧ 0xFFFFFFFC + 4 ≤ 2 ^ 32 ∧
    ¬ Misaligned (fixture [] []) (BitVec.ofNat 32 0xFFFFFFFC) 4 := by decide

theorem witness_LinearReadLittleEndian : (fixture [] []).par.paging = false := by decide

theorem witness_StoreThenReadBack :
    (fixture [] []).par.paging = false ∧ (fixture [] []).segWriteTo .ds 0x500 2 = .ok [0x500, 0x501] ∧
    ∀ a ∈ [0x500, 0x501], (fixture [] []).kindAt a = .ram := ⟨by decide, rfl, by decide⟩

theorem witness_StepKeepsWhatIsNotRam :
    (∃ t, stepOn (romFixture 0x13) [0x8C, 0x0B] = .next t ∧ t.pc = 0x7002) ∧
    ((romFixture 0x13).placeBytes 0 [0x8C, 0x0B]).kindAt 0x1000 ≠ .ram := ⟨next_of_after (by decide), by decide⟩

theorem witness_DescriptorReadResult :
    DescAt (fixture [] []) 0x10 0x1010 0x00CF92000000FFFF ∧ DescAt (fixture [] []) 0x60 0x1060 0x0000EC0000081000 ∧
    DescAt (fixture [] []) 0x0F 0x4008 0x00CFF2000000FFFF := by decide

/-- A GDT entry past the limit, an absent LDT and a GDT in IO memory, reached by each kind of instruction. -/
theorem witness_SelectorBeyondTableFaults :
    (isNull 0x68 = false ∧ selTI 0x68 = false ∧ BeyondTable (withEax 0x68) 0x68 ∧ isNull 4 = false ∧
      selTI 4 = true ∧ BeyondTable noLdt 4 ∧ EntryNotInMemory (gdtIn .io (withEax 8)) 8 0x1008) ∧
    ((withEax 0x68).readRm16 h32 (.reg .eax) = .ok 0x68 ∧ (withEax 0x68).cpl = 0) ∧
    (noLdt.readRm16 h32 (.mem (.abs32 0x1028)) = .ok 0x27) ∧
    ((gdtIn .io (withEax 8)).readRm16 h32 (.reg .eax) = .ok 8 ∧ (gdtIn .io (withEax 8)).cpl = 0) ∧
    (let s := onStack [0x68, 0, 0, 0, 0x68]
     s.segRead .ss s.sp (sizeBytes .s32) = .ok 0x68 ∧
     s.segRead .ss (s.spPlus (sizeBytes .s32)) (sizeBytes .s32) = .ok 0x68 ∧ BeyondTable s (BitVec.ofNat 16 0x68)) ∧
    (let s := atPtr [0, 0, 0, 0, 0x68]
     s.readFarPtr h32 atEbx = .ok (0x68, 0) ∧ BeyondTable s 0x68) :=
  ⟨by decide, ⟨rfl, rfl⟩, rfl, ⟨rfl, rfl⟩, ⟨rfl, rfl, by decide⟩, rfl, by decide⟩

/-- What `MovSregDecision` asks of a selector in `EAX`. -/
abbrev Decides (sel : Half) (la : Word) (v : BitVec 64) : Prop :=
  isNull sel = false ∧ DescAt (withEax (sel.setWidth 32)) sel la v

theorem witness_MovSregDecision :
    (withEax 0x28).readRm16 h32 (.reg .eax) = .ok 0x28 ∧ SReg.ds ≠ .cs ∧
    (Decides 0x28 0x1028 0x0000820040000027 ∧ (Desc.ofBits 0x0000820040000027).s = false) ∧
    (Decides 0x13 0x1010 0x00CF92000000FFFF ∧
      ¬ TypeLoadable (withEax 0x13) .ds 0x13 (Desc.ofBits 0x00CF92000000FFFF)) ∧
    (Decides 0x38 0x1038 0x00CF12000000FFFF ∧
      TypeLoadable (withEax 0x38) .ss 0x38 (Desc.ofBits 0x00CF12000000FFFF) ∧
      (Desc.ofBits 0x00CF12000000FFFF).p = false) ∧
    (Decides 0x10 0x1010 0x00CF92000000FFFF ∧ Loadable (withEax 0x10) .ds 0x10 (Desc.ofBits 0x00CF92000000FFFF)) ∧
    (DescAt (romFixture 0x10) 0x10 0x1010 0x00CF92000000FFFF ∧
      (romFixture 0x10).kindAt ((0x1010 : Word) + 5).toNat = .rom) :=
  ⟨rfl, by decide, by decide, by decide, by decide, by decide, by decide⟩

/-- The same of a popped selector and of one from a far pointer, null, past the table and not present. -/
theorem witness_MovSregDecision_other :
    (let s := onStack [0x38]
     s.segRead .ss s.sp (sizeBytes .s32) = .ok 0x38 ∧ isNull (BitVec.ofNat 16 0x38) = false ∧
     DescAt s (BitVec.ofNat 16 0x38) 0x1038 0x00CF12000000FFFF ∧ (Desc.ofBits 0x00CF12000000FFFF).p = false ∧
     TypeLoadable s .ss (BitVec.ofNat 16 0x38) (Desc.ofBits 0x00CF12000000FFFF)) ∧
    (let s := atPtr [1, 0, 0, 0, 0x40]
     s.readFarPtr h32 atEbx = .ok (0x40, 1) ∧ isNull 0x40 = false ∧ DescAt s 0x40 0x1040 0x00CF98000000FFFF ∧
     ¬ TypeLoadable s .es 0x40 (Desc.ofBits 0x00CF98000000FFFF)) ∧
    ((onStack [3]).segRead .ss (onStack [3]).sp (sizeBytes .s32) = .ok 3 ∧ isNull (BitVec.ofNat 16 3) = true) ∧
    BeyondTable (withEax 0x68) 0x68 ∧ EntryNotInMemory (gdtIn .io (withEax 8)) 8 0x1008 :=
  ⟨⟨rfl, by decide, by decide, by decide, by decide⟩, ⟨rfl, by decide, by decide, by decide⟩, ⟨rfl, by decide⟩,
   by decide, by decide⟩

theorem witness_MovSregLoadsDescriptor :
    (withEax 0x10).readRm16 h32 (.reg .eax) = .ok 0x10 ∧
    DescAt (withEax 0x10) 0x10 0x1010 0x00CF92000000FFFF ∧
    (∀ x ∈ allSregs, x ≠ .cs → Loadable (withEax 0x10) x 0x10 (Desc.ofBits 0x00CF92000000FFFF)) ∧
    AccessedWritable (withEax 0x10) 0x1010 (Desc.ofBits 0x00CF92000000FFFF) := ⟨rfl, by decide, by decide, by decide⟩

theorem witness_NullSelectorLoads :
    (∀ x ∈ dataSregs, (withEax 3).readRm16 h32 (.reg .eax) = .ok 3 ∧ isNull 3 = true) ∧
    ((onStack [3]).segRead .ss (onStack [3]).sp (sizeBytes .s32) = .ok 3 ∧ isNull (BitVec.ofNat 16 3) = true) ∧
    ((atPtr [9, 0, 0, 0, 1]).readFarPtr h32 atEbx = .ok (1, 9) ∧ isNull 1 = true) :=
  ⟨fun _ _ => ⟨rfl, by decide⟩, ⟨rfl, by decide⟩, rfl, by decide⟩

theorem witness_NullStackSelectorFaults :
    ((withEax 3).readRm16 h32 (.reg .eax) = .ok 3 ∧ isNull 3 = true) ∧
    ((onStack []).segRead .ss (onStack []).sp (sizeBytes .s16) = .ok 0 ∧ isNull (BitVec.ofNat 16 0) = true) ∧
    ((atPtr []).readFarPtr h32 atEbx = .ok (0, 0) ∧ isNull 0 = true) :=
  ⟨⟨rfl, by decide⟩, ⟨rfl, by decide⟩, rfl, by decide⟩

theorem witness_PopsLoadDescriptor :
    (onStack [0x10]).segRead .ss (onStack [0x10]).sp (sizeBytes .s32) = .ok 0x10 ∧
    DescAt (onStack [0x10]) (BitVec.ofNat 16 0x10) 0x1010 0x00CF92000000FFFF ∧
    (∀ x ∈ allSregs, x ≠ .cs → Loadable (onStack [0x10]) x (BitVec.ofNat 16 0x10) (Desc.ofBits 0x00CF92000000FFFF)) ∧
    AccessedWritable (onStack [0x10]) 0x1010 (Desc.ofBits 0x00CF92000000FFFF) := ⟨rfl, by decide, by decide, by decide⟩

theorem witness_FarPointerLoads :
    (atPtr [1, 0, 0, 0, 0x10]).readFarPtr h32 atEbx = .ok (0x10, 1) ∧
    DescAt (atPtr [1, 0, 0, 0, 0x10]) 0x10 0x1010 0x00CF92000000FFFF ∧
    (∀ x ∈ allSregs, x ≠ .cs → Loadable (atPtr [1, 0, 0, 0, 0x10]) x 0x10 (Desc.ofBits 0x00CF92000000FFFF)) ∧
    AccessedWritable (atPtr [1, 0, 0, 0, 0x10]) 0x1010 (Desc.ofBits 0x00CF92000000FFFF) :=
  ⟨rfl, by decide, by decide, by decide⟩

theorem witness_MovFromSregResult :
    (fixture [] []).segWriteTo (segOf h32 atEbx) ((fixture [] []).ea atEbx).toNat 2 = .ok [0x500, 0x501] := rfl

theorem witness_TableSelectorStores :
    (fixture3 [] []).segWriteTo (segOf h16 atEbx) ((fixture3 [] []).ea atEbx).toNat 2 = .ok [0x500, 0x501] := rfl

theorem witness_FarJumpDecision : isNull 0 = true ∧ isNull 0x60 = false ∧
    DescAt (fixture [] []) 0x60 0x1060 0x0000EC0000081000 ∧ DescAt (fixture [] []) 0x28 0x1028 0x0000820040000027 ∧
    DescAt (fixture [] []) 0x10 0x1010 0x00CF92000000FFFF ∧
    (DescAt (fixture [] []) 0x0B 0x1008 0x00CF9A000000FFFF ∧
      ¬ EnterPriv (fixture [] []) 0x0B (Desc.ofBits 0x00CF9A000000FFFF)) ∧
    DescAt (fixture [] []) 0x40 0x1040 0x00CF98000000FFFF ∧ BeyondTable (fixture [] []) 0x68 ∧
    EntryNotInMemory (gdtIn .none (fixture [] [])) 8 0x1008 := by decide

/-- Room for the slots of a far `CALL`, and none at the bottom of the stack or with a misaligned one. -/
theorem witness_FarJumpDecision_room : (fixture [] []).par.paging = false ∧
    CallRoom (fixture [] []) .s32 ∧ CallRoom (fixture [] []) .s16 ∧
    ¬ CallRoom { fixture [] [] with regs := ⟨0, 0, 0, 0, 4, 0, 0, 0⟩ } .s32 ∧
    ¬ CallRoom { fixture3 [] [] with
      regs := ⟨0, 0, 0, 0, 0x6004, 0, 0, 0⟩, par := { State.reset.par with ac := true } } .s32 := by decide

theorem witness_FarJumpDecision_pushes :
    CallPushes (fixture [] []) .s32 [0x5FFC, 0x5FFD, 0x5FFE, 0x5FFF] [0x5FF8, 0x5FF9, 0x5FFA, 0x5FFB] ∧
    (atPtr [0, 0x90, 0, 0, 8]).readFarPtr h32 atEbx = .ok (8, 0x9000) := ⟨⟨rfl, rfl⟩, rfl⟩

theorem witness_FarJumpEnters :
    DescAt (fixture [] []) 0x40 0x1040 0x00CF98000000FFFF ∧
    Enterable (fixture [] []) 0x40 (immOffset .s32 0xFFFFFFFF) (Desc.ofBits 0x00CF98000000FFFF) ∧
    AccessedWritable (fixture [] []) 0x1040 (Desc.ofBits 0x00CF98000000FFFF) ∧
    (atPtr [0, 0x90, 0, 0, 8]).readFarPtr h32 atEbx = .ok (8, 0x9000) ∧
    DescAt (atPtr [0, 0x90, 0, 0, 8]) 8 0x1008 0x00CF9A000000FFFF ∧
    Enterable (atPtr [0, 0x90, 0, 0, 8]) 8 0x9000 (Desc.ofBits 0x00CF9A000000FFFF) ∧
    AccessedWritable (atPtr [0, 0x90, 0, 0, 8]) 0x1008 (Desc.ofBits 0x00CF9A000000FFFF) :=
  ⟨by decide, by decide, by decide, rfl, by decide, by decide, by decide⟩

theorem witness_FarCallEnters :
    let s := atPtr [0, 0x90, 0, 0, 8]
    s.readFarPtr h32 atEbx = .ok (8, 0x9000) ∧ DescAt s 8 0x1008 0x00CF9A000000FFFF ∧
    Enterable s 8 (immOffset .s32 0x9000) (Desc.ofBits 0x00CF9A000000FFFF) ∧
    AccessedWritable s 0x1008 (Desc.ofBits 0x00CF9A000000FFFF) ∧ CallRoom s .s32 ∧
    CallPushes s .s32 [0x5FFC, 0x5FFD, 0x5FFE, 0x5FFF] [0x5FF8, 0x5FF9, 0x5FFA, 0x5FFB] :=
  ⟨rfl, by decide, by decide, by decide, by decide, rfl, rfl⟩

theorem witness_FarReturnDecision :
    retStack.segRead .ss retStack.sp (sizeBytes .s32) = .ok 0x7007 ∧
    retStack.segRead .ss (retStack.spPlus (sizeBytes .s32)) (sizeBytes .s32) = .ok 8 ∧
    isNull (BitVec.ofNat 16 8) = false ∧ DescAt retStack (BitVec.ofNat 16 8) 0x1008 0x00CF9A000000FFFF ∧
    ((onStack [0, 4]).segRead .ss (onStack [0, 4]).sp (sizeBytes .s32) = .ok 0x400 ∧
      (onStack [0, 4]).segRead .ss ((onStack [0, 4]).spPlus (sizeBytes .s32)) (sizeBytes .s32) = .ok 0 ∧
      isNull (BitVec.ofNat 16 0) = true) ∧
    BeyondTable { retStack with gdtr := ⟨0x1000, 0x000E⟩ } (BitVec.ofNat 16 8) ∧
    EntryNotInMemory (gdtIn .io retStack) (BitVec.ofNat 16 8) 0x1008 :=
  ⟨rfl, rfl, by decide, by decide, ⟨rfl, rfl, by decide⟩, by decide, by decide⟩

theorem witness_FarReturnEnters :
    retStack.segRead .ss retStack.sp (sizeBytes .s32) = .ok 0x7007 ∧
    retStack.segRead .ss (retStack.spPlus (sizeBytes .s32)) (sizeBytes .s32) = .ok 8 ∧
    DescAt retStack (BitVec.ofNat 16 8) 0x1008 0x00CF9A000000FFFF ∧
    Returnable retStack (BitVec.ofNat 16 8) (BitVec.ofNat 32 0x7007) (Desc.ofBits 0x00CF9A000000FFFF) ∧
    AccessedWritable retStack 0x1008 (Desc.ofBits 0x00CF9A000000FFFF) := ⟨rfl, rfl, by decide, by decide, by decide⟩

/-- A far call and the far return after it both complete, with 16-bit operand size. -/
theorem witness_CallThenReturnComesBack :
    let s := atPtr [0, 0x90, 8]
    s.readFarPtr h16 atEbx = .ok (8, 0x9000) ∧ s.par.paging = false ∧ 2 * sizeBytes h16.osz ≤ s.sp ∧
    (∀ k < 2 * sizeBytes h16.osz,
      s.kindAt (s.linAddr .ss (s.sp - 2 * sizeBytes h16.osz + k)).toNat = .ram ∧
      s.loadTarget 8 ≠ some (s.linAddr .ss (s.sp - 2 * sizeBytes h16.osz + k)).toNat) ∧
    (∃ t, exec (.callMem h16 atEbx) s = .next t ∧ (t.hung, (after (exec (.retf h16) t) fun u => u.hung)) = (false, some false)) ∧
    (∃ t, exec (.callPtr h16 8 0x9000) s = .next t ∧
      (t.hung, (after (exec (.retf h16) t) fun u => u.hung)) = (false, some false)) :=
  ⟨rfl, by decide, by decide, by decide, next_of_after (by decide), next_of_after (by decide)⟩

theorem witness_PseudoDescriptorStores :
    (fixture3 [] []).segWriteTo (segOf h16 atEbx) ((fixture3 [] []).ea atEbx).toNat 2 = .ok [0x500, 0x501] ∧
    (fixture3 [] []).segWriteTo (segOf h16 atEbx) (((fixture3 [] []).ea atEbx).toNat + 2) 4 =
      .ok [0x502, 0x503, 0x504, 0x505] := ⟨rfl, rfl⟩

theorem witness_PseudoDescriptorLoads :
    (atPtr [0x17, 0, 0, 8]).cpl = 0 ∧
    (atPtr [0x17, 0, 0, 8]).segRead (segOf h32 atEbx) ((atPtr [0x17, 0, 0, 8]).ea atEbx).toNat 2 = .ok 0x17 ∧
    (atPtr [0x17, 0, 0, 8]).segRead (segOf h32 atEbx) (((atPtr [0x17, 0, 0, 8]).ea atEbx).toNat + 2) 4 = .ok 0x800 :=
  ⟨rfl, rfl, rfl⟩

theorem witness_LldtLoads :
    ((withEax 3).cpl = 0 ∧ (withEax 3).readRm16 h32 (.reg .eax) = .ok 3 ∧ isNull 3 = true) ∧
    ((withEax 0x28).readRm16 h32 (.reg .eax) = .ok 0x28 ∧ isNull 0x28 = false ∧ selTI 0x28 = false ∧
      DescAt (withEax 0x28) 0x28 0x1028 0x0000820040000027 ∧ (Desc.ofBits 0x0000820040000027).s = false ∧
      (Desc.ofBits 0x0000820040000027).type = 2 ∧ (Desc.ofBits 0x0000820040000027).p = true) :=
  ⟨⟨rfl, rfl, by decide⟩, rfl, by decide, by decide, by decide, by decide, by decide, by decide⟩

theorem witness_LtrLoads :
    (withEax 0x30).cpl = 0 ∧ (withEax 0x30).readRm16 h32 (.reg .eax) = .ok 0x30 ∧ isNull 0x30 = false ∧
    selTI 0x30 = false ∧ DescAt (withEax 0x30) 0x30 0x1030 0x0000890080000067 ∧
    (Desc.ofBits 0x0000890080000067).s = false ∧ (Desc.ofBits 0x0000890080000067).type = 9 ∧
    (Desc.ofBits 0x0000890080000067).p = true ∧ (withEax 0x30).kindAt ((0x1030 : Word) + 5).toNat = .ram :=
  ⟨rfl, rfl, by decide, by decide, by decide, by decide, by decide, by decide, by decide⟩

/-- The fixture with a TSS that is not present in GDT entry 13 and an LDT that is not present in entry 14. -/
def absentEntries : State :=
  { fixture [] [] with gdtr := ⟨0x1000, 0x0077⟩, regs := ⟨0x68, 0x70, 0, 0x500, 0x6000, 0, 0, 0⟩
                       mem := gdtCells ++ descCells 0x1068 0x0000090080000067 ++
                         descCells 0x1070 0x0000020040000027 ++ ldtCells }

theorem witness_PrivilegedLoadsTrap :
    (fixture3 [] []).cpl ≠ 0 ∧ absentEntries.cpl = 0 ∧
    ((withEax 3).readRm16 h32 (.reg .eax) = .ok 3 ∧ isNull 3 = true) ∧
    ((withEax 4).readRm16 h32 (.reg .eax) = .ok 4 ∧ isNull 4 = false ∧ selTI 4 = true) ∧
    ((withEax 8).readRm16 h32 (.reg .eax) = .ok 8 ∧ isNull 8 = false ∧ selTI 8 = false ∧
      DescAt (withEax 8) 8 0x1008 0x00CF9A000000FFFF ∧ (Desc.ofBits 0x00CF9A000000FFFF).s = true) ∧
    (absentEntries.readRm16 h32 (.reg .eax) = .ok 0x68 ∧ DescAt absentEntries 0x68 0x1068 0x0000090080000067 ∧
      (Desc.ofBits 0x0000090080000067).s = false ∧ (Desc.ofBits 0x0000090080000067).type = 9 ∧
      (Desc.ofBits 0x0000090080000067).p = false) ∧
    (absentEntries.readRm16 h32 (.reg .ecx) = .ok 0x70 ∧ DescAt absentEntries 0x70 0x1070 0x0000020040000027 ∧
      (Desc.ofBits 0x0000020040000027).s = false ∧ (Desc.ofBits 0x0000020040000027).type = 2 ∧
      (Desc.ofBits 0x0000020040000027).p = false) :=
  ⟨by decide, rfl, ⟨rfl, by decide⟩, ⟨rfl, by decide, by decide⟩, ⟨rfl, by decide, by decide, by decide, by decide⟩,
   ⟨rfl, by decide, by decide, by decide, by decide⟩, rfl, by decide, by decide, by decide, by decide⟩

/-! Frames: the instructions complete. -/

theorem witness_MovSregFrame : (∃ t, exec (.movSregRm h32 .ds (.reg .eax)) (withEax 0x10) = .next t ∧ t.pc = 0x7002) ∧
    (withEax 0x10).readRm16 h32 (.reg .eax) = .ok 0x10 := ⟨next_of_after (by decide), rfl⟩

theorem witness_PopsFrame : ∀ i ∈ [Instr.popEs h32, .popSs h32, .popDs h32, .popFs h32, .popGs h32],
    ∃ t, exec i (onStack [0x10]) = .next t ∧ t.regs.esp = 0x6004 := by
  intro i hi
  have h : after (exec i (onStack [0x10])) (fun t => t.regs.esp) = some 0x6004 := by
    revert i
    decide
  exact next_of_after h

/-- A pop through a stack segment with B = 0. -/
theorem witness_PopsFrame_16 : ({ onStack [0x10] with
      seg := { (onStack [0x10]).seg with ss := seg 0x10 0x000093000000FFFF } } : State).seg.ss.d.db = false ∧
    (∃ t, exec (.popDs h32) { onStack [0x10] with
      seg := { (onStack [0x10]).seg with ss := seg 0x10 0x000093000000FFFF } } = .next t ∧ t.regs.esp = 0x6004) :=
  ⟨by decide, next_of_after (by decide)⟩

theorem witness_FarPointerLoadsFrame :
    (∀ i ∈ [Instr.lds h32 .esi atEbx, .les h32 .esi atEbx, .lss h32 .esi atEbx, .lfs h32 .esi atEbx, .lgs h32 .esi atEbx],
      ∃ t, exec i (atPtr [1, 0, 0, 0, 0x10]) = .next t ∧ t.regs.esi = 1) ∧
    (atPtr [1, 0, 0, 0, 0x10]).readFarPtr h32 atEbx = .ok (0x10, 1) := by
  refine ⟨?_, rfl⟩
  intro i hi
  have h : after (exec i (atPtr [1, 0, 0, 0, 0x10])) (fun t => t.regs.esi) = some 1 := by
    revert i
    decide
  exact next_of_after h

theorem witness_SelectorStoresFrame :
    (∀ i ∈ [Instr.movRmSreg h16 (.reg .eax) .cs, .sldt h16 (.reg .eax), .str h16 (.reg .eax),
        .movRmSreg h32 (.mem atEbx) .cs, .sldt h32 (.mem atEbx), .str h32 (.mem atEbx)],
      ∃ t, exec i (fixture3 [] []) = .next t ∧ t.hung = false) := by
  intro i hi
  have h : after (exec i (fixture3 [] [])) (fun t => t.hung) = some false := by
    revert i
    decide
  exact next_of_after h

theorem witness_FarJumpsFrame :
    (∃ t, exec (.jmpPtr h32 8 0x9000) (atPtr [0, 0x90, 0, 0, 8]) = .next t ∧ t.pc = 0x9000) ∧
    (∃ t, exec (.jmpMem h32 atEbx) (atPtr [0, 0x90, 0, 0, 8]) = .next t ∧ t.pc = 0x9000) ∧
    (atPtr [0, 0x90, 0, 0, 8]).readFarPtr h32 atEbx = .ok (8, 0x9000) :=
  ⟨next_of_after (by decide), next_of_after (by decide), rfl⟩

theorem witness_FarCallsFrame :
    (∃ t, exec (.callPtr h32 8 0x9000) (atPtr [0, 0x90, 0, 0, 8]) = .next t ∧ t.pc = 0x9000) ∧
    (∃ t, exec (.callMem h32 atEbx) (atPtr [0, 0x90, 0, 0, 8]) = .next t ∧ t.pc = 0x9000) ∧
    (atPtr [0, 0x90, 0, 0, 8]).readFarPtr h32 atEbx = .ok (8, 0x9000) ∧
    (atPtr [0, 0x90, 0, 0, 8]).segWriteTo .ss ((atPtr [0, 0x90, 0, 0, 8]).spMinus (sizeBytes h32.osz))
      (sizeBytes h32.osz) = .ok [0x5FFC, 0x5FFD, 0x5FFE, 0x5FFF] ∧
    (atPtr [0, 0x90, 0, 0, 8]).segWriteTo .ss ((atPtr [0, 0x90, 0, 0, 8]).spMinus (2 * sizeBytes h32.osz))
      (sizeBytes h32.osz) = .ok [0x5FF8, 0x5FF9, 0x5FFA, 0x5FFB] :=
  ⟨next_of_after (by decide), next_of_after (by decide), rfl, rfl, rfl⟩

theorem witness_FarReturnsFrame :
    (∃ t, exec (.retf h32) retStack = .next t ∧ t.regs.esp = 0x6008) ∧
    (∃ t, exec (.retfImm h32 8) retStack = .next t ∧ t.regs.esp = 0x6010) ∧
    retStack.segRead .ss (retStack.spPlus (sizeBytes h32.osz)) (sizeBytes h32.osz) = .ok 8 :=
  ⟨next_of_after (by decide), next_of_after (by decide), rfl⟩

theorem witness_PseudoDescriptorStoresFrame :
    (∃ t, exec (.sgdt h32 atEbx) (fixture3 [] []) = .next t ∧ t.hung = false) ∧
    (∃ t, exec (.sidt h32 atEbx) (fixture3 [] []) = .next t ∧ t.hung = false) ∧
    (fixture3 [] []).segWriteTo (segOf h32 atEbx) ((fixture3 [] []).ea atEbx).toNat 2 = .ok [0x500, 0x501] ∧
    (fixture3 [] []).segWriteTo (segOf h32 atEbx) (((fixture3 [] []).ea atEbx).toNat + 2) 4 =
      .ok [0x502, 0x503, 0x504, 0x505] :=
  ⟨next_of_after (by decide), next_of_after (by decide), rfl, rfl⟩

theorem witness_TableLoadsFrame :
    (∃ t, exec (.lgdt h32 atEbx) (fixture [] []) = .next t ∧ t.hung = false) ∧
    (∃ t, exec (.lidt h32 atEbx) (fixture [] []) = .next t ∧ t.hung = false) ∧
    (∃ t, exec (.lldt h32 (.reg .eax)) (withEax 0x28) = .next t ∧ t.hung = false) :=
  ⟨next_of_after (by decide), next_of_after (by decide), next_of_after (by decide)⟩

theorem witness_LtrFrame : (∃ t, exec (.ltr h32 (.reg .eax)) (withEax 0x30) = .next t ∧ t.hung = false) ∧
    (withEax 0x30).readRm16 h32 (.reg .eax) = .ok 0x30 := ⟨next_of_after (by decide), rfl⟩

/-! Rules of the whole machine. -/

theorem witness_HiddenPartOnlyByLoads :
    (∃ t, exec (.lgdt h32 atEbx) (fixture [] []) = .next t ∧ t.hung = false) ∧
    ∀ x ∈ allSregs, loadsSreg (.lgdt h32 atEbx) ≠ some x := ⟨next_of_after (by decide), by decide⟩

theorem witness_StepKeepsCplAndParameters : ∃ t, step (withCode [0x07]) = .next t ∧ t.pc = 0x7001 :=
  next_of_after (by decide)

theorem witness_UserStepKeepsTableRegisters :
    ((fixture3 [] []).placeBytes 0 [0x0F, 0x01, 0x03]).cpl ≠ 0 ∧
    ∃ t, step ((fixture3 [] []).placeBytes 0 [0x0F, 0x01, 0x03]) = .next t ∧ t.pc = 0x7003 :=
  ⟨by decide, next_of_after (by decide)⟩

theorem witness_StepKeepsSegmentLegality : SegLegal (withCode [0x07]) ∧
    ∃ t, step (withCode [0x07]) = .next t ∧ t.pc = 0x7001 := ⟨by decide, next_of_after (by decide)⟩

theorem witness_StepKeepsNullAgreement : NullAgree (withCode [0x07]) ∧
    ∃ t, step (withCode [0x07]) = .next t ∧ t.pc = 0x7001 := ⟨by decide, next_of_after (by decide)⟩

theorem witness_StepKeepsPrivilege : PrivLegal (withCode [0x07]) ∧
    ∃ t, step (withCode [0x07]) = .next t ∧ t.pc = 0x7001 := ⟨by decide, next_of_after (by decide)⟩

theorem witness_StepKeepsMemoryForm : MemLegal (withCode [0x07]) ∧
    ∃ t, step (withCode [0x07]) = .next t ∧ t.pc = 0x7001 := ⟨by decide, next_of_after (by decide)⟩

/-- The fixture is a state that R262 of 70_reset_and_hazards.md allows. -/
theorem test_fixture_is_PInit : PInit (fixture [] []) ∧ PInit (fixture3 [] []) := by decide

end Sys2Proof.Tests
end

section
/-! The fault that `readDescriptor` raises, its only `#GP` that of R66, and the table offset of a selector. -/

namespace Sys2Proof.Machine

/-! ### How an operation stops -/

/-- A sequence stops in its first part, or in its second part after the first has answered. -/
theorem bind_error {α β : Type} {x : Res α} {f : α → Res β} {e : Stop} :
    (x >>= f) = .error e ↔ x = .error e ∨ ∃ a, x = .ok a ∧ f a = .error e := by
  cases x <;> simp

/-- A check stops exactly when its condition fails, with the check's own stop. -/
theorem need_error {b : Bool} {e e' : Stop} : need b e = .error e' ↔ b = false ∧ e = e' := by
  cases b <;> simp

theorem raise_gp_ne_pageFault (s : State) (c : Half) (la : Word) (code : Half) :
    raise s .gp c ≠ raisePageFault s la code := by simp [raise, raisePageFault]

theorem raise_ne_refuse (s : State) (x : Exn) (c : Half) (r : Refusal) : raise s x c ≠ .refuse r := by
  simp [raise]

/-- The translation of one address stops by a page fault only. -/
theorem State.phys_error {s : State} {k : Access} {rw : Dir} {la : Word} {e : Stop}
    (h : s.phys k rw la = .error e) : ∃ code, e = raisePageFault s la code := by
  unfold State.phys at h
  split at h
  · split at h
    · cases h
    · next code _ => cases h; exact ⟨code, rfl⟩
  · cases h

/-- The translation of an access stops by a page fault only. -/
theorem State.translate_error {s : State} {k : Access} {rw : Dir} {la : Word} {n : Nat} {e : Stop}
    (h : s.translate k rw la n = .error e) : ∃ la' code, e = raisePageFault s la' code := by
  induction n generalizing la with
  | zero => cases h
  | succ n ih =>
    rcases bind_error.mp h with hphys | ⟨_, _, h⟩
    · exact ⟨la, State.phys_error hphys⟩
    · rcases bind_error.mp h with hrest | ⟨_, _, h⟩
      · exact ih hrest
      · cases h

/-! ### Reading a descriptor -/

theorem State.tableOf_ok {s : State} {sel : Half} {t : Word × Nat} :
    s.tableOf sel = .ok t ↔
      (selTI sel = true → s.ldtr.valid = true) ∧ t = (tableBase s sel, tableLimit s sel) := by
  unfold State.tableOf tableBase tableLimit
  cases selTI sel <;> cases s.ldtr.valid <;> simp [eq_comm]

theorem State.tableOf_error {s : State} {sel : Half} {e : Stop} :
    s.tableOf sel = .error e ↔
      (selTI sel = true ∧ s.ldtr.valid = false) ∧ e = raise s .gp (selCode sel) := by
  unfold State.tableOf
  cases selTI sel <;> cases s.ldtr.valid <;> simp [eq_comm]

/-- Reading a descriptor raises the `#GP` that names the selector exactly when the selector points beyond
its table (R66 (a), (b)): what comes after the limit check stops by a page fault or a refusal. -/
theorem State.readDescriptor_gp_iff (s : State) (sel : Half) :
    s.readDescriptor sel = .error (raise s .gp (selCode sel)) ↔ BeyondTable s sel := by
  constructor
  · intro h
    rcases bind_error.mp h with hnoLdt | ⟨t, ht, h⟩
    · exact .inl (State.tableOf_error.mp hnoLdt).1
    obtain ⟨_, rfl⟩ := State.tableOf_ok.mp ht
    rcases bind_error.mp h with hlimit | ⟨_, _, h⟩
    · exact .inr (by simpa using (need_error.mp hlimit).1)
    rcases bind_error.mp h with hpage | ⟨_, _, h⟩
    · obtain ⟨la, code, he⟩ := State.translate_error hpage
      exact absurd he (raise_gp_ne_pageFault _ _ _ _)
    rcases bind_error.mp h with hkind | ⟨_, _, h⟩
    · exact absurd (need_error.mp hkind).2.symm (raise_ne_refuse _ _ _ _)
    · cases h
  · intro hbeyond
    by_cases hnoLdt : selTI sel = true ∧ s.ldtr.valid = false
    · exact bind_error.mpr (.inl (State.tableOf_error.mpr ⟨hnoLdt, rfl⟩))
    have hlimit : tableLimit s sel < selIndex sel * 8 + 7 := hbeyond.resolve_left hnoLdt
    have htable : s.tableOf sel = .ok (tableBase s sel, tableLimit s sel) :=
      State.tableOf_ok.mpr ⟨by simpa using hnoLdt, rfl⟩
    exact bind_error.mpr (.inr ⟨_, htable, bind_error.mpr (.inl (need_error.mpr ⟨by simpa using hlimit, rfl⟩))⟩)

/-! ### The table offset of a selector -/

theorem selIndex_le (sel : Half) : selIndex sel ≤ 8191 := by
  have : selIndex sel < 2 ^ 13 := (sel.extractLsb' 3 13).isLt
  omega

/-- Masking off `TI` and `RPL` leaves `Index` in place. -/
theorem and_FFF8_eq_append (sel : Half) : sel &&& 0xFFF8 = sel.extractLsb' 3 13 ++ 0#3 := by
  apply BitVec.eq_of_getLsbD_eq
  intro i hi
  rw [BitVec.getLsbD_append]
  interval_cases i <;> simp

theorem selIndex_mul_eight (sel : Half) : selIndex sel * 8 = (sel &&& 0xFFF8).toNat := by
  rw [and_FFF8_eq_append, BitVec.toNat_append, BitVec.toNat_zero, Nat.or_zero, Nat.shiftLeft_eq]
  rfl

/-- Settles O8: the offset is the masked selector, and R66's limit check at index 8191 asks for a limit of at
least 8191 * 8 + 7 = 65535, the largest that 16 bits hold. -/
theorem selectorTableOffset : Obligations.SelectorTableOffset := by
  refine ⟨fun sel => ⟨selIndex_mul_eight sel, ?_, rfl, Nat.mul_mod_left ..⟩, fun s sel hindex hgdt => ?_⟩
  · exact Nat.mul_le_mul_right 8 (selIndex_le sel)
  · have hbeyond : BeyondTable s sel ↔ s.gdtr.limit.toNat < 65535 := by
      simp [BeyondTable, tableLimit, hindex, hgdt]
    have hlimit := s.gdtr.limit.isLt
    rw [Ne, State.readDescriptor_gp_iff, hbeyond]
    omega

end Sys2Proof.Machine
end

section
/-! The fields of a selector as arithmetic on its value (30_encoding.md R110), the null selectors (R111) and
table 1 of the code and data types (R121). -/

namespace Sys2Proof.Machine

/-! ### The fields of a selector -/

theorem selIndex_eq_div (sel : Half) : selIndex sel = sel.toNat / 8 := by
  have hsel := sel.isLt
  rw [selIndex, BitVec.extractLsb'_toNat, Nat.shiftRight_eq_div_pow]
  omega

theorem selTI_toNat (sel : Half) : (selTI sel).toNat = sel.toNat / 4 % 2 := by
  rw [selTI, BitVec.getLsbD, Nat.toNat_testBit]

theorem selRPL_toNat (sel : Half) : (selRPL sel).toNat = sel.toNat % 4 := by
  rw [selRPL, BitVec.extractLsb'_toNat, Nat.shiftRight_zero]

/-- `TI` clear, as arithmetic on the selector's value. -/
theorem selTI_eq_false_iff (sel : Half) : selTI sel = false ↔ sel.toNat / 4 % 2 = 0 := by
  rw [← selTI_toNat, Bool.toNat_eq_zero]

/-- `TI` set, as arithmetic on the selector's value. -/
theorem selTI_eq_true_iff (sel : Half) : selTI sel = true ↔ sel.toNat / 4 % 2 = 1 := by
  rw [← selTI_toNat, Bool.toNat_eq_one]

/-- A selector is null when nothing but `RPL`, its two low bits, is set. -/
theorem isNull_iff_le (sel : Half) : isNull sel = true ↔ sel.toNat ≤ 3 := by
  have hsel := sel.isLt
  have hbits : isNull sel = true ↔ (sel.extractLsb' 2 14).toNat = 0 :=
    decide_eq_true_iff.trans BitVec.toNat_inj.symm
  rw [hbits, BitVec.extractLsb'_toNat, Nat.shiftRight_eq_div_pow]
  omega

/-! ### A selector built from its fields -/

theorem mkSel_toNat (i : BitVec 13) (ti : Bool) (rpl : BitVec 2) :
    (mkSel i ti rpl).toNat = i.toNat * 8 + ti.toNat * 4 + rpl.toNat := by
  have hti : ti.toNat < 2 ^ 1 := ti.toNat_lt
  rw [mkSel, BitVec.toNat_append, BitVec.toNat_append, BitVec.toNat_ofBool,
    ← Nat.shiftLeft_add_eq_or_of_lt rpl.isLt, ← Nat.shiftLeft_add_eq_or_of_lt hti, Nat.shiftLeft_eq, Nat.shiftLeft_eq]
  omega

@[simp] theorem selIndex_mkSel (i : BitVec 13) (ti : Bool) (rpl : BitVec 2) :
    selIndex (mkSel i ti rpl) = i.toNat := by
  have hti := ti.toNat_lt
  have hrpl := rpl.isLt
  rw [selIndex_eq_div, mkSel_toNat]
  omega

@[simp] theorem selTI_mkSel (i : BitVec 13) (ti : Bool) (rpl : BitVec 2) : selTI (mkSel i ti rpl) = ti := by
  have hrpl := rpl.isLt
  cases ti with
  | false => rw [selTI_eq_false_iff, mkSel_toNat, Bool.toNat_false]; omega
  | true => rw [selTI_eq_true_iff, mkSel_toNat, Bool.toNat_true]; omega

@[simp] theorem selRPL_mkSel (i : BitVec 13) (ti : Bool) (rpl : BitVec 2) : selRPL (mkSel i ti rpl) = rpl := by
  have hrpl := rpl.isLt
  apply BitVec.eq_of_toNat_eq
  rw [selRPL_toNat, mkSel_toNat]
  omega

/-! ### Where a selector's descriptor stands -/

/-- A descriptor that is read stands at the base of its table plus `Index` times 8 (R66). -/
theorem State.readDescriptor_address {s : State} {sel : Half} {la : Word} {d : Desc}
    (h : s.readDescriptor sel = .ok (la, d)) :
    la = tableBase s sel + BitVec.ofNat 32 (selIndex sel * 8) := by
  obtain ⟨t, htable, h⟩ := bind_ok.mp h
  obtain ⟨_, rfl⟩ := State.tableOf_ok.mp htable
  obtain ⟨_, _, h⟩ := bind_ok.mp h
  obtain ⟨_, _, h⟩ := bind_ok.mp h
  obtain ⟨_, _, h⟩ := bind_ok.mp h
  cases h
  rfl

/-- Settles O6: each field is a quotient or remainder of the selector's value, and `ReadDescriptor` adds
`Index` times 8 to the base that `TI` selects. -/
theorem selectorFieldsCompose : Obligations.SelectorFieldsCompose := by
  refine ⟨fun sel => ⟨?_, ?_, selIndex_eq_div sel, selTI_toNat sel, selRPL_toNat sel⟩, fun i ti rpl => ?_,
    fun s sel la d => State.readDescriptor_address⟩
  · rw [selIndex_eq_div, selTI_toNat, selRPL_toNat]
    omega
  · exact Nat.lt_succ_of_le (selIndex_le sel)
  · exact ⟨selIndex_mkSel i ti rpl, selTI_mkSel i ti rpl, selRPL_mkSel i ti rpl⟩

/-- Settles O7: null, `Index` and `TI` are all conditions on the selector's value, and at `Index` 0 the offset
added to the base of the LDT is 0. -/
theorem nullSelectorValues : Obligations.NullSelectorValues := by
  refine ⟨fun sel => ⟨isNull_iff_le sel, ?_⟩, fun sel => ?_, fun s sel la d hindex hlocal => ⟨?_, fun h => ?_⟩⟩
  · rw [isNull_iff_le, selIndex_eq_div, selTI_eq_false_iff]
    omega
  · rw [selIndex_eq_div, selTI_eq_true_iff]
    omega
  · rw [selTI_eq_true_iff] at hlocal
    rw [← Bool.not_eq_true, isNull_iff_le]
    omega
  · have hla := State.readDescriptor_address h
    simpa [tableBase, hindex, hlocal] using hla

/-! ### Code and data types -/

/-- Table 1 in the order of the types 0 to 15 (R121). -/
def codeDataTable : List DescKind :=
  [.data false false false, .data false false true, .data true false false, .data true false true,
   .data false true false, .data false true true, .data true true false, .data true true true,
   .code false false false, .code false false true, .code true false false, .code true false true,
   .code false true false, .code false true true, .code true true false, .code true true true]

/-- Rows 0 to 7 are the data types, and each column is one bit of the row's number. -/
theorem codeDataTable_row_data : ∀ t : BitVec 4, t.getLsbD 3 = false →
    codeDataTable.getD t.toNat .reserved = .data (t.getLsbD 1) (t.getLsbD 2) (t.getLsbD 0) := by decide

/-- Rows 8 to 15 are the code types, and each column is one bit of the row's number. -/
theorem codeDataTable_row_code : ∀ t : BitVec 4, t.getLsbD 3 = true →
    codeDataTable.getD t.toNat .reserved = .code (t.getLsbD 1) (t.getLsbD 2) (t.getLsbD 0) := by decide

theorem kind_of_data {d : Desc} (hs : d.s = true) (hdata : d.isCode = false) :
    d.kind = .data d.writable d.expandDown d.accessed := by simp [Desc.kind, hs, hdata]

theorem kind_of_code {d : Desc} (hs : d.s = true) (hcode : d.isCode = true) :
    d.kind = .code d.readable d.conforming d.accessed := by simp [Desc.kind, hs, hcode]

/-- For data, bit 2 of the type is the expand-down bit. -/
theorem expandDown_of_data {d : Desc} (hdata : d.isCode = false) : d.expandDown = d.type.getLsbD 2 := by
  rw [Desc.isCode] at hdata
  rw [Desc.expandDown, hdata, Bool.not_false, Bool.true_and]

theorem kind_eq_codeDataTable {d : Desc} (hs : d.s = true) :
    d.kind = codeDataTable.getD d.type.toNat .reserved := by
  cases hcode : d.isCode with
  | false => rw [kind_of_data hs hcode, expandDown_of_data hcode, codeDataTable_row_data d.type hcode]; rfl
  | true => rw [kind_of_code hs hcode, codeDataTable_row_code d.type hcode]; rfl

/-- The code types are 8 to 15. -/
theorem isCode_iff_le (d : Desc) : d.isCode = true ↔ 8 ≤ d.type.toNat := by
  have htype := d.type.isLt
  rw [Desc.isCode, BitVec.getLsbD, Nat.testBit_eq_decide_div_mod_eq, decide_eq_true_iff]
  omega

theorem typeAllows_write_of_code {d : Desc} (hcode : d.isCode = true) : typeAllows d .write = false := by
  simp [typeAllows, hcode]

/-- Settles O10: the kind of a code or data descriptor is read off the bits of its type, as the rows of table 1
are, and bit 3 of the type decides whether a write is allowed. -/
theorem codeAndDataTypes : Obligations.CodeAndDataTypes :=
  fun d hs => ⟨kind_eq_codeDataTable hs, fun htype => typeAllows_write_of_code ((isCode_iff_le d).mpr htype)⟩

end Sys2Proof.Machine
end

section
/-! The first fetch after reset (70_reset_and_hazards.md R260). -/

namespace Sys2Proof.Machine

/-- `CS` is a 16-bit segment after reset (log 2), so the first offset is `EIP` cut to 16 bits, FFF0H. -/
theorem reset_fetchOffset_zero : State.reset.fetchOffset 0 = 0xFFF0 := rfl

/-- The base FFFF0000H of `CS` and the offset FFF0H make the linear address FFFFFFF0H (R77). -/
theorem reset_linAddr_cs : State.reset.linAddr .cs 0xFFF0 = 0xFFFFFFF0 := rfl

/-- `CS` holds a code descriptor after reset (log 3), and FFF0H is within its limit FFFFH. -/
theorem reset_segCheck_fetch : State.reset.segCheck .cs 0xFFF0 1 .fetch = .ok () :=
  have hvalid : (State.reset.sreg .cs).valid = true := rfl
  have htype : typeAllows (State.reset.sreg .cs).d .fetch = true := by decide
  have hlimit : inLimit (State.reset.sreg .cs).d 0xFFF0 1 = true := by decide
  State.segCheck_ok.mpr ⟨hvalid, htype, hlimit⟩

/-- Settles O59: the checks of the fetch pass at offset FFF0H, where the base of `CS` gives FFFFFFF0H, and
without paging the physical address is the linear one. -/
theorem resetFacts : Obligations.ResetFacts := by
  refine ⟨?_, State.phys_flat rfl .fetch .read 0xFFFFFFF0, rfl⟩
  have haligned : State.reset.alignFault (State.reset.linAddr .cs 0xFFF0) 1 = false := rfl
  rw [reset_fetchOffset_zero, State.segAccess_ok]
  exact ⟨reset_segCheck_fetch, haligned, reset_linAddr_cs.symm⟩

end Sys2Proof.Machine
end

section
/-! What the shared operations answer, in the terms of Safety: the checks that passed and the address of the
accessed-bit write. What each instruction can leave, one lemma per shape of instruction. -/

namespace Sys2Proof.Machine

/-! ### What Safety's terms say, for `simp` -/

@[simp] theorem keepsMode_iff {s t : State} : KeepsMode s t ↔ t.cpl = s.cpl ∧ t.par = s.par := .rfl

@[simp] theorem keepsTables_iff {s t : State} :
    KeepsTables s t ↔ t.gdtr = s.gdtr ∧ t.idtr = s.idtr ∧ t.ldtr = s.ldtr ∧ t.tr = s.tr := .rfl

@[simp] theorem isLoaded_iff {r : SegReg} : r.isLoaded ↔ r.d.s = true ∧ r.d.p = true ∧ r.d.accessed = true := .rfl

/-! ### Selectors and loaded descriptors -/

/-- Forcing the RPL keeps Index and TI (41 R181). -/
theorem isNull_forceRPL (sel : Half) (cpl : BitVec 2) : isNull (forceRPL sel cpl) = isNull sel := by
  have hfields : (forceRPL sel cpl).extractLsb' 2 14 = sel.extractLsb' 2 14 := by
    apply BitVec.eq_of_getLsbD_eq
    intro i hi
    interval_cases i <;> simp [forceRPL]
  rw [isNull, hfields, isNull]

@[simp] theorem selRPL_forceRPL (sel : Half) (cpl : BitVec 2) : selRPL (forceRPL sel cpl) = cpl := by
  apply BitVec.eq_of_getLsbD_eq
  intro i hi
  interval_cases i <;> simp [forceRPL, selRPL]

section
variable (sel : Half) (d : Desc)
@[simp] theorem loaded_sel : (loaded sel d).sel = sel := rfl
@[simp] theorem loaded_valid : (loaded sel d).valid = true := rfl
@[simp] theorem loaded_s : (loaded sel d).d.s = d.s := rfl
@[simp] theorem loaded_p : (loaded sel d).d.p = d.p := rfl
@[simp] theorem loaded_dpl : (loaded sel d).d.dpl = d.dpl := rfl
@[simp] theorem loaded_accessed : (loaded sel d).d.accessed = true := by simp [loaded, Desc.accessed]
@[simp] theorem loaded_isCode : (loaded sel d).d.isCode = d.isCode := by simp [loaded, Desc.isCode]
@[simp] theorem loaded_conforming : (loaded sel d).d.conforming = d.conforming := by
  simp [loaded, Desc.conforming]
@[simp] theorem loaded_readable : (loaded sel d).d.readable = d.readable := by simp [loaded, Desc.readable]
@[simp] theorem loaded_isWritableData : (loaded sel d).d.isWritableData = d.isWritableData := by
  simp [Desc.isWritableData, Desc.writable, loaded, Desc.isCode]
@[simp] theorem loaded_isReadable : (loaded sel d).d.isReadable = d.isReadable := by simp [Desc.isReadable]
end

/-! ### The address of the accessed-bit write -/

theorem State.loadTarget_null (s : State) {sel : Half} (hnull : isNull sel = true) : s.loadTarget sel = none := by
  simp [State.loadTarget, hnull]

theorem State.loadTarget_eq {s : State} {sel : Half} {r : Word × Desc} {a : Option Nat}
    (hnull : isNull sel = false) (hread : s.readDescriptor sel = .ok r) (ha : s.accessedAt r.1 r.2 = .ok a) :
    s.loadTarget sel = a := by
  simp [State.loadTarget, hnull, hread, ha]

/-- The accessed-bit write of a load goes to RAM of the physical space. -/
theorem State.loadTarget_some {s : State} {sel : Half} {pa : Nat} (h : s.loadTarget sel = some pa) :
    s.kindAt pa = .ram ∧ pa < physSpace s.par.physBits := by
  unfold State.loadTarget at h
  split at h
  · cases h
  split at h
  · cases h
  split at h
  · cases h
  · next ha => exact State.accessedAt_some (h ▸ ha)

/-! ### Loads and transfers that answer -/

/-- What a load of `x` with `sel` can leave in it: no descriptor for a null selector, else the fields of a
descriptor that passed every check (40 R151, R152). -/
def LoadsInto (s : State) (x : SReg) (sel : Half) (v : SegReg) : Prop :=
  (isNull sel = true ∧ x ≠ .ss ∧ v.sel = sel ∧ v.valid = false) ∨ ∃ d, Loadable s x sel d ∧ v = loaded sel d

/-- A load that answers sets the accessed bit and its register. -/
theorem State.loadSeg_answer {s t : State} {x : SReg} {sel : Half} (h : s.loadSeg x sel = .ok t) :
    x ≠ .cs ∧ ∃ v, LoadsInto s x sel v ∧ t = (s.setAccessed (s.loadTarget sel)).setSreg x v := by
  obtain ⟨hcs, ⟨hnull, hss, rfl⟩ | ⟨hnull, h⟩⟩ := State.loadSeg_ok.mp h
  · exact ⟨hcs, ⟨sel, false, _⟩, .inl ⟨hnull, hss, rfl, rfl⟩, by rw [State.loadTarget_null s hnull]; rfl⟩
  · obtain ⟨la, d, a, hread, hs, hcheck, hp, ha, rfl⟩ := State.loadDescriptor_ok.mp h
    have htype : TypeLoadable s x sel d := by
      unfold TypeLoadable
      split at hcheck
      · next hss => rw [if_pos hss]; exact checkStack_ok.mp hcheck
      · next hss => rw [if_neg hss]; exact checkData_ok.mp hcheck
    exact ⟨hcs, _, .inr ⟨d, ⟨hcs, hnull, hs, htype, hp⟩, rfl⟩, by rw [State.loadTarget_eq hnull hread ha]⟩

/-- A far `JMP` that answers entered code that passed every check of 41 R181. -/
theorem State.jumpFar_answer {s t : State} {sel : Half} {off : Word} (h : s.jumpFar sel off = .ok t) :
    ∃ d, Enterable s sel off d ∧
      t = s.enterCommit (s.loadTarget sel) (loaded (forceRPL sel s.cpl) d) off := by
  obtain ⟨r, a, hr, ha, rfl⟩ := State.jumpFar_ok.mp h
  obtain ⟨hnull, hread, hcheck⟩ := State.enterRead_ok.mp hr
  exact ⟨r.2, ⟨hnull, enterChecks_ok.mp hcheck⟩, by rw [State.loadTarget_eq hnull hread ha]⟩

/-- A far `CALL` that answers pushed both slots and entered code that passed every check of 41 R181. -/
theorem State.callFar_answer {s t : State} {z : Size} {sel : Half} {off : Word} {len : Nat}
    (h : s.callFar z sel off len = .ok t) :
    ∃ d csTo retTo, Enterable s sel off d ∧ CallPushes s z csTo retTo ∧
      t = ((((s.store csTo (s.pushedCs z).toNat).store retTo (s.pcPlus len).toNat).setSp s.stackSize
        (s.spMinus (2 * sizeBytes z))).enterCommit (s.loadTarget sel) (loaded (forceRPL sel s.cpl) d) off) := by
  obtain ⟨r, csTo, retTo, a, hr, _, hcs, hret, ha, rfl⟩ := State.callFar_ok.mp h
  obtain ⟨hnull, hread, hcheck⟩ := State.enterRead_ok.mp hr
  exact ⟨r.2, csTo, retTo, ⟨hnull, enterChecks_ok.mp hcheck⟩, ⟨hcs, hret⟩, by
    rw [State.loadTarget_eq hnull hread ha]⟩

/-- A far `RET` that answers entered code that passed every check of 41 R184. -/
theorem State.returnFar_answer {s t : State} {z : Size} {extra : Nat} (h : s.returnFar z extra = .ok t) :
    ∃ off w d, s.segRead .ss s.sp (sizeBytes z) = .ok off ∧
      s.segRead .ss (s.spPlus (sizeBytes z)) (sizeBytes z) = .ok w ∧
      Returnable s (BitVec.ofNat 16 w) (BitVec.ofNat 32 off) d ∧
      t = (s.setSp s.stackSize (s.spPlus (2 * sizeBytes z + extra))).enterCommit
        (s.loadTarget (BitVec.ofNat 16 w)) (loaded (BitVec.ofNat 16 w) d) (BitVec.ofNat 32 off) := by
  obtain ⟨off, w, r, a, hoff, hw, hnull, hread, hcheck, ha, rfl⟩ := State.returnFar_ok.mp h
  exact ⟨off, w, r.2, hoff, hw, ⟨hnull, returnChecks_ok.mp hcheck⟩, by rw [State.loadTarget_eq hnull hread ha]⟩

end Sys2Proof.Machine
end

section
/-! What one step can do to the mode, memory, the segment registers and the table registers, whatever instruction
it executes, and the rules of the whole machine that follow from it (60_exceptions.md section 5,
70_reset_and_hazards.md R262). -/

namespace Sys2Proof.Machine

open Relation (ReflTransGen)

/-! ### Memory: a sequence of byte writes to RAM -/

/-- `m'` is `m` after one byte write to RAM of the physical space (20_memory.md R83, R84). -/
def RamWrite (p : Params) (m m' : Memory) : Prop :=
  ∃ pa v, kindIn p.memMap pa = .ram ∧ pa < physSpace p.physBits ∧ m' = Memory.write m pa v

/-- `m'` is `m` after some byte writes to RAM of the physical space. -/
abbrev RamWrites (p : Params) (m m' : Memory) : Prop := ReflTransGen (RamWrite p) m m'

/-- A byte store in the physical space writes to RAM or nothing. -/
theorem State.storeByte_ramWrites (s : State) {pa : Nat} (v : Byte) (hpa : pa < physSpace s.par.physBits) :
    RamWrites s.par s.mem (s.storeByte pa v).mem := by
  by_cases hram : s.kindAt pa = .ram
  · rw [State.storeByte_ram _ _ _ hram]
    exact .single ⟨pa, v, hram, hpa, rfl⟩
  · rw [State.storeByte_not_ram _ _ _ hram]

theorem State.store_ramWrites (s : State) {pas : List Nat} (v : Nat)
    (hpas : ∀ a ∈ pas, a < physSpace s.par.physBits) : RamWrites s.par s.mem (s.store pas v).mem := by
  induction pas generalizing s v with
  | nil => exact .refl
  | cons pa pas ih =>
    have hfirst := s.storeByte_ramWrites (BitVec.ofNat 8 v) (hpas pa (by simp))
    have hrest := ih (s.storeByte pa (BitVec.ofNat 8 v)) (v / 256) (by simpa using fun a ha => hpas a (by simp [ha]))
    rw [State.storeByte_par] at hrest
    exact hfirst.trans hrest

/-- Setting the accessed bit of the descriptor `sel` points at writes to RAM or nothing; `t` may be a state that
the pushes of a far `CALL` have left. -/
theorem State.setAccessed_ramWrites {s : State} (t : State) (sel : Half) :
    RamWrites s.par t.mem (t.setAccessed (s.loadTarget sel)).mem := by
  cases ha : s.loadTarget sel with
  | none => exact .refl
  | some pa =>
    obtain ⟨hram, hpa⟩ := State.loadTarget_some ha
    exact .single ⟨pa, _, hram, hpa, rfl⟩

/-- Writes to RAM leave every byte that is not RAM alone. -/
theorem RamWrites.read_not_ram {p : Params} {m m' : Memory} (h : RamWrites p m m') {a : Nat}
    (ha : kindIn p.memMap a ≠ .ram) : Memory.read m' a = Memory.read m a := by
  induction h with
  | refl => rfl
  | tail _ hwrite ih =>
    obtain ⟨pa, v, hram, _, rfl⟩ := hwrite
    rw [Memory.read_write_ne _ _ _ _ (by rintro rfl; exact ha hram), ih]

/-- Writes to the physical space keep the canonical form and list only addresses of that space. -/
theorem RamWrites.legal {p : Params} {m m' : Memory} (h : RamWrites p m m')
    (hm : Memory.wf m ∧ ∀ c ∈ m, c.1 < physSpace p.physBits) :
    Memory.wf m' ∧ ∀ c ∈ m', c.1 < physSpace p.physBits := by
  induction h with
  | refl => exact hm
  | tail _ hwrite ih =>
    obtain ⟨pa, v, _, hpa, rfl⟩ := hwrite
    refine ⟨Memory.write_wf _ _ _ ih.1, fun c hc => ?_⟩
    rcases Memory.write_listed _ _ _ _ hc with rfl | hc
    · exact hpa
    · exact ih.2 c hc

/-! ### Segment registers: kept, loaded, or entered -/

/-- `sel` and `d` are what `CS` receives from a far transfer that stays at `CPL` (41 R181, R184). -/
def Entered (s : State) (sel : Half) (d : Desc) : Prop :=
  isNull sel = false ∧ d.s = true ∧ d.isCode = true ∧ d.p = true ∧ selRPL sel = s.cpl ∧
  if d.conforming = true then d.dpl ≤ s.cpl else d.dpl = s.cpl

theorem Entered.of_enterable {s : State} {sel : Half} {off : Word} {d : Desc} (h : Enterable s sel off d) :
    Entered s (forceRPL sel s.cpl) d := by
  obtain ⟨hnull, hs, hcode, hpriv, hp, _⟩ := h
  refine ⟨by rw [isNull_forceRPL, hnull], hs, hcode, hp, selRPL_forceRPL sel s.cpl, ?_⟩
  unfold EnterPriv at hpriv
  split at hpriv
  · next hconf => rwa [if_pos hconf]
  · next hconf => rw [if_neg hconf]; exact hpriv.1

theorem Entered.of_returnable {s : State} {sel : Half} {off : Word} {d : Desc} (h : Returnable s sel off d) :
    Entered s sel d := by
  obtain ⟨hnull, hs, hcode, hrpl, hpriv, hp, _⟩ := h
  unfold ReturnPriv at hpriv
  rw [hrpl] at hpriv
  exact ⟨hnull, hs, hcode, hp, hrpl, hpriv⟩

/-- What the segment register `x` can hold after an instruction that loads the register `o`, if any. -/
inductive SregAfter (s : State) (o : Option SReg) (x : SReg) : SegReg → Prop
  | kept : SregAfter s o x (s.sreg x)
  | loaded {sel : Half} {v : SegReg} (ho : o = some x) (hcs : x ≠ .cs) (hv : LoadsInto s x sel v) :
      SregAfter s o x v
  | entered {sel : Half} {d : Desc} (ho : o = some x) (hcs : x = .cs) (hd : Entered s sel d) :
      SregAfter s o x (loaded sel d)

/-- A write of one register leaves every other one kept. -/
theorem SregAfter.of_set {s : State} {x y : SReg} {v : SegReg} (hx : SregAfter s (some x) x v) :
    SregAfter s (some x) y ((s.seg.set x v).get y) := by
  by_cases hy : y = x
  · subst hy; rw [SegRegs.get_set_self]; exact hx
  · rw [SegRegs.get_set_ne _ _ _ _ hy]; exact .kept

/-! ### The effect of an instruction -/

/-- What an instruction that loads the segment register `o`, if any, can have done in `s` when it left `t`: writes
to RAM, a legal load of `o`, and at `CPL` 0 a change of the table registers that leaves a legal `LDTR`. -/
structure Effect (s : State) (o : Option SReg) (t : State) : Prop where
  mode : KeepsMode s t
  mem : RamWrites s.par s.mem t.mem
  sreg : ∀ x, SregAfter s o x (t.sreg x)
  tables : KeepsTables s t ∨
    s.cpl = 0 ∧ (t.ldtr = s.ldtr ∨ t.ldtr.valid = false ∨ t.ldtr.d.isLdt = true)

/-- The states agree in all that `Effect` speaks of: they can differ in general registers, `pc` and the model's own
fields. -/
def SameBulk (t u : State) : Prop := t.seg = u.seg ∧ t.mem = u.mem ∧ KeepsTables u t ∧ KeepsMode u t

theorem Effect.congr {s t u : State} {o : Option SReg} (h : Effect s o u) (htu : SameBulk t u) : Effect s o t := by
  obtain ⟨hseg, hmem, ⟨hgdtr, hidtr, hldtr, htr⟩, hcpl, hpar⟩ := htu
  obtain ⟨⟨hcpl', hpar'⟩, hmem', hsreg, htables⟩ := h
  refine ⟨⟨hcpl.trans hcpl', hpar.trans hpar'⟩, hmem ▸ hmem', fun x => ?_, ?_⟩
  · have := hsreg x
    rwa [State.sreg, ← hseg] at this
  · rwa [KeepsTables, hgdtr, hidtr, hldtr, htr]

/-- Doing nothing is an effect of every instruction. -/
theorem Effect.refl (s : State) (o : Option SReg) : Effect s o s :=
  ⟨⟨rfl, rfl⟩, .refl, fun _ => .kept, .inl ⟨rfl, rfl, rfl, rfl⟩⟩

/-- An instruction that hangs keeps the state; one that completes has the effect of its operation. -/
theorem Effect.of_conclude {s t : State} {o : Option SReg} {r : Res State} (h : conclude s r = .next t)
    (hr : ∀ u, r = .ok u → Effect s o u) : Effect s o t := by
  rcases conclude_next.mp h with ⟨u, hu, rfl⟩ | ⟨_, rfl⟩
  · exact (hr u hu).congr ⟨rfl, rfl, ⟨rfl, rfl, rfl, rfl⟩, rfl, rfl⟩
  · exact (Effect.refl s o).congr ⟨rfl, rfl, ⟨rfl, rfl, rfl, rfl⟩, rfl, rfl⟩

theorem Effect.advance {s u : State} {o : Option SReg} (h : Effect s o u) (n : Nat) : Effect s o (u.advance n) :=
  h.congr ⟨rfl, rfl, ⟨rfl, rfl, rfl, rfl⟩, rfl, rfl⟩

theorem Effect.setRegSize {s u : State} {o : Option SReg} (h : Effect s o u) (z : Size) (r : Reg) (v : Word) :
    Effect s o (u.setRegSize z r v) := h.congr (by simp [SameBulk])

theorem Effect.setSp {s u : State} {o : Option SReg} (h : Effect s o u) (z : Size) (n : Nat) :
    Effect s o (u.setSp z n) := h.setRegSize z .esp _

theorem Effect.setReg {s u : State} {o : Option SReg} (h : Effect s o u) (r : Reg) (v : Word) :
    Effect s o (u.setReg r v) := h.congr ⟨rfl, rfl, ⟨rfl, rfl, rfl, rfl⟩, rfl, rfl⟩

theorem Effect.store {s u : State} {o : Option SReg} (h : Effect s o u) {pas : List Nat} (v : Nat)
    (hpas : ∀ a ∈ pas, a < physSpace s.par.physBits) : Effect s o (u.store pas v) := by
  have hwrites := u.store_ramWrites v (pas := pas) (by rwa [h.mode.2])
  rw [h.mode.2] at hwrites
  exact ⟨by simpa using h.mode, h.mem.trans hwrites, fun x => by simpa [State.sreg] using h.sreg x,
    by simpa using h.tables⟩

/-! ### The effect of the shared operations -/

theorem State.loadSeg_effect {s t : State} {x : SReg} {sel : Half} (h : s.loadSeg x sel = .ok t) :
    Effect s (some x) t := by
  obtain ⟨hcs, v, hv, rfl⟩ := State.loadSeg_answer h
  refine ⟨by simp, State.setAccessed_ramWrites s sel, fun y => ?_, .inl (by simp)⟩
  have hy : SregAfter s (some x) y ((s.seg.set x v).get y) := .of_set (.loaded rfl hcs hv)
  simpa [State.sreg] using hy

/-- The commit of a transfer, made in a state `u` that differs from `s` by pushes and the stack pointer. -/
theorem State.enterCommit_effect {s u : State} {sel sel' : Half} {d : Desc} {off : Word}
    (hu : Effect s none u) (hseg : u.seg = s.seg) (htables : KeepsTables s u) (hd : Entered s sel' d) :
    Effect s (some .cs) (u.enterCommit (s.loadTarget sel) (loaded sel' d) off) := by
  refine ⟨by simpa using hu.mode, hu.mem.trans (State.setAccessed_ramWrites u sel), fun y => ?_,
    .inl (by simpa using htables)⟩
  have hy : SregAfter s (some .cs) y ((s.seg.set .cs (loaded sel' d)).get y) := .of_set (.entered rfl rfl hd)
  simpa [State.sreg, hseg, SegRegs.set] using hy

theorem State.jumpFar_effect {s t : State} {sel : Half} {off : Word} (h : s.jumpFar sel off = .ok t) :
    Effect s (some .cs) t := by
  obtain ⟨d, hd, rfl⟩ := State.jumpFar_answer h
  exact State.enterCommit_effect (.refl s none) rfl ⟨rfl, rfl, rfl, rfl⟩ (.of_enterable hd)

theorem State.callFar_effect {s t : State} {z : Size} {sel : Half} {off : Word} {len : Nat}
    (h : s.callFar z sel off len = .ok t) : Effect s (some .cs) t := by
  obtain ⟨d, csTo, retTo, hd, ⟨hcsTo, hretTo⟩, rfl⟩ := State.callFar_answer h
  have hpushed : Effect s none ((s.store csTo (s.pushedCs z).toNat).store retTo (s.pcPlus len).toNat) :=
    ((Effect.refl s none).store _ (State.segWriteTo_lt hcsTo)).store _ (State.segWriteTo_lt hretTo)
  exact State.enterCommit_effect (hpushed.setSp _ _) (by simp) (by simp) (.of_enterable hd)

theorem State.returnFar_effect {s t : State} {z : Size} {extra : Nat} (h : s.returnFar z extra = .ok t) :
    Effect s (some .cs) t := by
  obtain ⟨off, w, d, _, _, hd, rfl⟩ := State.returnFar_answer h
  exact State.enterCommit_effect ((Effect.refl s none).setSp _ _) (by simp) (by simp) (.of_returnable hd)

theorem State.writeRm16_effect {s t : State} {h : Head} {o : RM} {v : Half} (hw : s.writeRm16 h o v = .ok t) :
    Effect s none t := by
  rcases State.writeRm16_ok.mp hw with ⟨r, _, rfl⟩ | ⟨m, pas, _, hpas, rfl⟩
  · cases h.osz <;> exact (Effect.refl s none).setReg r _
  · exact (Effect.refl s none).store _ (State.segWriteTo_lt hpas)

/-- A change of `LDTR` at `CPL` 0 that leaves it empty or with an LDT descriptor. -/
theorem State.loadLdtr_effect {s t : State} {sel : Half} (hcpl : s.cpl = 0) (h : s.loadLdtr sel = .ok t) :
    Effect s none t := by
  rcases State.loadLdtr_ok.mp h with ⟨_, rfl⟩ | ⟨_, _, r, _, hldt, _, rfl⟩
  · exact ⟨⟨rfl, rfl⟩, .refl, fun _ => .kept, .inr ⟨hcpl, .inr (.inl rfl)⟩⟩
  · exact ⟨⟨rfl, rfl⟩, .refl, fun _ => .kept, .inr ⟨hcpl, .inr (.inr hldt)⟩⟩

theorem State.loadTr_effect {s t : State} {sel : Half} (hcpl : s.cpl = 0) (h : s.loadTr sel = .ok t) :
    Effect s none t := by
  obtain ⟨_, _, r, pa, _, _, _, hbusy, rfl⟩ := State.loadTr_ok.mp h
  have hpa := State.phys_lt (State.busyAt_ok.mp hbusy).1
  refine ⟨by simp, s.storeByte_ramWrites _ hpa, fun x => ?_, .inr ⟨hcpl, .inl (by simp)⟩⟩
  have hkept : SregAfter s none x (s.sreg x) := .kept
  simpa [State.sreg] using hkept

/-! ### The effect of the instructions -/

theorem popSreg_effect {s t : State} {h : Head} {x : SReg} {len : Nat} (hnext : popSreg h x len s = .next t) :
    Effect s (some x) t :=
  .of_conclude hnext fun u hu => by
    obtain ⟨w, _, hu⟩ := bind_ok.mp hu
    obtain ⟨v, hload, hu⟩ := bind_ok.mp hu
    cases hu
    exact ((State.loadSeg_effect hload).setSp _ _).advance _

theorem farLoad_effect {s t : State} {h : Head} {x : SReg} {r : Reg} {m : Mem} {len : Nat}
    (hnext : farLoad h x r m len s = .next t) : Effect s (some x) t :=
  .of_conclude hnext fun u hu => by
    obtain ⟨p, _, hu⟩ := bind_ok.mp hu
    obtain ⟨v, hload, hu⟩ := bind_ok.mp hu
    cases hu
    exact ((State.loadSeg_effect hload).setRegSize _ _ _).advance _

theorem storeTable_effect {s t : State} {h : Head} {m : Mem} {r : TableReg} {len : Nat}
    (hnext : storeTable h m r len s = .next t) : Effect s none t :=
  .of_conclude hnext fun u hu => by
    obtain ⟨limTo, hlim, hu⟩ := bind_ok.mp hu
    obtain ⟨baseTo, hbase, hu⟩ := bind_ok.mp hu
    cases hu
    exact (((Effect.refl s none).store _ (State.segWriteTo_lt hlim)).store _ (State.segWriteTo_lt hbase)).advance _

/-- A store of a selector and the move to the next instruction: `MOV r/m16, Sreg`, `SLDT` and `STR`. -/
theorem storeSelector_effect {s t : State} {h : Head} {o : RM} {v : Half} {len : Nat}
    (hnext : conclude s (do let u ← s.writeRm16 h o v; .ok (u.advance len)) = .next t) : Effect s none t :=
  .of_conclude hnext fun u hu => by
    obtain ⟨w, hw, hu⟩ := bind_ok.mp hu
    cases hu
    exact (State.writeRm16_effect hw).advance _

/-- Every instruction, when it completes or hangs, has an effect of the described kind; the refused ones never do. -/
theorem exec_effect {i : Instr} {s t : State} (hnext : exec i s = .next t) : Effect s (loadsSreg i) t := by
  cases i with
  | movSregRm h x src =>
    refine .of_conclude hnext fun u hu => ?_
    obtain ⟨sel, _, hu⟩ := bind_ok.mp hu
    obtain ⟨v, hload, hu⟩ := bind_ok.mp hu
    cases hu
    exact (State.loadSeg_effect hload).advance _
  | movRmSreg h dst x => exact storeSelector_effect hnext
  | popEs h => exact popSreg_effect hnext
  | popSs h => exact popSreg_effect hnext
  | popDs h => exact popSreg_effect hnext
  | popFs h => exact popSreg_effect hnext
  | popGs h => exact popSreg_effect hnext
  | lds h r m => exact farLoad_effect hnext
  | les h r m => exact farLoad_effect hnext
  | lss h r m => exact farLoad_effect hnext
  | lfs h r m => exact farLoad_effect hnext
  | lgs h r m => exact farLoad_effect hnext
  | jmpPtr h sel off => exact .of_conclude hnext fun u hu => State.jumpFar_effect hu
  | jmpMem h m =>
    refine .of_conclude hnext fun u hu => ?_
    obtain ⟨p, _, hu⟩ := bind_ok.mp hu
    exact State.jumpFar_effect hu
  | callPtr h sel off => exact .of_conclude hnext fun u hu => State.callFar_effect hu
  | callMem h m =>
    refine .of_conclude hnext fun u hu => ?_
    obtain ⟨p, _, hu⟩ := bind_ok.mp hu
    exact State.callFar_effect hu
  | retf h => exact .of_conclude hnext fun u hu => State.returnFar_effect hu
  | retfImm h imm => exact .of_conclude hnext fun u hu => State.returnFar_effect hu
  | iret h => cases hnext
  | intN h n => cases hnext
  | int3 h => cases hnext
  | into h => cases hnext
  | sysenter h => cases hnext
  | sysexit h => cases hnext
  | sgdt h m => exact storeTable_effect hnext
  | sidt h m => exact storeTable_effect hnext
  | sldt h dst => exact storeSelector_effect hnext
  | str h dst => exact storeSelector_effect hnext
  | lgdt h m =>
    refine .of_conclude hnext fun u hu => ?_
    obtain ⟨r, hr, hu⟩ := bind_ok.mp hu
    cases hu
    exact ⟨⟨rfl, rfl⟩, .refl, fun _ => .kept, .inr ⟨(State.readTable_ok.mp hr).1, .inl rfl⟩⟩
  | lidt h m =>
    refine .of_conclude hnext fun u hu => ?_
    obtain ⟨r, hr, hu⟩ := bind_ok.mp hu
    cases hu
    exact ⟨⟨rfl, rfl⟩, .refl, fun _ => .kept, .inr ⟨(State.readTable_ok.mp hr).1, .inl rfl⟩⟩
  | lldt h src =>
    refine .of_conclude hnext fun u hu => ?_
    obtain ⟨_, hcpl, hu⟩ := bind_ok.mp hu
    obtain ⟨sel, _, hu⟩ := bind_ok.mp hu
    obtain ⟨v, hload, hu⟩ := bind_ok.mp hu
    cases hu
    exact (State.loadLdtr_effect (needSupervisor_ok.mp hcpl) hload).advance _
  | ltr h src =>
    refine .of_conclude hnext fun u hu => ?_
    obtain ⟨_, hcpl, hu⟩ := bind_ok.mp hu
    obtain ⟨sel, _, hu⟩ := bind_ok.mp hu
    obtain ⟨v, hload, hu⟩ := bind_ok.mp hu
    cases hu
    exact (State.loadTr_effect (needSupervisor_ok.mp hcpl) hload).advance _

/-- A step has the effect of the instruction it fetches, or keeps all but the model's own field `hung`. -/
theorem step_effect {s t : State} (h : step s = .next t) : ∃ o, Effect s o t := by
  rcases step_next h with ⟨_, rfl⟩ | ⟨_, i, _, hexec⟩ | ⟨_, _, rfl⟩
  · exact ⟨none, .refl t none⟩
  · exact ⟨_, exec_effect hexec⟩
  · exact ⟨none, (Effect.refl s none).congr ⟨rfl, rfl, ⟨rfl, rfl, rfl, rfl⟩, rfl, rfl⟩⟩

/-! ### The rules of the whole machine -/

/-- Settles O19: every byte that a step writes is RAM. -/
theorem stepKeepsWhatIsNotRam : Obligations.StepKeepsWhatIsNotRam := by
  intro s t a hstep ha
  obtain ⟨o, heffect⟩ := step_effect hstep
  exact heffect.mem.read_not_ram ha

/-- Settles O58: every byte that a step writes has a translated address, and a write keeps the canonical form. -/
theorem stepKeepsMemoryForm : Obligations.StepKeepsMemoryForm := by
  intro s t hlegal hstep
  obtain ⟨o, heffect⟩ := step_effect hstep
  rw [MemLegal, heffect.mode.2]
  exact heffect.mem.legal hlegal

/-- Settles O53: no instruction writes `CPL` or a parameter. -/
theorem stepKeepsCplAndParameters : Obligations.StepKeepsCplAndParameters := by
  intro s t hstep
  obtain ⟨o, heffect⟩ := step_effect hstep
  exact heffect.mode

/-- Settles O54: the instructions that write a table register check `CPL` first. -/
theorem userStepKeepsTableRegisters : Obligations.UserStepKeepsTableRegisters := by
  intro s t hcpl hstep
  obtain ⟨o, heffect⟩ := step_effect hstep
  exact heffect.tables.resolve_right fun h => hcpl h.1

/-- Settles O52: what a register other than the loaded one can hold afterwards is what it held. -/
theorem hiddenPartOnlyByLoads : Obligations.HiddenPartOnlyByLoads := by
  intro i s t x hexec hload
  have hx := (exec_effect hexec).sreg x
  generalize hv : t.sreg x = v at hx
  cases hx with
  | kept => rfl
  | loaded ho => exact absurd ho hload
  | entered ho => exact absurd ho hload

/-- A register that agrees with its selector does so after any load: a null one holds no descriptor. -/
theorem SregAfter.null_agree {s : State} {o : Option SReg} {x : SReg} {v : SegReg} (h : SregAfter s o x v)
    (hs : (s.sreg x).valid = false ↔ isNull (s.sreg x).sel = true) : v.valid = false ↔ isNull v.sel = true := by
  cases h with
  | kept => exact hs
  | loaded _ _ hv =>
    rcases hv with ⟨hnull, _, rfl, hvalid⟩ | ⟨d, ⟨_, hnull, _⟩, rfl⟩
    · simp [hvalid, hnull]
    · simp [hnull]
  | entered _ _ hd => simp [hd.1]

/-- Settles O56: a register keeps its agreement, or is loaded with a null selector and no descriptor, or with another
selector and a descriptor. -/
theorem stepKeepsNullAgreement : Obligations.StepKeepsNullAgreement := by
  intro s t hagree hstep x hx
  obtain ⟨o, heffect⟩ := step_effect hstep
  exact (heffect.sreg x).null_agree (hagree x hx)

/-- What R262 (b) and (c) ask of `CS` and R238 of its privilege level, after any transfer. -/
theorem SregAfter.cs_legal {s : State} {o : Option SReg} {v : SegReg} (h : SregAfter s o .cs v) :
    v = s.sreg .cs ∨ (v.valid = true ∧ v.isLoaded ∧ v.d.isCode = true) ∧ selRPL v.sel = s.cpl ∧
      if v.d.conforming = true then v.d.dpl ≤ s.cpl else v.d.dpl = s.cpl := by
  cases h with
  | kept => exact .inl rfl
  | loaded _ hcs _ => exact absurd rfl hcs
  | entered _ _ hd =>
    obtain ⟨_, hs, hcode, hp, hrpl, hpriv⟩ := hd
    exact .inr ⟨by simp [hs, hcode, hp], hrpl, by simpa using hpriv⟩

/-- What R262 (b) and (c) ask of `SS`, after any load: a null selector is none of them. -/
theorem SregAfter.ss_legal {s : State} {o : Option SReg} {v : SegReg} (h : SregAfter s o .ss v) :
    v = s.sreg .ss ∨ (v.valid = true ∧ v.isLoaded ∧ v.d.isWritableData = true) ∧ selRPL v.sel = s.cpl ∧
      v.d.dpl = s.cpl := by
  cases h with
  | kept => exact .inl rfl
  | loaded _ _ hv =>
    rcases hv with ⟨_, hss, _⟩ | ⟨d, ⟨_, _, hs, htype, hp⟩, rfl⟩
    · exact absurd rfl hss
    · obtain ⟨hwritable, hrpl, hdpl⟩ : StackLoadable s _ d := by simpa [TypeLoadable] using htype
      exact .inr ⟨by simp [hs, hp, hwritable], hrpl, hdpl⟩
  | entered _ hcs _ => cases hcs

/-- What R262 (b) and R238 ask of a data register that holds a descriptor, after any load. -/
theorem SregAfter.data_legal {s : State} {o : Option SReg} {x : SReg} {v : SegReg} (h : SregAfter s o x v)
    (hx : x ∈ dataSregs) :
    v = s.sreg x ∨ (v.valid = true → (v.isLoaded ∧ v.d.isReadable = true) ∧
      ((v.d.isCode = true ∧ v.d.conforming = true) ∨ s.cpl ≤ v.d.dpl)) := by
  cases h with
  | kept => exact .inl rfl
  | loaded _ _ hv =>
    have hss : x ≠ .ss := by rintro rfl; simp [dataSregs] at hx
    rcases hv with ⟨_, _, _, hvalid⟩ | ⟨d, ⟨_, _, hs, htype, hp⟩, rfl⟩
    · exact .inr fun hv => by simp [hvalid] at hv
    · obtain ⟨hreadable, hpriv⟩ : DataLoadable s _ d := by simpa [TypeLoadable, hss] using htype
      have hread : d.isReadable = true := by
        cases hcode : d.isCode <;> simp_all [Desc.isReadable]
      exact .inr fun _ => ⟨by simp [hs, hp, hread], by simpa using hpriv.imp_right And.left⟩
  | entered _ hcs _ => subst hcs; simp [dataSregs] at hx

theorem isLdt_type {d : Desc} (h : d.isLdt = true) : d.type = 2 := by
  have hkind : d.kind = .ldt := by simpa [Desc.isLdt] using h
  cases hs : d.s with
  | true => cases hcode : d.isCode <;> simp [Desc.kind, hs, hcode] at hkind
  | false =>
    have htable : ∀ t : BitVec 4, systemKind t = .ldt → t = 2 := by decide
    exact htable d.type (by simpa [Desc.kind, hs] using hkind)

/-- Settles O55: `CS`, `SS` and the data registers are kept or hold what the checks of their load ask, and `LDTR` is
kept, emptied or loaded with an LDT descriptor. -/
theorem stepKeepsSegmentLegality : Obligations.StepKeepsSegmentLegality := by
  intro s t hlegal hstep
  obtain ⟨o, heffect⟩ := step_effect hstep
  obtain ⟨⟨hcs, hss, hdata⟩, ⟨hcsRpl, hssRpl, hssDpl⟩, hldtr⟩ := hlegal
  have hcpl : t.cpl = s.cpl := heffect.mode.1
  have hcs' : (t.seg.cs.valid = true ∧ t.seg.cs.isLoaded ∧ t.seg.cs.d.isCode = true) ∧
      selRPL t.seg.cs.sel = t.cpl := by
    rcases (heffect.sreg .cs).cs_legal with hkept | ⟨htype, hrpl, _⟩
    · rw [show t.seg.cs = s.seg.cs from hkept, hcpl]; exact ⟨hcs, hcsRpl⟩
    · rw [hcpl]; exact ⟨htype, hrpl⟩
  have hss' : (t.seg.ss.valid = true ∧ t.seg.ss.isLoaded ∧ t.seg.ss.d.isWritableData = true) ∧
      selRPL t.seg.ss.sel = t.cpl ∧ t.seg.ss.d.dpl = t.cpl := by
    rcases (heffect.sreg .ss).ss_legal with hkept | hloaded
    · rw [show t.seg.ss = s.seg.ss from hkept, hcpl]; exact ⟨hss, hssRpl, hssDpl⟩
    · rw [hcpl]; exact hloaded
  have hdata' : ∀ x ∈ dataSregs, (t.sreg x).valid = true →
      (t.sreg x).isLoaded ∧ (t.sreg x).d.isReadable = true := by
    intro x hx
    rcases (heffect.sreg x).data_legal hx with hkept | hloaded
    · rw [hkept]; exact hdata x hx
    · exact fun hvalid => (hloaded hvalid).1
  have hldtr' : LdtrLegal t := by
    intro hvalid
    rcases heffect.tables with ⟨_, _, hkept, _⟩ | ⟨_, hkept | hempty | hldt⟩
    · exact hkept ▸ hldtr (hkept ▸ hvalid)
    · exact hkept ▸ hldtr (hkept ▸ hvalid)
    · simp [hempty] at hvalid
    · exact isLdt_type hldt
  exact ⟨⟨hcs'.1, hss'.1, hdata'⟩, ⟨hcs'.2, hss'.2⟩, hldtr'⟩

/-- Settles O57: a register is kept or passed the privilege check of its load at a `CPL` that is kept. -/
theorem stepKeepsPrivilege : Obligations.StepKeepsPrivilege := by
  intro s t ⟨hcs, hdata⟩ hstep
  obtain ⟨o, heffect⟩ := step_effect hstep
  rw [PrivLegal, heffect.mode.1]
  constructor
  · rcases (heffect.sreg .cs).cs_legal with hkept | ⟨_, _, hpriv⟩
    · rw [show t.seg.cs = s.seg.cs from hkept]; exact hcs
    · exact hpriv
  · intro x hx
    rcases (heffect.sreg x).data_legal hx with hkept | hloaded
    · rw [hkept]; exact hdata x hx
    · exact fun hvalid => (hloaded hvalid).2

end Sys2Proof.Machine
end

section
/-! The decoder on the encoder's bytes, part by part: the bytes before the opcode, the operand forms, the immediates, and
the body of each instruction (30_encoding.md R130 to R136). The forms that no decoder accepts. -/

namespace Sys2Proof

/-! ### The bytes before the opcode (R130, R131) -/

/-- The bytes of at most `n` of `qs` are read one by one. -/
theorem Dec.prefixed_run (db : Bool) (qs : List Pfx) (n : Nat) (ps : List Pfx) (bs : List Byte)
    (hn : qs.length ≤ n) :
    (Dec.prefixed db n ps).run (qs.map Pfx.toByte ++ bs) =
      (Dec.prefixed db (n - qs.length) (ps ++ qs)).run bs := by
  induction qs generalizing n ps with
  | nil => simp
  | cons q qs ih =>
    obtain ⟨m, rfl⟩ : ∃ m, n = m + 1 := ⟨n - 1, by simp at hn; omega⟩
    have hm : qs.length ≤ m := by simpa using hn
    simp [Dec.prefixed, Dec.run, ih m _ hm]

/-- A byte that stands for none of them is the opcode. -/
theorem Dec.prefixed_run_opcode (db : Bool) (n : Nat) (ps : List Pfx) {b : Byte} (bs : List Byte)
    (hb : Pfx.ofByte b = none) :
    (Dec.prefixed db n ps).run (b :: bs) =
      (Dec.opcode ((Head.mk' db ps).asz db) (Head.mk' db ps) b).run bs := by
  cases n <;> simp [Dec.prefixed, Dec.run, hb]

/-- The head of a well-formed instruction is the one its own bytes make. -/
theorem Head.mk'_of_wf {db : Bool} {h : Head} (hw : h.wf db = true) : Head.mk' db h.pfx = h := by
  have hosz : h.osz = sizeOf db (h.pfx.contains .opSize) := by
    simp only [Head.wf, Bool.and_eq_true, decide_eq_true_eq] at hw
    exact hw.2
  rw [Head.mk', ← hosz]

/-- After the bytes of a well-formed head the decoder reads an opcode with that head. -/
theorem decode_head {db : Bool} {h : Head} (hw : h.wf db = true) {b : Byte} (bs : List Byte)
    (hb : Pfx.ofByte b = none) :
    decode db (h.pfx.map Pfx.toByte ++ b :: bs) = (Dec.opcode (h.asz db) h b).run bs := by
  have hlen : h.pfx.length ≤ 4 := by
    simp only [Head.wf, Bool.and_eq_true, decide_eq_true_eq] at hw
    exact hw.1
  rw [decode, decoder, Dec.prefixed_run db _ 4 [] _ hlen, List.nil_append, Dec.prefixed_run_opcode db _ _ _ hb,
    Head.mk'_of_wf hw]

/-! ### Operand forms (R132, R133) -/

theorem Base16.toBits_ne_six {b : Base16} (h : b ≠ .bp) : b.toBits ≠ 6#3 := by revert h; cases b <;> decide

theorem Reg.toBits_ne_four {r : Reg} (h : r ≠ .esp) : r.toBits ≠ 4#3 := by revert h; cases r <;> decide

theorem Reg.toBits_ne_five {r : Reg} (h : r ≠ .ebp) : r.toBits ≠ 5#3 := by revert h; cases r <;> decide

/-- A memory operand of the address size is read back; the displacement says which `mod` stands for it. -/
theorem Dec.modRM_run_mem {z : Size} (k : BitVec 3 → RM → Dec) (reg : BitVec 3) {m : Mem} (rest : List Byte)
    (hw : m.wf z = true) : (Dec.modRM z k).run (m.enc reg ++ rest) = (k reg (.mem m)).run rest := by
  cases m with
  | abs16 d =>
    obtain rfl : z = .s16 := by simpa [Mem.wf] using hw
    simp [Dec.modRM, Mem.enc, Dec.run, Dec.mem, Dec.mem16]
  | ind16 b d =>
    obtain ⟨rfl, hbp⟩ : z = .s16 ∧ (b ≠ .bp ∨ d ≠ .none) := by simpa [Mem.wf] using hw
    cases d with
    | none => simp [Dec.modRM, Mem.enc, Dec.run, Dec.mem, Dec.mem16, Disp16.enc, 
        Base16.toBits_ne_six (hbp.resolve_right fun h => h rfl)]
    | d8 v => simp [Dec.modRM, Mem.enc, Dec.run, Dec.mem, Dec.mem16, Disp16.enc, Dec.imm8]
    | d16 v => simp [Dec.modRM, Mem.enc, Dec.run, Dec.mem, Dec.mem16, Disp16.enc]
  | abs32 d =>
    obtain rfl : z = .s32 := by simpa [Mem.wf] using hw
    simp [Dec.modRM, Mem.enc, Dec.run, Dec.mem, Dec.mem32]
  | ind32 b d =>
    obtain ⟨⟨rfl, hesp⟩, hebp⟩ : (z = .s32 ∧ b ≠ .esp) ∧ (b ≠ .ebp ∨ d ≠ .none) := by simpa [Mem.wf] using hw
    cases d with
    | none => simp [Dec.modRM, Mem.enc, Dec.run, Dec.mem, Dec.mem32, Disp32.enc, 
        Reg.toBits_ne_four hesp, Reg.toBits_ne_five (hebp.resolve_right fun h => h rfl)]
    | d8 v => simp [Dec.modRM, Mem.enc, Dec.run, Dec.mem, Dec.mem32, Disp32.enc, Dec.imm8,
        Reg.toBits_ne_four hesp]
    | d32 v => simp [Dec.modRM, Mem.enc, Dec.run, Dec.mem, Dec.mem32, Disp32.enc, Reg.toBits_ne_four hesp]
  | sib sc i b d =>
    obtain ⟨⟨rfl, hi⟩, hebp⟩ : (z = .s32 ∧ Mem.indexWf i = true) ∧ (b ≠ .ebp ∨ d ≠ .none) := by
      simpa [Mem.wf] using hw
    cases d with
    | none => simp [Dec.modRM, Mem.enc, Dec.run, Dec.mem, Dec.mem32, Dec.memSib, Disp32.enc,
        indexOfBits_toBits i hi, Reg.toBits_ne_five (hebp.resolve_right fun h => h rfl)]
    | d8 v => simp [Dec.modRM, Mem.enc, Dec.run, Dec.mem, Dec.mem32, Dec.memSib, Disp32.enc, Dec.imm8,
        indexOfBits_toBits i hi]
    | d32 v => simp [Dec.modRM, Mem.enc, Dec.run, Dec.mem, Dec.mem32, Dec.memSib, Disp32.enc,
        indexOfBits_toBits i hi]
  | sibAbs sc i d =>
    obtain ⟨rfl, hi⟩ : z = .s32 ∧ Mem.indexWf i = true := by simpa [Mem.wf] using hw
    simp [Dec.modRM, Mem.enc, Dec.run, Dec.mem, Dec.mem32, Dec.memSib, indexOfBits_toBits i hi]

/-- With `mod` 3 the operand is a register and no other byte belongs to it. -/
theorem Dec.modRM_run_reg (z : Size) (k : BitVec 3 → RM → Dec) {b : Byte} (rest : List Byte)
    (hb : topField b = 3) :
    (Dec.modRM z k).run (b :: rest) = (k (field3 3 b) (.reg (.ofBits (field3 0 b)))).run rest := by
  simp [Dec.modRM, Dec.run, hb]

/-- A ModRM operand is read back. -/
theorem Dec.modRM_run {z : Size} (k : BitVec 3 → RM → Dec) (reg : BitVec 3) {o : RM} (rest : List Byte)
    (hw : o.wf z = true) : (Dec.modRM z k).run (o.enc reg ++ rest) = (k reg o).run rest := by
  cases o with
  | reg r =>
    rw [RM.enc, List.cons_append, Dec.modRM_run_reg z k _ (topField_packByte ..)]
    simp
  | mem m => exact Dec.modRM_run_mem k reg rest hw

theorem Dec.farLoad_run {z : Size} (k : Reg → Mem → Instr) (r : Reg) {m : Mem} (rest : List Byte)
    (hw : m.wf z = true) : (Dec.farLoad z k).run (m.enc r.toBits ++ rest) = .ok (k r m) rest := by
  rw [Dec.farLoad, Dec.modRM_run_mem _ _ _ hw]
  simp [Dec.memOnly, Dec.run]

/-- A far-pointer immediate whose offset fits the operand size is read back. -/
theorem Dec.farPtr_run {z : Size} (k : Half → Word → Instr) (sel : Half) {off : Word} (rest : List Byte)
    (hw : offWf z off = true) :
    (Dec.farPtr z k).run (farPtrBytes z sel off ++ rest) = .ok (k sel off) rest := by
  cases z with
  | s32 => simp [Dec.farPtr, farPtrBytes, Dec.run]
  | s16 =>
    have hoff : off.toNat < 65536 := by simpa [offWf] using hw
    have hcut : (off.setWidth 16).setWidth 32 = off := by
      apply BitVec.eq_of_toNat_eq
      simp
      omega
    simp [Dec.farPtr, farPtrBytes, Dec.run, hcut]

theorem Dec.opcode_9A (z : Size) (h : Head) : Dec.opcode z h 0x9A = .farPtr h.osz (.callPtr h) := by
  simp [Dec.opcode]

theorem Dec.opcode_EA (z : Size) (h : Head) : Dec.opcode z h 0xEA = .farPtr h.osz (.jmpPtr h) := by
  simp [Dec.opcode]

/-- The four instructions `0F 00 /n` are read back. -/
theorem Dec.run_0F00 {z : Size} {h : Head} {n : BitVec 3} {o : RM} {i : Instr} (rest : List Byte)
    (hw : o.wf z = true) (hi : (n, i) ∈ [(0, Instr.sldt h o), (1, .str h o), (2, .lldt h o), (3, .ltr h o)]) :
    (Dec.opcode z h 0x0F).run (0x00 :: (o.enc n ++ rest)) = .ok i rest := by
  rw [Dec.opcode_0F, Dec.run, Dec.opcode0F_00, Dec.group0F00, Dec.modRM_run _ _ _ hw]
  simp only [List.mem_cons, Prod.mk.injEq, List.not_mem_nil, or_false] at hi
  rcases hi with ⟨rfl, rfl⟩ | ⟨rfl, rfl⟩ | ⟨rfl, rfl⟩ | ⟨rfl, rfl⟩ <;> simp [Dec.run]

/-- The four instructions `0F 01 /n` are read back. -/
theorem Dec.run_0F01 {z : Size} {h : Head} {n : BitVec 3} {m : Mem} {i : Instr} (rest : List Byte)
    (hw : m.wf z = true) (hi : (n, i) ∈ [(0, Instr.sgdt h m), (1, .sidt h m), (2, .lgdt h m), (3, .lidt h m)]) :
    (Dec.opcode z h 0x0F).run (0x01 :: (m.enc n ++ rest)) = .ok i rest := by
  rw [Dec.opcode_0F, Dec.run, Dec.opcode0F_01, Dec.group0F01, Dec.modRM_run_mem _ _ _ hw]
  simp only [List.mem_cons, Prod.mk.injEq, List.not_mem_nil, or_false] at hi
  rcases hi with ⟨rfl, rfl⟩ | ⟨rfl, rfl⟩ | ⟨rfl, rfl⟩ | ⟨rfl, rfl⟩ <;> simp [Dec.memOnly, Dec.run]

/-- The two instructions `FF /n` are read back. -/
theorem Dec.run_FF {z : Size} {h : Head} {n : BitVec 3} {m : Mem} {i : Instr} (rest : List Byte)
    (hw : m.wf z = true) (hi : (n, i) ∈ [(3, Instr.callMem h m), (5, .jmpMem h m)]) :
    (Dec.opcode z h 0xFF).run (m.enc n ++ rest) = .ok i rest := by
  rw [Dec.opcode_FF, Dec.groupFF, Dec.modRM_run_mem _ _ _ hw]
  simp only [List.mem_cons, Prod.mk.injEq, List.not_mem_nil, or_false] at hi
  rcases hi with ⟨rfl, rfl⟩ | ⟨rfl, rfl⟩ <;> simp [Dec.memOnly, Dec.run]

/-! ### The round trip -/

/-- The body of a well-formed instruction is an opcode byte and what the decoder of that opcode reads back. -/
theorem body_decodes {db : Bool} {i : Instr} (hw : i.wf db = true) :
    ∃ b bs, i.body = b :: bs ∧ Pfx.ofByte b = none ∧
      ∀ rest, (Dec.opcode (i.head.asz db) i.head b).run (bs ++ rest) = .ok i rest := by
  have hform := (Bool.and_eq_true_iff.mp hw).2
  cases i with
  | movSregRm h x src =>
    obtain ⟨hcs, hsrc⟩ : x ≠ .cs ∧ src.wf (h.asz db) = true := by simpa using hform
    refine ⟨_, _, rfl, by decide, fun rest => ?_⟩
    rw [Dec.opcode_8E, Dec.movSregRm, Instr.head, Dec.modRM_run _ _ _ hsrc]
    simp [hcs, Dec.run]
  | movRmSreg h dst x =>
    refine ⟨_, _, rfl, by decide, fun rest => ?_⟩
    rw [Dec.opcode_8C, Dec.movRmSreg, Instr.head, Dec.modRM_run _ _ _ hform]
    simp [Dec.run]
  | popEs h => exact ⟨_, _, rfl, by decide, fun rest => by simp [Dec.opcode, Dec.run, Instr.head]⟩
  | popSs h => exact ⟨_, _, rfl, by decide, fun rest => by simp [Dec.opcode, Dec.run, Instr.head]⟩
  | popDs h => exact ⟨_, _, rfl, by decide, fun rest => by simp [Dec.opcode, Dec.run, Instr.head]⟩
  | popFs h => exact ⟨_, _, rfl, by decide, fun rest => by simp [Dec.opcode, Dec.opcode0F, Dec.run, Instr.head]⟩
  | popGs h => exact ⟨_, _, rfl, by decide, fun rest => by simp [Dec.opcode, Dec.opcode0F, Dec.run, Instr.head]⟩
  | lds h r m =>
    refine ⟨_, _, rfl, by decide, fun rest => ?_⟩
    rw [Dec.opcode_C5, Instr.head, Dec.farLoad_run _ _ _ hform]
  | les h r m =>
    refine ⟨_, _, rfl, by decide, fun rest => ?_⟩
    rw [Dec.opcode_C4, Instr.head, Dec.farLoad_run _ _ _ hform]
  | lss h r m =>
    refine ⟨_, _, rfl, by decide, fun rest => ?_⟩
    rw [Dec.opcode_0F, List.cons_append, Dec.run, Dec.opcode0F_B2, Instr.head, Dec.farLoad_run _ _ _ hform]
  | lfs h r m =>
    refine ⟨_, _, rfl, by decide, fun rest => ?_⟩
    rw [Dec.opcode_0F, List.cons_append, Dec.run, Dec.opcode0F_B4, Instr.head, Dec.farLoad_run _ _ _ hform]
  | lgs h r m =>
    refine ⟨_, _, rfl, by decide, fun rest => ?_⟩
    rw [Dec.opcode_0F, List.cons_append, Dec.run, Dec.opcode0F_B5, Instr.head, Dec.farLoad_run _ _ _ hform]
  | jmpPtr h sel off =>
    refine ⟨_, _, rfl, by decide, fun rest => ?_⟩
    rw [Dec.opcode_EA, Instr.head, Dec.farPtr_run _ _ _ hform]
  | jmpMem h m => exact ⟨_, _, rfl, by decide, fun rest => Dec.run_FF rest hform (by simp [Instr.head])⟩
  | callPtr h sel off =>
    refine ⟨_, _, rfl, by decide, fun rest => ?_⟩
    rw [Dec.opcode_9A, Instr.head, Dec.farPtr_run _ _ _ hform]
  | callMem h m => exact ⟨_, _, rfl, by decide, fun rest => Dec.run_FF rest hform (by simp [Instr.head])⟩
  | retf h => exact ⟨_, _, rfl, by decide, fun rest => by simp [Dec.opcode, Dec.run, Instr.head]⟩
  | retfImm h n => exact ⟨_, _, rfl, by decide, fun rest => by simp [Dec.opcode, Dec.run, Instr.head]⟩
  | iret h => exact ⟨_, _, rfl, by decide, fun rest => by simp [Dec.opcode, Dec.run, Instr.head]⟩
  | intN h n => exact ⟨_, _, rfl, by decide, fun rest => by simp [Dec.opcode, Dec.imm8, Dec.run, Instr.head]⟩
  | int3 h => exact ⟨_, _, rfl, by decide, fun rest => by simp [Dec.opcode, Dec.run, Instr.head]⟩
  | into h => exact ⟨_, _, rfl, by decide, fun rest => by simp [Dec.opcode, Dec.run, Instr.head]⟩
  | sysenter h => exact ⟨_, _, rfl, by decide, fun rest => by simp [Dec.opcode, Dec.opcode0F, Dec.run, Instr.head]⟩
  | sysexit h => exact ⟨_, _, rfl, by decide, fun rest => by simp [Dec.opcode, Dec.opcode0F, Dec.run, Instr.head]⟩
  | sgdt h m => exact ⟨_, _, rfl, by decide, fun rest => Dec.run_0F01 rest hform (by simp [Instr.head])⟩
  | sidt h m => exact ⟨_, _, rfl, by decide, fun rest => Dec.run_0F01 rest hform (by simp [Instr.head])⟩
  | sldt h o => exact ⟨_, _, rfl, by decide, fun rest => Dec.run_0F00 rest hform (by simp [Instr.head])⟩
  | str h o => exact ⟨_, _, rfl, by decide, fun rest => Dec.run_0F00 rest hform (by simp [Instr.head])⟩
  | lgdt h m => exact ⟨_, _, rfl, by decide, fun rest => Dec.run_0F01 rest hform (by simp [Instr.head])⟩
  | lidt h m => exact ⟨_, _, rfl, by decide, fun rest => Dec.run_0F01 rest hform (by simp [Instr.head])⟩
  | lldt h o => exact ⟨_, _, rfl, by decide, fun rest => Dec.run_0F00 rest hform (by simp [Instr.head])⟩
  | ltr h o => exact ⟨_, _, rfl, by decide, fun rest => Dec.run_0F00 rest hform (by simp [Instr.head])⟩

/-- Settles O1: the head's bytes are read back first, then the body. -/
theorem decodeOfEncode : Obligations.DecodeOfEncode := by
  intro db i rest hw
  obtain ⟨b, bs, hbody, hb, hrun⟩ := body_decodes hw
  rw [encode, hbody, List.append_assoc, List.cons_append, decode_head (Bool.and_eq_true_iff.mp hw).1 _ hb, hrun]

/-- Settles O2: each byte string is decoded by evaluation. -/
theorem specWordsDecode : Obligations.SpecWordsDecode := by
  refine ⟨?_, ?_, ?_, ?_, ?_, ?_, ?_, ?_, ?_, ?_, ?_⟩ <;> decide

/-! ### The forms that are no instruction (R136) -/

/-- A decoder that answers no instruction, whatever bytes follow. -/
def Dec.Rejects (d : Dec) : Prop := ∀ bs i rest, d.run bs ≠ .ok i rest

theorem Dec.rejects_bad (e : DecodeError) : (Dec.bad e).Rejects := fun _ _ _ h => by cases h

theorem Dec.rejects_need {k : Byte → Dec} (hk : ∀ b, (k b).Rejects) : (Dec.need k).Rejects := by
  intro bs i rest h
  cases bs with
  | nil => cases h
  | cons b bs => exact hk b bs i rest h

theorem Dec.rejects_imm16 {k : BitVec 16 → Dec} (hk : ∀ v, (k v).Rejects) : (Dec.imm16 k).Rejects :=
  rejects_need fun _ => rejects_need fun _ => hk _

theorem Dec.rejects_imm32 {k : BitVec 32 → Dec} (hk : ∀ v, (k v).Rejects) : (Dec.imm32 k).Rejects :=
  rejects_need fun _ => rejects_need fun _ => rejects_need fun _ => rejects_need fun _ => hk _

theorem Dec.rejects_mem16 {mod : BitVec 2} {rm : BitVec 3} {k : Mem → Dec} (hk : ∀ m, (k m).Rejects) :
    (Dec.mem16 mod rm k).Rejects := by
  unfold Dec.mem16
  split
  · split
    · exact rejects_imm16 fun _ => hk _
    · exact hk _
  split
  · exact rejects_need fun _ => hk _
  · exact rejects_imm16 fun _ => hk _

theorem Dec.rejects_memSib {mod : BitVec 2} {sib : Byte} {k : Mem → Dec} (hk : ∀ m, (k m).Rejects) :
    (Dec.memSib mod sib k).Rejects := by
  simp only [Dec.memSib]
  split
  · split
    · exact rejects_imm32 fun _ => hk _
    · exact hk _
  split
  · exact rejects_need fun _ => hk _
  · exact rejects_imm32 fun _ => hk _

theorem Dec.rejects_mem32 {mod : BitVec 2} {rm : BitVec 3} {k : Mem → Dec} (hk : ∀ m, (k m).Rejects) :
    (Dec.mem32 mod rm k).Rejects := by
  unfold Dec.mem32
  split
  · exact rejects_need fun _ => rejects_memSib hk
  split
  · split
    · exact rejects_imm32 fun _ => hk _
    · exact hk _
  split
  · exact rejects_need fun _ => hk _
  · exact rejects_imm32 fun _ => hk _

/-- A `reg` field that is refused with every operand is refused after any operand bytes. -/
theorem Dec.modRM_run_rejects {z : Size} {k : BitVec 3 → RM → Dec} {b : Byte}
    (hk : ∀ o, (k (field3 3 b) o).Rejects) (bs : List Byte) (i : Instr) (rest : List Byte) :
    (Dec.modRM z k).run (b :: bs) ≠ .ok i rest := by
  rw [Dec.modRM, Dec.run]
  split
  · exact hk _ _ _ _
  · cases z with
    | s16 => exact rejects_mem16 (fun _ => hk _) _ _ _
    | s32 => exact rejects_mem32 (fun _ => hk _) _ _ _

/-- Without anything before it, an opcode byte is decoded with the head of no such byte. -/
theorem decode_opcode (db : Bool) {b : Byte} (bs : List Byte) (hb : Pfx.ofByte b = none) :
    decode db (b :: bs) = (Dec.opcode ((Head.mk' db []).asz db) (Head.mk' db []) b).run bs :=
  Dec.prefixed_run_opcode db 4 [] bs hb

theorem Dec.farLoad_run_reg (z : Size) (k : Reg → Mem → Instr) {b : Byte} (rest : List Byte)
    (hb : topField b = 3) : (Dec.farLoad z k).run (b :: rest) = .illegal .registerOperand := by
  rw [Dec.farLoad, Dec.modRM_run_reg _ _ _ hb]
  rfl

theorem Dec.movSregRm_run_ne_ok (z : Size) (h : Head) {b : Byte}
    (hb : field3 3 b = 1 ∨ field3 3 b = 6 ∨ field3 3 b = 7) (bs : List Byte) (i : Instr) (rest : List Byte) :
    (Dec.movSregRm z h).run (b :: bs) ≠ .ok i rest := by
  refine Dec.modRM_run_rejects (fun o => ?_) bs i rest
  rcases hb with hb | hb | hb <;> rw [hb] <;> exact rejects_bad _

theorem Dec.movRmSreg_run_ne_ok (z : Size) (h : Head) {b : Byte} (hb : field3 3 b = 6 ∨ field3 3 b = 7)
    (bs : List Byte) (i : Instr) (rest : List Byte) : (Dec.movRmSreg z h).run (b :: bs) ≠ .ok i rest := by
  refine Dec.modRM_run_rejects (fun o => ?_) bs i rest
  rcases hb with hb | hb <;> rw [hb] <;> exact rejects_bad _

theorem Dec.groupFF_run_reg (z : Size) (h : Head) {b : Byte} (rest : List Byte) (htop : topField b = 3)
    (hb : field3 3 b = 3 ∨ field3 3 b = 5) : (Dec.groupFF z h).run (b :: rest) = .illegal .registerOperand := by
  rw [Dec.groupFF, Dec.modRM_run_reg _ _ _ htop]
  rcases hb with hb | hb <;> rw [hb] <;> rfl

theorem Dec.group0F01_run_reg (z : Size) (h : Head) {b : Byte} (rest : List Byte) (htop : topField b = 3)
    (hb : field3 3 b = 0 ∨ field3 3 b = 1 ∨ field3 3 b = 2 ∨ field3 3 b = 3) :
    (Dec.group0F01 z h).run (b :: rest) = .illegal .registerOperand := by
  rw [Dec.group0F01, Dec.modRM_run_reg _ _ _ htop]
  rcases hb with hb | hb | hb | hb <;> rw [hb] <;> rfl

/-- Settles O3: the `reg` fields of `8EH` and `8CH` that name no register are refused with every operand, and with
`mod` 3 the other opcodes refuse the register operand. -/
theorem illegalFormsRefused : Obligations.IllegalFormsRefused := by
  intro db m rest
  refine ⟨fun hm i r => ?_, fun hm i r => ?_, fun htop => ⟨?_, ?_, ?_, ?_, ?_, fun hm => ?_, fun hm => ?_⟩⟩
  · rw [decode_opcode db _ (by decide), Dec.opcode_8E]
    exact Dec.movSregRm_run_ne_ok _ _ hm _ _ _
  · rw [decode_opcode db _ (by decide), Dec.opcode_8C]
    exact Dec.movRmSreg_run_ne_ok _ _ hm _ _ _
  · rw [decode_opcode db _ (by decide), Dec.opcode_C4, Dec.farLoad_run_reg _ _ _ htop]
  · rw [decode_opcode db _ (by decide), Dec.opcode_C5, Dec.farLoad_run_reg _ _ _ htop]
  · rw [decode_opcode db _ (by decide), Dec.opcode_0F, Dec.run, Dec.opcode0F_B2, Dec.farLoad_run_reg _ _ _ htop]
  · rw [decode_opcode db _ (by decide), Dec.opcode_0F, Dec.run, Dec.opcode0F_B4, Dec.farLoad_run_reg _ _ _ htop]
  · rw [decode_opcode db _ (by decide), Dec.opcode_0F, Dec.run, Dec.opcode0F_B5, Dec.farLoad_run_reg _ _ _ htop]
  · rw [decode_opcode db _ (by decide), Dec.opcode_FF, Dec.groupFF_run_reg _ _ _ htop hm]
  · rw [decode_opcode db _ (by decide), Dec.opcode_0F, Dec.run, Dec.opcode0F_01, Dec.group0F01_run_reg _ _ _ htop hm]

end Sys2Proof

namespace Sys2Proof.Machine

/-! ### Fetching the bytes that decode -/

/-- When every byte of a list is what the fetch reads at its place, the fetch runs the decoder on the list. -/
theorem State.fetchRun_of_run {s : State} {i : Instr} (d : Dec) (bs rest : List Byte) (n : Nat)
    (hrun : d.run bs = .ok i rest) (hbytes : ∀ k b, bs[k]? = some b → s.fetchByte (n + k) = .ok b) :
    s.fetchRun d n = .ok i := by
  induction d generalizing bs n with
  | done j => cases hrun; rfl
  | bad e => cases hrun
  | need k ih =>
    cases bs with
    | nil => cases hrun
    | cons b bs =>
      have hfirst : s.fetchByte n = .ok b := hbytes 0 b rfl
      rw [State.fetchRun, hfirst]
      refine ih b bs (n + 1) hrun fun j c hc => ?_
      rw [Nat.add_assoc, Nat.add_comm 1]
      exact hbytes (j + 1) c hc

/-- Settles O4: the fetch decodes the bytes it reads, and a step is `exec` of what it decodes. -/
theorem stepRunsDecodedInstruction : Obligations.StepRunsDecodedInstruction := by
  intro s bs rest i hhung hdecode hbytes
  have hfetch : s.fetchInstr = .ok i :=
    State.fetchRun_of_run _ bs rest 0 hdecode (by simpa using hbytes)
  simp [step, hhung, hfetch]

end Sys2Proof.Machine
end

section
/-! Descriptors as bits, limits, and the decision of `SegAccess` (30_encoding.md section A2, 20_memory.md section 2). -/

namespace Sys2Proof.Machine

/-! ### The descriptor layout (30_encoding.md R112) -/

theorem ofBits_toBits (d : Desc) : Desc.ofBits d.toBits = d := by
  obtain ⟨base, limit20, type, s, dpl, p, avl, l, db, g⟩ := d
  simp only [Desc.ofBits, Desc.toBits, Desc.mk.injEq]
  refine ⟨?base, ?limit, ?type, ?_, ?dpl, ?_, ?_, ?_, ?_, ?_⟩
  case base | limit | type | dpl =>
    apply BitVec.eq_of_getLsbD_eq
    intro i hi
    simp only [BitVec.getLsbD_append, BitVec.getLsbD_extractLsb', BitVec.getLsbD_ofBool]
    interval_cases i <;> simp
  all_goals
    simp only [BitVec.getLsbD_append, BitVec.getLsbD_extractLsb', BitVec.getLsbD_ofBool]
    simp

theorem toBits_ofBits (v : BitVec 64) : (Desc.ofBits v).toBits = v := by
  apply BitVec.eq_of_getLsbD_eq
  intro i hi
  simp only [Desc.ofBits, Desc.toBits, BitVec.getLsbD_append, BitVec.getLsbD_extractLsb', BitVec.getLsbD_ofBool]
  interval_cases i <;> simp

/-- Settles O9: bit by bit, each field is read where it is written and each bit is written where it is read. -/
theorem descriptorLayoutRoundTrip : Obligations.DescriptorLayoutRoundTrip := ⟨ofBits_toBits, toBits_ofBits⟩

/-- Table 2 in the order of the types 0 to 15 (R122). -/
def systemTable : List DescKind :=
  [.reserved, .tss16 false, .ldt, .tss16 true, .callGate16, .taskGate, .interruptGate16, .trapGate16, .reserved,
   .tss32 false, .reserved, .tss32 true, .callGate32, .reserved, .interruptGate32, .trapGate32]

theorem systemKind_eq_systemTable : ∀ t : BitVec 4, systemKind t = systemTable.getD t.toNat .reserved := by decide

theorem kind_of_system {d : Desc} (hs : d.s = false) : d.kind = systemKind d.type := by simp [Desc.kind, hs]

/-- Settles O11: with S = 0 the type alone gives the kind, by the rows of table 2. -/
theorem systemTypes : Obligations.SystemTypes :=
  fun d hs => (kind_of_system hs).trans (systemKind_eq_systemTable d.type)

/-! ### Limits (20_memory.md R72 to R75) -/

/-- Settles O12: scaling by G multiplies by 4096 and fills the low 12 bits with ones. -/
theorem effectiveLimitScaling : Obligations.EffectiveLimitScaling := by
  intro d
  have hlimit := d.limit20.isLt
  constructor
  · intro hg
    have heff : effLimit d = d.limit20.toNat := by simp [effLimit, hg]
    omega
  · intro hg
    have heff : effLimit d = d.limit20.toNat * 4096 + 4095 := by simp [effLimit, hg]
    exact ⟨by omega, by omega, fun off => by omega⟩

/-- The limit check of an expand-up segment (R73). -/
theorem inLimit_up {d : Desc} (hd : d.expandDown = false) (off n : Nat) :
    inLimit d off n = true ↔ off + n - 1 ≤ effLimit d := by simp [inLimit, hd]

/-- The limit check of an expand-down segment (R74; log 32). -/
theorem inLimit_down {d : Desc} (hd : d.expandDown = true) (off n : Nat) :
    inLimit d off n = true ↔ effLimit d < off ∧ off + n - 1 ≤ upperBound d := by simp [inLimit, hd]

/-- Every offset within a limit is a 32-bit number. -/
theorem inLimit_lt {d : Desc} {off n : Nat} (h : inLimit d off n = true) : off + n ≤ 2 ^ 32 := by
  have heff := effLimit_lt d
  cases hd : d.expandDown with
  | false => have := (inLimit_up hd off n).mp h; omega
  | true =>
    have hend := ((inLimit_down hd off n).mp h).2
    have hupper : upperBound d < 2 ^ 32 := by unfold upperBound; split <;> omega
    omega

theorem inLimit_iff_every_byte (d : Desc) (off n : Nat) (hn : 1 ≤ n) :
    inLimit d off n = true ↔ ∀ i < n, inLimit d (off + i) 1 = true := by
  cases hd : d.expandDown with
  | false =>
    simp only [inLimit_up hd]
    constructor
    · intro h i hi; omega
    · intro h; have := h (n - 1) (by omega); omega
  | true =>
    simp only [inLimit_down hd]
    constructor
    · intro h i hi; omega
    · intro h
      have hfirst := h 0 (by omega)
      have hlast := h (n - 1) (by omega)
      omega

/-- Settles O13: the check of a range is that of its first and last byte. -/
theorem limitCheckCoversEveryByte : Obligations.LimitCheckCoversEveryByte := by
  refine ⟨inLimit_iff_every_byte, fun d hd off => ?_, fun d hd off => ?_⟩
  · rw [inLimit_up hd]; omega
  · rw [inLimit_down hd, Nat.add_sub_cancel, upperBound]

/-! ### `SegAccess` (20_memory.md R70, R86) -/

/-- The fault of a segmentation check, `SegFault(x, 0)`. -/
def segFaultOf (s : State) (x : SReg) : Fault :=
  if x = .ss ∧ s.par.ssFault = .ss then .ss (s.errCode 0) else .gp (s.errCode 0)

theorem segFault_zero (s : State) (x : SReg) : segFault s x 0 = .fault (segFaultOf s x) := by
  unfold segFault segFaultOf raise
  split <;> rfl

theorem State.alignFault_iff (s : State) (la : Word) (n : Nat) :
    s.alignFault la n = true ↔ Misaligned s la n := by
  simp [State.alignFault, Misaligned, and_assoc, or_assoc]

/-- Every failed segmentation check is the same fault. -/
theorem State.segCheck_eq (s : State) (x : SReg) (off n : Nat) (u : Use) :
    s.segCheck x off n u = if SegAllows s x off n u then .ok () else .error (.fault (segFaultOf s x)) := by
  rw [← segFault_zero]
  by_cases h : SegAllows s x off n u
  · rw [if_pos h, State.segCheck_ok.mpr h]
  · rw [if_neg h]
    unfold State.segCheck
    cases hv : (s.sreg x).valid with
    | false => rfl
    | true =>
      cases ht : typeAllows (s.sreg x).d u with
      | false => rfl
      | true =>
        cases hl : inLimit (s.sreg x).d off n with
        | false => rfl
        | true => exact absurd ⟨hv, ht, hl⟩ h

/-- `SegAccess` as one decision. -/
theorem State.segAccess_eq (s : State) (x : SReg) (off n : Nat) (u : Use) :
    s.segAccess x off n u =
      if ¬ SegAllows s x off n u then .error (.fault (segFaultOf s x))
      else if Misaligned s (s.linAddr x off) n then .error (.fault (.ac (s.errCode 0)))
      else .ok (s.linAddr x off) := by
  rw [State.segAccess, State.segCheck_eq]
  by_cases hallows : SegAllows s x off n u
  · rw [if_pos hallows, if_neg (not_not.mpr hallows), ok_bind]
    by_cases halign : Misaligned s (s.linAddr x off) n
    · rw [if_pos halign, (s.alignFault_iff _ _).mpr halign]
      rfl
    · have hno : s.alignFault (s.linAddr x off) n = false := by
        rw [← Bool.not_eq_true, State.alignFault_iff]; exact halign
      rw [if_neg halign, hno]
      rfl
  · rw [if_neg hallows, if_pos hallows]
    rfl

/-- Settles O14: the three segmentation checks are one fault, and alignment is looked at after them. -/
theorem segAccessDecision : Obligations.SegAccessDecision := State.segAccess_eq

/-- An access that every check allows answers its linear address. -/
theorem State.segAccess_of_allowed {s : State} {x : SReg} {off n : Nat} {u : Use} (hallows : SegAllows s x off n u)
    (halign : ¬ Misaligned s (s.linAddr x off) n) : s.segAccess x off n u = .ok (s.linAddr x off) := by
  rw [State.segAccess_eq, if_neg (not_not.mpr hallows), if_neg halign]

/-- Settles O16: the limit FFFFFH with G = 1 covers every 32-bit offset, and adding base 0 changes nothing. -/
theorem flatSegmentIdentity : Obligations.FlatSegmentIdentity := by
  intro s x u off n hvalid hbase hlimit hg hup htype hn hend halign
  have hla : s.linAddr x off = BitVec.ofNat 32 off := by rw [State.linAddr, hbase]; exact BitVec.zero_add _
  have hcovers : inLimit (s.sreg x).d off n = true := by
    have heff : effLimit (s.sreg x).d = 2 ^ 32 - 1 := by simp [effLimit, hg, hlimit]
    rw [inLimit_up hup, heff]
    omega
  rw [← hla] at halign
  refine ⟨_, State.segAccess_of_allowed ⟨hvalid, htype, hcovers⟩ halign, ?_⟩
  rw [hla, BitVec.toNat_ofNat]
  omega

/-- Settles O60: the reset state is a literal, and each invariant is decided by evaluation. -/
theorem resetIsLegal : Obligations.ResetIsLegal := by
  refine ⟨?_, ?_, ?_⟩ <;> decide

end Sys2Proof.Machine
end

section
/-! Memory without paging: what a linear read answers, a store read back, and `ReadDescriptor` (20_memory.md R63, R66,
R81 to R84). -/

namespace Sys2Proof.Machine

/-! ### Bytes as numbers (R63) -/

/-- The number whose bytes are `f 0`, `f 1` and so on. -/
theorem leValue_map_range (f : Nat → Byte) (n : Nat) :
    leValue ((List.range n).map f) = ∑ i ∈ Finset.range n, (f i).toNat * 256 ^ i := by
  induction n generalizing f with
  | zero => rfl
  | succ n ih =>
    have hshift : ∀ i, (f (i + 1)).toNat * 256 ^ (i + 1) = 256 * ((f (i + 1)).toNat * 256 ^ i) := fun i => by ring
    rw [List.range_succ_eq_map, List.map_cons, List.map_map, leValue, ih, Finset.sum_range_succ', Finset.mul_sum]
    simp only [Function.comp, hshift, pow_zero, mul_one, Nat.succ_eq_add_one]
    exact Nat.add_comm _ _

/-- The low `n` bytes of a value make up the value modulo 256^n. -/
theorem leValue_extract {w : Nat} (v : BitVec w) (n : Nat) :
    leValue ((List.range n).map fun i => v.extractLsb' (8 * i) 8) = v.toNat % 256 ^ n := by
  rw [leValue_map_range]
  induction n with
  | zero => simp [Nat.mod_one]
  | succ n ih =>
    have hpow : 2 ^ (8 * n) = 256 ^ n := by rw [pow_mul]; norm_num
    rw [Finset.sum_range_succ, ih, Nat.mod_pow_succ, BitVec.extractLsb'_toNat, Nat.shiftRight_eq_div_pow, hpow,
      Nat.mul_comm (256 ^ n)]

/-! ### Linear reads (R81) -/

theorem State.linRead_flat {s : State} (hp : s.par.paging = false) (k : Access) (la : Word) (n : Nat) :
    s.linRead k la n = .ok (leValue ((List.range n).map fun i =>
      s.readByte k (la + BitVec.ofNat 32 i) (la + BitVec.ofNat 32 i).toNat)) := by
  rw [State.linRead, State.translate_flat hp, ok_bind, State.readBytes_flat]

/-- Settles O17: without paging byte `i` is read at its own linear address. -/
theorem linearReadLittleEndian : Obligations.LinearReadLittleEndian := by
  intro s k la n hp
  rw [State.linRead_flat hp, leValue_map_range]
  refine congrArg Except.ok (Finset.sum_congr rfl fun i _ => ?_)
  unfold State.readByte
  cases s.kindAt (la + BitVec.ofNat 32 i).toNat <;> rfl

/-! ### A store read back -/

/-- What the type allows to be written can be read (R76). -/
theorem typeAllows_read_of_write {d : Desc} (h : typeAllows d .write = true) : typeAllows d .read = true := by
  simp_all [typeAllows]

/-- Where a store is allowed, a read is. -/
theorem State.segAccess_read_of_write {s : State} {x : SReg} {off n : Nat} {la : Word}
    (h : s.segAccess x off n .write = .ok la) : s.segAccess x off n .read = .ok la := by
  obtain ⟨hcheck, halign, rfl⟩ := State.segAccess_ok.mp h
  obtain ⟨hvalid, htype, hlimit⟩ := State.segCheck_ok.mp hcheck
  exact State.segAccess_ok.mpr ⟨State.segCheck_ok.mpr ⟨hvalid, typeAllows_read_of_write htype, hlimit⟩, halign, rfl⟩

/-- `SegAccess` depends on the segment registers, the parameters and `CPL` only. -/
theorem State.segAccess_congr {s t : State} (hseg : t.seg = s.seg) (hpar : t.par = s.par) (hcpl : t.cpl = s.cpl)
    (x : SReg) (off n : Nat) (u : Use) : t.segAccess x off n u = s.segAccess x off n u := by
  cases s; cases t; cases hseg; cases hpar; cases hcpl
  rfl

/-- A write that is allowed without paging goes to distinct addresses, the linear ones. -/
theorem State.segWriteTo_flat {s : State} (hp : s.par.paging = false) {x : SReg} {off n : Nat} {pas : List Nat}
    (h : s.segWriteTo x off n = .ok pas) :
    s.segAccess x off n .write = .ok (s.linAddr x off) ∧
      pas = (List.range n).map (fun i => (s.linAddr x off + BitVec.ofNat 32 i).toNat) ∧ pas.Nodup := by
  obtain ⟨la, haccess, htranslate⟩ := State.segWriteTo_ok.mp h
  obtain ⟨hcheck, halign, rfl⟩ := State.segAccess_ok.mp haccess
  have hlimit := inLimit_lt (State.segCheck_ok.mp hcheck).2.2
  rw [State.translate_flat hp] at htranslate
  cases htranslate
  exact ⟨haccess, rfl, nodup_flat _ _ (by omega)⟩

/-- Settles O18: the read goes to the addresses of the store, which are distinct. -/
theorem storeThenReadBack : Obligations.StoreThenReadBack := by
  intro s x off n v pas hp hwrite hram
  obtain ⟨haccess, hpas, hnodup⟩ := State.segWriteTo_flat hp hwrite
  have hread : (s.store pas v).segAccess x off n .read = .ok (s.linAddr x off) := by
    rw [State.segAccess_congr (s := s) (by simp) (by simp) (by simp)]
    exact State.segAccess_read_of_write haccess
  have htranslate : (s.store pas v).translate .data .read (s.linAddr x off) n = .ok pas := by
    rw [State.translate_flat (by simpa using hp), hpas]
  rw [State.segRead, hread, ok_bind, State.linRead, htranslate, ok_bind,
    State.leValue_readBytes_store s .data pas v hnodup hram]
  simp [hpas]

/-! ### `ReadDescriptor` (R66) -/

theorem State.holdsTables_iff (s : State) (pa : Nat) :
    s.holdsTables pa = true ↔ s.kindAt pa = .ram ∨ s.kindAt pa = .rom := by
  unfold State.holdsTables
  cases s.kindAt pa <;> simp

theorem State.readByte_of_holdsTables {s : State} {pa : Nat} (h : s.holdsTables pa = true) (k : Access) (la : Word) :
    s.readByte k la pa = Memory.read s.mem pa := by
  unfold State.readByte
  rcases (s.holdsTables_iff pa).mp h with hkind | hkind <;> rw [hkind]

/-- A selector within its table passes the two checks that come before the bytes of the entry are looked at. -/
theorem State.readDescriptor_within {s : State} {sel : Half} (hp : s.par.paging = false) (hin : ¬ BeyondTable s sel)
    {la : Word} (hla : la = tableBase s sel + BitVec.ofNat 32 (selIndex sel * 8)) :
    s.readDescriptor sel =
      need (((List.range 8).map fun i => (la + BitVec.ofNat 32 i).toNat).all s.holdsTables)
        (.refuse .tableNotInMemory) >>= fun _ =>
      .ok (la, Desc.ofBits (BitVec.ofNat 64 (leValue ((List.range 8).map fun i =>
        s.readByte .table (la + BitVec.ofNat 32 i) (la + BitVec.ofNat 32 i).toNat)))) := by
  have htable : s.tableOf sel = .ok (tableBase s sel, tableLimit s sel) :=
    State.tableOf_ok.mpr ⟨fun hti => by by_contra hvalid; exact hin (.inl ⟨hti, by simpa using hvalid⟩), rfl⟩
  have hlimit : decide (selIndex sel * 8 + 7 ≤ tableLimit s sel) = true := by
    rw [decide_eq_true_iff]; by_contra hlt; exact hin (.inr (by omega))
  rw [State.readDescriptor, htable, ok_bind, hlimit, need_true, ok_bind, ← hla]
  simp only [State.translate_flat hp, ok_bind, State.readBytes_flat]

theorem DescAt.within {s : State} {sel : Half} {la : Word} {v : BitVec 64} (h : DescAt s sel la v) :
    ¬ BeyondTable s sel := by
  obtain ⟨_, hldt, hlimit, _, _⟩ := h
  rintro (⟨hti, hvalid⟩ | hlt)
  · simp [hldt hti] at hvalid
  · omega

/-- The entry that `DescAt` describes is read. -/
theorem State.readDescriptor_of_descAt {s : State} {sel : Half} {la : Word} {v : BitVec 64} (h : DescAt s sel la v) :
    s.readDescriptor sel = .ok (la, Desc.ofBits v) := by
  have hin := DescAt.within h
  obtain ⟨hp, _, _, hla, hbytes⟩ := h
  have hholds : ((List.range 8).map fun i => (la + BitVec.ofNat 32 i).toNat).all s.holdsTables = true := by
    simpa using fun i hi => (hbytes i hi).1
  have hread : ((List.range 8).map fun i =>
      s.readByte .table (la + BitVec.ofNat 32 i) (la + BitVec.ofNat 32 i).toNat) =
      (List.range 8).map fun i => v.extractLsb' (8 * i) 8 := by
    refine List.map_congr_left fun i hi => ?_
    obtain ⟨hholds, hbyte⟩ := hbytes i (List.mem_range.mp hi)
    rw [State.readByte_of_holdsTables hholds, hbyte]
  have hvalue : BitVec.ofNat 64 (v.toNat % 256 ^ 8) = v := by
    apply BitVec.eq_of_toNat_eq
    have := v.isLt
    rw [BitVec.toNat_ofNat]
    omega
  rw [State.readDescriptor_within hp hin hla, hholds, need_true, ok_bind, hread, leValue_extract, hvalue]

/-- Settles O20: the eight bytes of the entry, lowest first, are those of its value. -/
theorem descriptorReadResult : Obligations.DescriptorReadResult := fun _ _ _ _ => State.readDescriptor_of_descAt

/-- An entry with a byte in IO or absent memory is refused (R84, D3). -/
theorem State.readDescriptor_not_in_memory {s : State} {sel : Half} {la : Word} (h : EntryNotInMemory s sel la) :
    s.readDescriptor sel = .error (.refuse .tableNotInMemory) := by
  obtain ⟨hp, hin, hla, i, hi, hholds⟩ := h
  have hnone : ((List.range 8).map fun i => (la + BitVec.ofNat 32 i).toNat).all s.holdsTables = false := by
    rw [List.all_eq_false]
    exact ⟨_, List.mem_map.mpr ⟨i, List.mem_range.mpr hi, rfl⟩, by rw [hholds]; exact Bool.false_ne_true⟩
  rw [State.readDescriptor_within hp hin hla, hnone, need_false, error_bind]

end Sys2Proof.Machine
end

section
/-! The checks of a load or transfer as decisions in the order of the rules, the accessed bit without paging, and what
is common to the instructions that read a descriptor (40 R151 to R154, 41 R181 to R184). -/

namespace Sys2Proof.Machine

/-! ### Sequences that stop -/

theorem bind_congr_ok {α β : Type} {x : Res α} {f g : α → Res β} (h : ∀ a, x = .ok a → f a = g a) :
    x >>= f = x >>= g := by
  cases x with
  | error e => rfl
  | ok a => exact h a rfl

theorem need_eq_ite (b : Bool) (e : Stop) : need b e = if b = false then .error e else .ok () := by cases b <;> rfl

theorem ite_stop_bind {α β : Type} (p : Prop) [Decidable p] (e : Stop) (r : Res α) (k : α → Res β) :
    ((if p then .error e else r) >>= k) = if p then .error e else r >>= k := by split <;> rfl

theorem conclude_ite_stop (s : State) (p : Prop) [Decidable p] (e : Stop) (r : Res State) :
    conclude s (if p then .error e else r) = if p then conclude s (.error e) else conclude s r :=
  apply_ite ..

/-! ### The checks on a descriptor as decisions -/

/-- The type and privilege checks of a load are one fault (40 R153, R154). -/
theorem typeCheck_eq (s : State) (x : SReg) (sel : Half) (d : Desc) :
    (if x = .ss then checkStack s sel d else checkData s sel d) =
      if ¬ TypeLoadable s x sel d then .error (raise s .gp (selCode sel)) else .ok () := by
  by_cases hx : x = .ss
  · simp only [if_pos hx, TypeLoadable]
    by_cases hload : StackLoadable s sel d
    · rw [if_neg (not_not.mpr hload), checkStack_ok.mpr hload]
    · rw [if_pos hload]
      cases hcheck : checkStack s sel d with
      | ok u => exact absurd (checkStack_ok.mp hcheck) hload
      | error e =>
        rcases bind_error.mp hcheck with h | ⟨_, _, h⟩ <;> rw [(need_error.mp h).2]
  · simp only [if_neg hx, TypeLoadable]
    by_cases hload : DataLoadable s sel d
    · rw [if_neg (not_not.mpr hload), checkData_ok.mpr hload]
    · rw [if_pos hload]
      cases hcheck : checkData s sel d with
      | ok u => exact absurd (checkData_ok.mp hcheck) hload
      | error e =>
        rcases bind_error.mp hcheck with h | ⟨_, _, h⟩ <;> rw [(need_error.mp h).2]

/-- The load of a descriptor that is read, its checks in order (40 R151). -/
theorem State.loadDescriptor_eq {s : State} {sel : Half} {la : Word} {d : Desc}
    (hread : s.readDescriptor sel = .ok (la, d)) (x : SReg) :
    s.loadDescriptor x sel =
      if d.s = false then .error (raise s .gp (selCode sel))
      else if ¬ TypeLoadable s x sel d then .error (raise s .gp (selCode sel))
      else if d.p = false then .error (notPresent s x (selCode sel))
      else s.accessedAt la d >>= fun a => .ok ((s.setAccessed a).setSreg x (loaded sel d)) := by
  have hseq : s.loadDescriptor x sel =
      need d.s (raise s .gp (selCode sel)) >>= fun _ =>
      (if x = .ss then checkStack s sel d else checkData s sel d) >>= fun _ =>
      need d.p (notPresent s x (selCode sel)) >>= fun _ =>
      s.accessedAt la d >>= fun a => .ok ((s.setAccessed a).setSreg x (loaded sel d)) := by
    rw [State.loadDescriptor, hread, ok_bind]
    by_cases hx : x = .ss
    · simp only [if_pos hx]
    · simp only [if_neg hx]
  simp only [hseq, typeCheck_eq, need_eq_ite, ite_stop_bind, ok_bind]

/-- With S = 0 the types that a far transfer refuses are the five of 41 R181 (b). -/
theorem isGateOrTask_iff {d : Desc} (hs : d.s = false) : d.isGateOrTask = true ↔ d.type ∈ [4, 12, 5, 1, 9] := by
  have htable : ∀ t : BitVec 4, (decide (systemKind t = .callGate16) || decide (systemKind t = .callGate32) ||
      decide (systemKind t = .taskGate) ||
      (decide (systemKind t = .tss16 false) || decide (systemKind t = .tss32 false))) = true ↔
      t ∈ [4, 12, 5, 1, 9] := by decide
  rw [← htable, Desc.isGateOrTask, Desc.isAvailableTss, kind_of_system hs]

/-- The checks of a far `JMP` or `CALL`, in order (41 R181). -/
theorem enterChecks_eq (s : State) (sel : Half) (off : Word) (d : Desc) :
    enterChecks s sel off d =
      if d.s = false then
        if d.type ∈ [4, 12, 5, 1, 9] then .error (.refuse (.gateOrTask d.type))
        else .error (raise s .gp (selCode sel))
      else if d.isCode = false then .error (raise s .gp (selCode sel))
      else if ¬ EnterPriv s sel d then .error (raise s .gp (selCode sel))
      else if d.p = false then .error (raise s .np (selCode sel))
      else if effLimit d < off.toNat then .error (raise s .gp 0)
      else .ok () := by
  have hpriv : (if d.conforming = true then decide (d.dpl ≤ s.cpl)
      else decide (d.dpl = s.cpl) && decide (selRPL sel ≤ s.cpl)) = false ↔ ¬ EnterPriv s sel d := by
    unfold EnterPriv
    split <;> simp
  have hlimit : decide (off.toNat ≤ effLimit d) = false ↔ effLimit d < off.toNat := by simp
  unfold enterChecks
  cases hs : d.s with
  | false =>
    simp only [Bool.false_or, if_true, ← isGateOrTask_iff hs]
    cases d.isGateOrTask <;> rfl
  | true =>
    simp only [need_eq_ite, ite_stop_bind, ok_bind, hpriv, hlimit, Bool.true_or, Bool.true_eq_false, if_false]

/-- The checks of a far `RET`, in order (41 R184). -/
theorem returnChecks_eq (s : State) (sel : Half) (off : Word) (d : Desc) :
    returnChecks s sel off d =
      if d.s = false ∨ d.isCode = false then .error (raise s .gp (selCode sel))
      else if selRPL sel < s.cpl then .error (raise s .gp (selCode sel))
      else if s.cpl < selRPL sel then .error (.refuse .outerReturn)
      else if ¬ ReturnPriv sel d then .error (raise s .gp (selCode sel))
      else if d.p = false then .error (raise s .np (selCode sel))
      else if effLimit d < off.toNat then .error (raise s .gp 0)
      else .ok () := by
  have hcode : (d.s && d.isCode) = false ↔ d.s = false ∨ d.isCode = false := Bool.and_eq_false_iff
  have hinner : decide (s.cpl ≤ selRPL sel) = false ↔ selRPL sel < s.cpl := by simp
  have houter : decide (selRPL sel ≤ s.cpl) = false ↔ s.cpl < selRPL sel := by simp
  have hpriv : (if d.conforming = true then decide (d.dpl ≤ selRPL sel) else decide (d.dpl = selRPL sel)) = false ↔
      ¬ ReturnPriv sel d := by
    unfold ReturnPriv
    split <;> simp
  have hlimit : decide (off.toNat ≤ effLimit d) = false ↔ effLimit d < off.toNat := by simp
  simp only [returnChecks, need_eq_ite, ite_stop_bind, ok_bind, hcode, hinner, houter, hpriv, hlimit]

/-! ### The accessed bit without paging (20 R89) -/

/-- The access byte of an entry that can be read is RAM or ROM: the plan answers, or the machine hangs. -/
theorem State.accessedAt_of_descAt {s : State} {sel : Half} {la : Word} {v : BitVec 64} (h : DescAt s sel la v)
    (d : Desc) :
    s.accessedAt la d =
      if d.accessed = false ∧ s.kindAt (la + 5).toNat = .rom then .error .hang
      else .ok (if d.accessed = true then none else some (la + 5).toNat) := by
  obtain ⟨hp, _, _, _, hbytes⟩ := h
  have hholds : s.holdsTables (la + 5).toNat = true := (hbytes 5 (by decide)).1
  cases hd : d.accessed with
  | true => simp [State.accessedAt, hd]
  | false =>
    rcases (s.holdsTables_iff _).mp hholds with hkind | hkind
    · have hnotRom : ¬ (false = false ∧ s.kindAt (la + 5).toNat = .rom) := by
        rintro ⟨_, hrom⟩
        rw [hkind] at hrom
        cases hrom
      rw [State.accessedAt_flat hp (.inr hkind), hd, if_neg hnotRom]
    · have hrom : false = false ∧ s.kindAt (la + 5).toNat = .rom := ⟨rfl, hkind⟩
      rw [State.accessedAt, hd, State.phys_flat hp, if_pos hrom, if_neg Bool.false_ne_true, ok_bind, hkind]

/-- The last step of a load or transfer, whose checks have passed: it hangs, or it leaves `t`. -/
theorem conclude_accessedAt {s : State} {sel : Half} {la : Word} {v : BitVec 64} (h : DescAt s sel la v) {d : Desc}
    {f : Option Nat → State} {t : State}
    (ht : conclude s (.ok (f (if d.accessed = true then none else some (la + 5).toNat))) = .next t) :
    conclude s (s.accessedAt la d >>= fun a => .ok (f a)) = hangOr s la d t := by
  rw [State.accessedAt_of_descAt h, ite_stop_bind, conclude_ite_stop, ok_bind, ht, conclude_hang, hangOr]

theorem hangOr_of_writable {s : State} {la : Word} {d : Desc} (h : AccessedWritable s la d) (t : State) :
    hangOr s la d t = .next t := by
  rw [hangOr, if_neg]
  rintro ⟨hd, hrom⟩
  rcases h with hacc | hram
  · rw [hd] at hacc; cases hacc
  · rw [hrom] at hram; cases hram

theorem hangOr_of_rom {s : State} {la : Word} {d : Desc} (hd : d.accessed = false)
    (hkind : s.kindAt (la + 5).toNat = .rom) (t : State) : hangOr s la d t = .next { s with hung := true } :=
  if_pos ⟨hd, hkind⟩

/-- The commit of a transfer, carried out (41 R181, R184). -/
theorem State.enterCommit_flat (u : State) (la : Word) (sel : Half) (d : Desc) (off : Word) :
    u.enterCommit (if d.accessed = true then none else some (la + 5).toNat) (loaded sel d) off =
      { u with mem := accessedMem u.mem la d, seg := { u.seg with cs := filled sel d }, pc := off } := by
  rw [State.enterCommit, State.setAccessed_flat]
  rfl

/-! ### What is common to the forms of an instruction -/

theorem EachLoad.imp {P Q : State → Instr → SReg → Half → Regs → Prop}
    (h : ∀ s i x sel regs, P s i x sel regs → Q s i x sel regs) (hP : EachLoad P) : EachLoad Q := by
  obtain ⟨hmov, hpop, hfar⟩ := hP
  exact ⟨fun s hd x src sel hx hsel => h _ _ _ _ _ (hmov s hd x src sel hx hsel),
    fun s hd w hw p hp => h _ _ _ _ _ (hpop s hd w hw p hp),
    fun s hd r m sel off hread p hp => h _ _ _ _ _ (hfar s hd r m sel off hread p hp)⟩

theorem EachJump.imp {P Q : State → Instr → Half → Word → Prop} (h : ∀ s i sel off, P s i sel off → Q s i sel off)
    (hP : EachJump P) : EachJump Q := by
  obtain ⟨hptr, hmem⟩ := hP
  exact ⟨fun s hd sel off => h _ _ _ _ (hptr s hd sel off),
    fun s hd m sel off hread => h _ _ _ _ (hmem s hd m sel off hread)⟩

theorem EachCall.imp {P Q : State → Instr → Size → Half → Word → Prop}
    (h : ∀ s i z sel off, P s i z sel off → Q s i z sel off) (hP : EachCall P) : EachCall Q := by
  obtain ⟨hptr, hmem⟩ := hP
  exact ⟨fun s hd sel off => h _ _ _ _ _ (hptr s hd sel off),
    fun s hd m sel off hread => h _ _ _ _ _ (hmem s hd m sel off hread)⟩

theorem EachReturn.imp {P Q : State → Instr → Half → Word → Nat → Prop}
    (h : ∀ s i sel off n, P s i sel off n → Q s i sel off n) (hP : EachReturn P) : EachReturn Q := by
  intro s hd off w hoff hw
  obtain ⟨hret, himm⟩ := hP s hd off w hoff hw
  exact ⟨h _ _ _ _ _ hret, fun imm => h _ _ _ _ _ (himm imm)⟩

/-- An instruction that stops where `ReadDescriptor` stops faults past the table and is refused outside memory. -/
theorem EntryMissing.of_stops {s : State} {i : Instr} {sel : Half}
    (h : ∀ e, s.readDescriptor sel = .error e → exec i s = conclude s (.error e)) : EntryMissing s i sel :=
  ⟨fun hbeyond => h _ ((State.readDescriptor_gp_iff s sel).mpr hbeyond),
    fun _ hentry => h _ (State.readDescriptor_not_in_memory hentry)⟩

end Sys2Proof.Machine
end

section
/-! Family 1: `MOV Sreg`, the five pops and the five far-pointer loads (40 R151 to R163). -/

namespace Sys2Proof.Machine

/-! ### One run for all eleven forms -/

/-- `i` loads `x` with `sel`, then leaves the general registers `regs` and moves on. -/
def LoadRuns (s : State) (i : Instr) (x : SReg) (sel : Half) (regs : Regs) : Prop :=
  x ≠ .cs ∧ exec i s =
    conclude s (s.loadSeg x sel >>= fun t => .ok { t with regs := regs, pc := s.pcPlus i.length })

/-- A load leaves the general registers and all that `pcPlus` looks at. -/
theorem State.loadSeg_kept {s t : State} {x : SReg} {sel : Half} (h : s.loadSeg x sel = .ok t) :
    t.regs = s.regs ∧ ∀ n, t.pcPlus n = s.pcPlus n := by
  obtain ⟨hcs, v, _, rfl⟩ := State.loadSeg_answer h
  have hkept : (s.seg.set x v).cs = s.seg.cs := SegRegs.get_set_ne s.seg x .cs v hcs.symm
  exact ⟨by simp, fun n => by simp [State.pcPlus, hkept]⟩

/-- Writing a register at an operand size, in a state with the registers of `s`. -/
theorem State.setRegSize_regsWith (t s : State) (h : t.regs = s.regs) (z : Size) (r : Reg) (v : Word) :
    t.setRegSize z r v = { t with regs := regsWith s z r v } := by
  rw [State.setRegSize_eq]
  cases z <;> simp [State.setReg, regsWith, State.reg, h]

theorem eachLoad_runs : EachLoad LoadRuns := by
  have hpop : ∀ (s : State) (h : Head) (x : SReg) (len w : Nat),
      s.segRead .ss s.sp (sizeBytes h.osz) = .ok w →
      popSreg h x len s = conclude s (s.loadSeg x (BitVec.ofNat 16 w) >>= fun t =>
        .ok { t with regs := { s.regs with esp := espPlus s (sizeBytes h.osz) }, pc := s.pcPlus len }) := by
    intro s h x len w hw
    rw [popSreg, State.popRead, hw, ok_bind]
    refine congrArg (conclude s) (bind_congr_ok fun t ht => ?_)
    obtain ⟨hregs, hpc⟩ := State.loadSeg_kept ht
    rw [State.setSp_spPlus t s hregs, ← hpc]
    rfl
  have hfar : ∀ (s : State) (h : Head) (x : SReg) (r : Reg) (m : Mem) (len : Nat) (sel : Half) (off : Word),
      s.readFarPtr h m = .ok (sel, off) →
      farLoad h x r m len s = conclude s (s.loadSeg x sel >>= fun t =>
        .ok { t with regs := regsWith s h.osz r off, pc := s.pcPlus len }) := by
    intro s h x r m len sel off hread
    rw [farLoad, hread, ok_bind]
    refine congrArg (conclude s) (bind_congr_ok fun t ht => ?_)
    obtain ⟨hregs, hpc⟩ := State.loadSeg_kept ht
    rw [State.setRegSize_regsWith t s hregs, ← hpc]
    rfl
  refine ⟨fun s h x src sel hx hsel => ⟨hx, ?_⟩, fun s h w hw p hp => ?_, fun s h r m sel off hread p hp => ?_⟩
  · rw [exec, execMovSregRm, hsel, ok_bind]
    refine congrArg (conclude s) (bind_congr_ok fun t ht => ?_)
    obtain ⟨hregs, hpc⟩ := State.loadSeg_kept ht
    rw [← hpc, ← hregs]
    rfl
  · simp only [List.mem_cons, List.not_mem_nil, or_false] at hp
    rcases hp with rfl | rfl | rfl | rfl | rfl <;> exact ⟨by simp, hpop s h _ _ w hw⟩
  · simp only [List.mem_cons, List.not_mem_nil, or_false] at hp
    rcases hp with rfl | rfl | rfl | rfl | rfl <;> exact ⟨by simp, hfar s h _ r m _ sel off hread⟩

/-! ### The decision -/

theorem State.loadSeg_of_not_null (s : State) {x : SReg} {sel : Half} (hcs : x ≠ .cs) (hnull : isNull sel = false) :
    s.loadSeg x sel = s.loadDescriptor x sel := by
  rw [State.loadSeg, if_neg hcs, hnull]
  rfl

theorem LoadRuns.entryMissing {s : State} {i : Instr} {x : SReg} {sel : Half} {regs : Regs}
    (h : LoadRuns s i x sel regs) (hnull : isNull sel = false) : EntryMissing s i sel := by
  obtain ⟨hcs, hrun⟩ := h
  refine .of_stops fun e he => ?_
  rw [hrun, State.loadSeg_of_not_null s hcs hnull, State.loadDescriptor, he]
  rfl

theorem LoadRuns.decides {s : State} {i : Instr} {x : SReg} {sel : Half} {regs : Regs}
    (h : LoadRuns s i x sel regs) : LoadDecides s i x sel regs := by
  refine ⟨fun hnull => ?_, h.entryMissing, fun la v hnull hdesc => ?_⟩ <;> obtain ⟨hcs, hrun⟩ := h
  · rw [hrun, State.loadSeg, if_neg hcs, if_pos hnull, State.loadNull]
    by_cases hss : x = .ss
    · rw [if_pos hss, if_pos hss]
      rfl
    · rw [if_neg hss, if_neg hss]
      rfl
  · have hnotPresent : conclude s (.error (notPresent s x (selCode sel))) =
        .fault (if x = .ss ∧ s.par.ssFault = .ss then .ss (s.errCode (selCode sel))
          else .np (s.errCode (selCode sel))) := by
      unfold notPresent
      split <;> rfl
    rw [hrun, State.loadSeg_of_not_null s hcs hnull,
      State.loadDescriptor_eq (State.readDescriptor_of_descAt hdesc)]
    have hlast : conclude s (s.accessedAt la (Desc.ofBits v) >>= fun a =>
        .ok { (s.setAccessed a).setSreg x (loaded sel (Desc.ofBits v)) with
          regs := regs, pc := s.pcPlus i.length }) =
        hangOr s la (Desc.ofBits v) (descLoaded s x sel la (Desc.ofBits v) regs i.length) :=
      conclude_accessedAt hdesc (by rw [State.setAccessed_flat]; rfl)
    simp only [ite_stop_bind, conclude_ite_stop, hnotPresent, bind_assoc, ok_bind, hlast]
    rfl

/-- Settles O22: every form runs as `LoadRuns` says, and the outcome is that of its checks in order. -/
theorem movSregDecision : Obligations.MovSregDecision :=
  eachLoad_runs.imp fun _ _ _ _ _ => LoadRuns.decides

/-! ### What follows from the decision -/

/-- A selector whose descriptor passes every check is loaded, unless the machine hangs. -/
theorem LoadDecides.of_loadable {s : State} {i : Instr} {x : SReg} {sel : Half} {regs : Regs} {la : Word}
    {v : BitVec 64} (h : LoadDecides s i x sel regs) (hdesc : DescAt s sel la v)
    (hload : Loadable s x sel (Desc.ofBits v)) :
    exec i s = hangOr s la (Desc.ofBits v) (descLoaded s x sel la (Desc.ofBits v) regs i.length) := by
  obtain ⟨_, hnull, hs, htype, hp⟩ := hload
  rw [h.2.2 la v hnull hdesc, hs, hp, if_neg Bool.noConfusion, if_neg (not_not.mpr htype),
    if_neg Bool.noConfusion]

/-- A null selector is loaded into a data register. -/
theorem LoadDecides.of_null_data {s : State} {i : Instr} {x : SReg} {sel : Half} {regs : Regs}
    (h : LoadDecides s i x sel regs) (hss : x ≠ .ss) (hnull : isNull sel = true) :
    exec i s = .next (nullLoaded s x sel regs i.length) := by rw [h.1 hnull, if_neg hss]

/-- A null selector is a fault for `SS`. -/
theorem LoadDecides.of_null_ss {s : State} {i : Instr} {sel : Half} {regs : Regs}
    (h : LoadDecides s i .ss sel regs) (hnull : isNull sel = true) : exec i s = .fault (.gp (s.errCode 0)) := by
  rw [h.1 hnull, if_pos rfl]

/-- A pop whose form is one of the five decides as O22 says. -/
theorem pop_decides {s : State} {h : Head} {w : Nat} (hw : s.segRead .ss s.sp (sizeBytes h.osz) = .ok w) {i : Instr}
    {x : SReg} (hi : (i, x) ∈ [(Instr.popEs h, SReg.es), (.popSs h, .ss), (.popDs h, .ds), (.popFs h, .fs),
      (.popGs h, .gs)]) :
    LoadDecides s i x (BitVec.ofNat 16 w) { s.regs with esp := espPlus s (sizeBytes h.osz) } :=
  movSregDecision.2.1 s h w hw (i, x) hi

/-- A far-pointer load whose form is one of the five decides as O22 says. -/
theorem farLoad_decides {s : State} {h : Head} (r : Reg) {m : Mem} {sel : Half} {off : Word}
    (hread : s.readFarPtr h m = .ok (sel, off)) {i : Instr} {x : SReg}
    (hi : (i, x) ∈ [(Instr.lds h r m, SReg.ds), (.les h r m, .es), (.lss h r m, .ss), (.lfs h r m, .fs),
      (.lgs h r m, .gs)]) : LoadDecides s i x sel (regsWith s h.osz r off) :=
  movSregDecision.2.2 s h r m sel off hread (i, x) hi

/-- Settles O23: `MOV Sreg` is the first form of O22, all its checks passing. -/
theorem movSregLoadsDescriptor : Obligations.MovSregLoadsDescriptor := by
  intro s h x src sel la v hsel hdesc hload hacc
  rw [(movSregDecision.1 s h x src sel hload.1 hsel).of_loadable hdesc hload, hangOr_of_writable hacc]

/-- Settles O26: the pops are forms of O22, all their checks passing. -/
theorem popsLoadDescriptor : Obligations.PopsLoadDescriptor := by
  refine ⟨?_, ?_, ?_, ?_, ?_⟩ <;>
  · intro s h w la v hw hdesc hload hacc
    rw [(pop_decides hw (by simp)).of_loadable hdesc hload, hangOr_of_writable hacc]

/-- Settles O27: the far-pointer loads are forms of O22, all their checks passing. -/
theorem farPointerLoads : Obligations.FarPointerLoads := by
  refine ⟨?_, ?_, ?_, ?_, ?_⟩ <;>
  · intro s h r m sel off la v hread hdesc hload hacc
    rw [(farLoad_decides r hread (by simp)).of_loadable hdesc hload, hangOr_of_writable hacc]

/-- Settles O24: a null selector is the first case of O22, and the register is none of `CS` and `SS`. -/
theorem nullSelectorLoads : Obligations.NullSelectorLoads := by
  refine ⟨fun s h x src sel hx hsel hnull => ?_, ?_, ?_, ?_, ?_, ?_, ?_, ?_, ?_⟩
  · have hcs : x ≠ .cs := by rintro rfl; simp [dataSregs] at hx
    have hss : x ≠ .ss := by rintro rfl; simp [dataSregs] at hx
    exact (movSregDecision.1 s h x src sel hcs hsel).of_null_data hss hnull
  case refine_2 | refine_3 | refine_4 | refine_5 =>
    exact fun s h w hw hnull => (pop_decides hw (by simp)).of_null_data (by simp) hnull
  all_goals
    exact fun s h r m sel off hread hnull => (farLoad_decides r hread (by simp)).of_null_data (by simp) hnull

/-- Settles O25: a null selector is the first case of O22, and the register is `SS`. -/
theorem nullStackSelectorFaults : Obligations.NullStackSelectorFaults :=
  ⟨fun s h src sel hsel hnull => (movSregDecision.1 s h .ss src sel (by simp) hsel).of_null_ss hnull,
    fun _ _ _ hw hnull => (pop_decides hw (by simp)).of_null_ss hnull,
    fun _ _ r _ _ _ hread hnull => (farLoad_decides r hread (by simp)).of_null_ss hnull⟩

end Sys2Proof.Machine
end

section
/-! Family 2: the far transfers (41 R181 to R184). -/

namespace Sys2Proof.Machine

/-! ### Far `JMP` and `CALL`: one run, one decision -/

/-- `i` reads and checks the code segment `sel` with the offset `off` and goes on with `k`. -/
def EnterRuns (s : State) (i : Instr) (sel : Half) (off : Word) (k : Word × Desc → Res State) : Prop :=
  exec i s = conclude s (s.enterRead sel off >>= k)

theorem State.enterRead_of_not_null (s : State) {sel : Half} (hnull : isNull sel = false) (off : Word) :
    s.enterRead sel off = s.readDescriptor sel >>= fun r => enterChecks s sel off r.2 >>= fun _ => .ok r := by
  rw [State.enterRead, hnull]
  rfl

theorem EnterRuns.entryMissing {s : State} {i : Instr} {sel : Half} {off : Word} {k : Word × Desc → Res State}
    (h : EnterRuns s i sel off k) (hnull : isNull sel = false) : EntryMissing s i sel :=
  .of_stops fun e he => by rw [h, State.enterRead_of_not_null s hnull, he]; rfl

theorem EnterRuns.decides {s : State} {i : Instr} {sel : Half} {off : Word} {k : Word × Desc → Res State}
    {finish : Word → Desc → Host.Outcome State Fault Refusal} (h : EnterRuns s i sel off k)
    (hfinish : ∀ la v, DescAt s sel la v → conclude s (k (la, Desc.ofBits v)) = finish la (Desc.ofBits v)) :
    EnterDecides s i sel off finish := by
  refine ⟨fun hnull => ?_, h.entryMissing, fun la v hnull hdesc => ?_⟩
  · rw [h, State.enterRead, hnull]
    rfl
  · rw [h, State.enterRead_of_not_null s hnull, State.readDescriptor_of_descAt hdesc]
    simp only [ok_bind, enterChecks_eq, ← hfinish la v hdesc]
    cases (Desc.ofBits v).s with
    | true =>
      simp only [Bool.true_eq_false, if_false, ite_stop_bind, conclude_ite_stop, ok_bind]
      rfl
    | false =>
      simp only [if_true, ite_stop_bind, conclude_ite_stop]
      rfl

/-- A selector whose descriptor passes every check reaches the last step. -/
theorem EnterDecides.of_enterable {s : State} {i : Instr} {sel : Half} {off la : Word} {v : BitVec 64}
    {finish : Word → Desc → Host.Outcome State Fault Refusal} (h : EnterDecides s i sel off finish)
    (hdesc : DescAt s sel la v) (henter : Enterable s sel off (Desc.ofBits v)) :
    exec i s = finish la (Desc.ofBits v) := by
  obtain ⟨hnull, hs, hcode, hpriv, hp, hlimit⟩ := henter
  rw [h.2.2 la v hnull hdesc, hs, hcode, hp, if_neg Bool.noConfusion, if_neg Bool.noConfusion,
    if_neg (not_not.mpr hpriv), if_neg Bool.noConfusion, if_neg (Nat.not_lt.mpr hlimit)]

/-! ### Far `JMP` -/

/-- The last step of a far `JMP`: the accessed bit and the commit. -/
def jumpEnd (s : State) (sel : Half) (off : Word) (r : Word × Desc) : Res State :=
  s.accessedAt r.1 r.2 >>= fun a => .ok (s.enterCommit a (loaded (forceRPL sel s.cpl) r.2) off)

theorem eachJump_runs : EachJump fun s i sel off => EnterRuns s i sel off (jumpEnd s sel off) := by
  refine ⟨fun s h sel off => rfl, fun s h m sel off hread => ?_⟩
  have hrun : exec (.jmpMem h m) s = conclude s (s.jumpFar sel off) := by rw [exec, execJmpMem, hread, ok_bind]
  exact hrun

theorem eachJump_decides : EachJump fun s i sel off => EnterDecides s i sel off fun la d =>
    hangOr s la d (entered s (forceRPL sel s.cpl) la d s.mem s.regs.esp off) :=
  eachJump_runs.imp fun _ _ _ _ h => h.decides fun _ _ hdesc =>
    conclude_accessedAt hdesc (by rw [State.enterCommit_flat]; rfl)

/-! ### Far `CALL` -/

/-- The last step of a far `CALL` of length `len`: the room, the pushes, the accessed bit and the commit. -/
def callEnd (s : State) (z : Size) (sel : Half) (off : Word) (len : Nat) (r : Word × Desc) : Res State := do
  s.callRoom (sizeBytes z)
  let csTo ← s.pushTo (s.spMinus (sizeBytes z)) (sizeBytes z)
  let retTo ← s.pushTo (s.spMinus (2 * sizeBytes z)) (sizeBytes z)
  let a ← s.accessedAt r.1 r.2
  .ok ((((s.store csTo (s.pushedCs z).toNat).store retTo (s.pcPlus len).toNat).setSp s.stackSize
    (s.spMinus (2 * sizeBytes z))).enterCommit a (loaded (forceRPL sel s.cpl) r.2) off)

theorem eachCall_runs : EachCall fun s i z sel off => EnterRuns s i sel off (callEnd s z sel off i.length) := by
  refine ⟨fun s h sel off => rfl, fun s h m sel off hread => ?_⟩
  have hrun : exec (.callMem h m) s = conclude s (s.callFar h.osz sel off (Instr.callMem h m).length) := by
    rw [exec, execCallMem, hread, ok_bind]
  exact hrun

/-- There is room exactly when `SegAccess` of both slots answers. -/
theorem callRoom_iff (s : State) (z : Size) : CallRoom s z ↔
    s.segAccess .ss (s.spMinus (2 * sizeBytes z)) (2 * sizeBytes z) .write =
      .ok (s.linAddr .ss (s.spMinus (2 * sizeBytes z))) := by
  refine ⟨fun ⟨hallows, halign⟩ => State.segAccess_of_allowed hallows halign, fun h => ?_⟩
  obtain ⟨hcheck, halign, _⟩ := State.segAccess_ok.mp h
  refine ⟨State.segCheck_ok.mp hcheck, fun hmis => ?_⟩
  rw [(s.alignFault_iff _ _).mpr hmis] at halign
  cases halign

theorem State.callRoom_of_room {s : State} {z : Size} (h : CallRoom s z) : s.callRoom (sizeBytes z) = .ok () :=
  State.callRoom_ok.mpr ⟨_, (callRoom_iff s z).mp h⟩

/-- Without the room a far `CALL` is the stack fault, whichever check of `SegAccess` failed (41 R183). -/
theorem State.callRoom_of_no_room {s : State} {z : Size} (h : ¬ CallRoom s z) :
    s.callRoom (sizeBytes z) = .error (.fault (segFaultOf s .ss)) := by
  cases haccess : s.segAccess .ss (s.spMinus (2 * sizeBytes z)) (2 * sizeBytes z) .write with
  | ok la =>
    refine absurd ((callRoom_iff s z).mpr ?_) h
    rw [haccess, (State.segAccess_ok.mp haccess).2.2]
  | error e => rw [State.callRoom_error haccess, segFault_zero]

theorem conclude_callEnd_no_room {s : State} {z : Size} (h : ¬ CallRoom s z) (sel : Half) (off : Word) (len : Nat)
    (r : Word × Desc) : conclude s (callEnd s z sel off len r) =
      .fault (if s.par.ssFault = .ss then .ss (s.errCode 0) else .gp (s.errCode 0)) := by
  have hfault : segFaultOf s .ss = if s.par.ssFault = .ss then .ss (s.errCode 0) else .gp (s.errCode 0) := by
    unfold segFaultOf
    cases s.par.ssFault <;> rfl
  rw [callEnd, State.callRoom_of_no_room h, ← hfault]
  rfl

/-- With the room and both pushes allowed only the accessed bit can stop a far `CALL`. -/
theorem conclude_callEnd {s : State} {z : Size} {sel : Half} {la : Word} {v : BitVec 64} {csTo retTo : List Nat}
    (hroom : CallRoom s z) (hpushes : CallPushes s z csTo retTo) (hdesc : DescAt s sel la v) (off : Word)
    (len : Nat) :
    conclude s (callEnd s z sel off len (la, Desc.ofBits v)) =
      hangOr s la (Desc.ofBits v) (called s z sel la (Desc.ofBits v) csTo retTo len off) := by
  obtain ⟨hcs, hret⟩ := hpushes
  have hsize : 2 * sizeBytes z ≤ 2 ^ 31 := by cases z <;> decide
  rw [callEnd, State.callRoom_of_room hroom, ok_bind, State.pushTo, hcs, ok_bind, State.pushTo, hret, ok_bind]
  refine conclude_accessedAt hdesc ?_
  rw [State.enterCommit_flat, State.setSp_spMinus _ s (by simp) _ hsize]
  simp [called, entered]

/-- The upper slot stands `n` bytes above the lower one, modulo the width of the stack pointer. -/
theorem State.spMinus_upper (s : State) {n : Nat} (hn : n ≤ 2 ^ 30) :
    s.spMinus n = truncSize s.stackSize (s.spMinus (2 * n) + n) := by
  unfold State.spMinus
  cases s.stackSize <;> simp only [truncSize] <;> omega

/-- A limit that covers both slots covers each: where the stack pointer wraps between them, the lower one is near
the top and the upper one near 0, which only an expand-up segment that reaches past the wrap allows. -/
theorem inLimit_slots {d : Desc} {lower n : Nat} (h : inLimit d lower (2 * n) = true) (hn : 1 ≤ n) :
    inLimit d lower n = true ∧ inLimit d (truncSize d.size (lower + n)) n = true := by
  cases hd : d.expandDown with
  | false =>
    rw [inLimit_up hd] at h ⊢
    rw [inLimit_up hd]
    have hle : truncSize d.size (lower + n) ≤ lower + n := by cases d.size <;> exact Nat.mod_le _ _
    omega
  | true =>
    rw [inLimit_down hd] at h ⊢
    rw [inLimit_down hd]
    have hnowrap : truncSize d.size (lower + n) = lower + n := by
      unfold upperBound at h
      unfold Desc.size truncSize
      cases hdb : d.db <;> simp only [hdb, if_true, if_false, Bool.false_eq_true] at h ⊢ <;> omega
    omega

/-- An address aligned to both slots is aligned to each. -/
theorem aligned_slots {base : Word} {z w : Size} {lower : Nat}
    (h : (base + BitVec.ofNat 32 lower).toNat % (2 * sizeBytes z) = 0) :
    (base + BitVec.ofNat 32 lower).toNat % sizeBytes z = 0 ∧
      (base + BitVec.ofNat 32 (truncSize w (lower + sizeBytes z))).toNat % sizeBytes z = 0 := by
  rw [BitVec.toNat_add, BitVec.toNat_ofNat] at h ⊢
  rw [BitVec.toNat_add, BitVec.toNat_ofNat]
  cases z <;> cases w <;> simp only [sizeBytes, truncSize] at h ⊢ <;> omega

/-- With the room every check of the two pushes passes, so without paging they are allowed (41 R183). -/
theorem callPushes_of_room {s : State} {z : Size} (hp : s.par.paging = false) (h : CallRoom s z) :
    ∃ csTo retTo, CallPushes s z csTo retTo := by
  obtain ⟨⟨hvalid, htype, hlimit⟩, halign⟩ := h
  have hn : 1 ≤ sizeBytes z ∧ sizeBytes z ≤ 2 ^ 30 := by cases z <;> decide
  have hupper : s.spMinus (sizeBytes z) =
      truncSize (s.sreg .ss).d.size (s.spMinus (2 * sizeBytes z) + sizeBytes z) := s.spMinus_upper hn.2
  have hslots := inLimit_slots hlimit hn.1
  have haligned : ∀ lower, lower = s.spMinus (sizeBytes z) ∨ lower = s.spMinus (2 * sizeBytes z) →
      ¬ Misaligned s (s.linAddr .ss lower) (sizeBytes z) := by
    rintro lower hlower ⟨hac, hcpl, _, hodd⟩
    have hboth : (s.linAddr .ss (s.spMinus (2 * sizeBytes z))).toNat % (2 * sizeBytes z) = 0 := by
      by_contra hne
      exact halign ⟨hac, hcpl, by cases z <;> simp [sizeBytes], hne⟩
    have heach := aligned_slots (w := (s.sreg .ss).d.size) hboth
    rcases hlower with rfl | rfl
    · rw [hupper] at hodd; exact hodd heach.2
    · exact hodd heach.1
  have hpush : ∀ lower, inLimit (s.sreg .ss).d lower (sizeBytes z) = true →
      ¬ Misaligned s (s.linAddr .ss lower) (sizeBytes z) →
      ∃ pas, s.segWriteTo .ss lower (sizeBytes z) = .ok pas := fun lower hin hal =>
    ⟨_, State.segWriteTo_ok.mpr ⟨_, State.segAccess_of_allowed ⟨hvalid, htype, hin⟩ hal,
      State.translate_flat hp _ _ _ _⟩⟩
  obtain ⟨csTo, hcs⟩ := hpush _ (hupper ▸ hslots.2) (haligned _ (.inl rfl))
  obtain ⟨retTo, hret⟩ := hpush _ hslots.1 (haligned _ (.inr rfl))
  exact ⟨csTo, retTo, hcs, hret⟩

theorem eachCall_decides : EachCall fun s i z sel off => ∀ csTo retTo, CallRoom s z → CallPushes s z csTo retTo →
    EnterDecides s i sel off fun la d => hangOr s la d (called s z sel la d csTo retTo i.length off) :=
  eachCall_runs.imp fun _ _ _ _ off h _ _ hroom hpushes =>
    h.decides fun _ _ hdesc => conclude_callEnd hroom hpushes hdesc off _

/-- Settles O29: the jumps end with the accessed bit; the calls first need the room, with which both pushes pass. -/
theorem farJumpDecision : Obligations.FarJumpDecision := by
  refine ⟨eachJump_decides, eachCall_runs.imp fun s i z sel off h => ⟨fun hroom => ?_, fun csTo retTo hroom hpushes => ?_⟩,
    fun s z hp hroom => callPushes_of_room hp hroom⟩
  · exact h.decides fun la v _ => conclude_callEnd_no_room hroom sel off i.length (la, Desc.ofBits v)
  · exact h.decides fun la v hdesc => conclude_callEnd hroom hpushes hdesc off i.length

/-- Settles O30: every check of O29 passes and the accessed bit can be written. -/
theorem farJumpEnters : Obligations.FarJumpEnters := by
  obtain ⟨hptr, hmem⟩ := eachJump_decides
  refine ⟨fun s h sel off la v hdesc henter hacc => ?_, fun s h m sel off la v hread hdesc henter hacc => ?_⟩
  · rw [(hptr s h sel off).of_enterable hdesc henter, hangOr_of_writable hacc]
  · rw [(hmem s h m sel off hread).of_enterable hdesc henter, hangOr_of_writable hacc]

/-- Settles O31: every check of O29 passes, there is room and the accessed bit can be written. -/
theorem farCallEnters : Obligations.FarCallEnters :=
  eachCall_decides.imp fun s i z sel off h la v csTo retTo hdesc henter hacc hroom hpushes => by
    rw [(h csTo retTo hroom hpushes).of_enterable hdesc henter, hangOr_of_writable hacc]

/-! ### Far `RET` -/

/-- A far `RET` to `sel` and `off` that releases `n` bytes, its stack slots read (41 R184). -/
def State.returnTo (s : State) (sel : Half) (off : Word) (n : Nat) : Res State := do
  need (!isNull sel) (raise s .gp 0)
  let r ← s.readDescriptor sel
  returnChecks s sel off r.2
  let a ← s.accessedAt r.1 r.2
  .ok ((s.setSp s.stackSize (s.spPlus n)).enterCommit a (loaded sel r.2) off)

/-- `i` is the far return to `sel:off` that releases `n` bytes of the stack. -/
def ReturnRuns (s : State) (i : Instr) (sel : Half) (off : Word) (n : Nat) : Prop :=
  exec i s = conclude s (s.returnTo sel off n)

theorem eachReturn_runs : EachReturn ReturnRuns := by
  intro s h off w hoff hw
  have hrun : ∀ extra, s.returnFar h.osz extra =
      s.returnTo (BitVec.ofNat 16 w) (BitVec.ofNat 32 off) (2 * sizeBytes h.osz + extra) := by
    intro extra
    rw [State.returnFar, hoff, ok_bind, hw, ok_bind]
    rfl
  exact ⟨congrArg (conclude s) (hrun 0), fun imm => congrArg (conclude s) (hrun imm.toNat)⟩

theorem State.returnTo_of_not_null (s : State) {sel : Half} (hnull : isNull sel = false) (off : Word) (n : Nat) :
    s.returnTo sel off n = s.readDescriptor sel >>= fun r => returnChecks s sel off r.2 >>= fun _ =>
      s.accessedAt r.1 r.2 >>= fun a =>
      .ok ((s.setSp s.stackSize (s.spPlus n)).enterCommit a (loaded sel r.2) off) := by
  rw [State.returnTo, hnull]
  rfl

theorem ReturnRuns.entryMissing {s : State} {i : Instr} {sel : Half} {off : Word} {n : Nat}
    (h : ReturnRuns s i sel off n) (hnull : isNull sel = false) : EntryMissing s i sel :=
  .of_stops fun e he => by rw [h, State.returnTo_of_not_null s hnull, he]; rfl

theorem ReturnRuns.decides {s : State} {i : Instr} {sel : Half} {off : Word} {n : Nat}
    (h : ReturnRuns s i sel off n) : ReturnDecides s i sel off n := by
  refine ⟨fun hnull => ?_, h.entryMissing, fun la v hnull hdesc => ?_⟩
  · rw [h, State.returnTo, hnull]
    rfl
  · have hlast : conclude s (s.accessedAt la (Desc.ofBits v) >>= fun a =>
        .ok ((s.setSp s.stackSize (s.spPlus n)).enterCommit a (loaded sel (Desc.ofBits v)) off)) =
        hangOr s la (Desc.ofBits v) (entered s sel la (Desc.ofBits v) s.mem (espPlus s n) off) :=
      conclude_accessedAt hdesc (by rw [State.enterCommit_flat, State.setSp_spPlus s s rfl]; rfl)
    rw [h, State.returnTo_of_not_null s hnull, State.readDescriptor_of_descAt hdesc, ok_bind]
    simp only [returnChecks_eq, ite_stop_bind, conclude_ite_stop, ok_bind, hlast]
    rfl

/-- Settles O32: both forms run as `ReturnRuns` says, and the outcome is that of its checks in order. -/
theorem farReturnDecision : Obligations.FarReturnDecision :=
  eachReturn_runs.imp fun _ _ _ _ _ => ReturnRuns.decides

/-- A selector whose descriptor passes every check is returned to, unless the machine hangs. -/
theorem ReturnDecides.of_returnable {s : State} {i : Instr} {sel : Half} {off la : Word} {v : BitVec 64} {n : Nat}
    (h : ReturnDecides s i sel off n) (hdesc : DescAt s sel la v) (hret : Returnable s sel off (Desc.ofBits v)) :
    exec i s = hangOr s la (Desc.ofBits v) (entered s sel la (Desc.ofBits v) s.mem (espPlus s n) off) := by
  obtain ⟨hnull, hs, hcode, hrpl, hpriv, hp, hlimit⟩ := hret
  have hinner : ¬ selRPL sel < s.cpl := by rw [hrpl]; exact BitVec.lt_irrefl _
  have houter : ¬ s.cpl < selRPL sel := by rw [hrpl]; exact BitVec.lt_irrefl _
  have hcodeSegment : ¬ (true = false ∨ true = false) := by simp
  rw [h.2.2 la v hnull hdesc, hs, hcode, hp, if_neg hcodeSegment, if_neg hinner, if_neg houter,
    if_neg (not_not.mpr hpriv), if_neg Bool.noConfusion, if_neg (Nat.not_lt.mpr hlimit)]

/-- Settles O33: every check of O32 passes and the accessed bit can be written. -/
theorem farReturnEnters : Obligations.FarReturnEnters := by
  intro s h off w la v hoff hw hdesc hret hacc
  obtain ⟨hplain, himm⟩ := farReturnDecision s h off w hoff hw
  refine ⟨?_, fun imm => ?_⟩
  · rw [hplain.of_returnable hdesc hret, hangOr_of_writable hacc]
  · rw [(himm imm).of_returnable hdesc hret, hangOr_of_writable hacc]

/-! ### Hangs and refusals -/

/-- Settles O5: every check of O22, O29 and O32 passes, and the last step hangs. -/
theorem romDescriptorHangs : Obligations.RomDescriptorHangs := by
  refine ⟨?_, ?_, ?_, ?_, fun s hhung => by rw [step, if_pos hhung]⟩
  · exact movSregDecision.imp fun s i x sel regs h la v hdesc hload hacc hrom => by
      rw [h.of_loadable hdesc hload, hangOr_of_rom hacc hrom]
  · exact eachJump_decides.imp fun s i sel off h la v hdesc henter hacc hrom => by
      rw [h.of_enterable hdesc henter, hangOr_of_rom hacc hrom]
  · exact eachCall_decides.imp fun s i z sel off h csTo retTo hroom hpushes la v hdesc henter hacc hrom => by
      rw [(h csTo retTo hroom hpushes).of_enterable hdesc henter, hangOr_of_rom hacc hrom]
  · exact farReturnDecision.imp fun s i sel off n h la v hdesc hret hacc hrom => by
      rw [h.of_returnable hdesc hret, hangOr_of_rom hacc hrom]

/-- Settles O35: the meaning of each of the six is its refusal. -/
theorem interruptsAndFastCallsRefused : Obligations.InterruptsAndFastCallsRefused :=
  fun _ _ _ => ⟨rfl, rfl, rfl, rfl, rfl, rfl⟩

end Sys2Proof.Machine
end

section
/-! The stores of selectors and table registers, and family 3: the table registers (40 R156, 42 R200 to R207). -/

namespace Sys2Proof.Machine

/-! ### Stores of a selector (40 R156, 42 R202, R203) -/

/-- `mk` stores the selector `sel s` in its operand and moves on. -/
def StoreRuns (mk : Head → RM → Instr) (sel : State → Half) : Prop :=
  ∀ (s : State) (h : Head) (o : RM),
    exec (mk h o) s = conclude s (s.writeRm16 h o (sel s) >>= fun t => .ok (t.advance (mk h o).length))

theorem movRmSreg_runs (x : SReg) : StoreRuns (fun h o => .movRmSreg h o x) fun s => (s.sreg x).sel :=
  fun _ _ _ => rfl

theorem sldt_runs : StoreRuns .sldt fun s => s.ldtr.sel := fun _ _ _ => rfl

theorem str_runs : StoreRuns .str fun s => s.tr.sel := fun _ _ _ => rfl

/-- A store changes nothing that `pcPlus` looks at. -/
@[simp] theorem State.store_pcPlus (s : State) (pas : List Nat) (v n : Nat) :
    (s.store pas v).pcPlus n = s.pcPlus n := by simp [State.pcPlus]

theorem StoreRuns.stores {mk : Head → RM → Instr} {sel : State → Half} (h : StoreRuns mk sel) :
    StoresSelector mk sel := by
  refine ⟨fun s hd r => ?_, fun s hd m pas hpas => ?_⟩
  · rw [h, State.writeRm16, ok_bind]
    cases hd.osz <;> rfl
  · rw [h, State.writeRm16, hpas, ok_bind, ok_bind, conclude_ok]
    simp [State.advance]

/-- Settles O28: `MOV r/m16, Sreg` is a store of a selector. -/
theorem movFromSregResult : Obligations.MovFromSregResult := fun x => (movRmSreg_runs x).stores

/-- Settles O37: `SLDT` and `STR` are stores of a selector. -/
theorem tableSelectorStores : Obligations.TableSelectorStores := ⟨sldt_runs.stores, str_runs.stores⟩

/-! ### Stores and loads of a pseudo-descriptor (42 R200, R201, R204, R205) -/

theorem storeTable_of_allowed {s : State} {h : Head} {m : Mem} {limTo baseTo : List Nat}
    (hlim : s.segWriteTo (segOf h m) (s.ea m).toNat 2 = .ok limTo)
    (hbase : s.segWriteTo (segOf h m) ((s.ea m).toNat + 2) 4 = .ok baseTo) (r : TableReg) (len : Nat) :
    storeTable h m r len s = .next
      { (s.store limTo r.limit.toNat).store baseTo (s.storedBase h.osz r.base).toNat with
        pc := s.pcPlus len, free := s.free + 1 } := by
  rw [storeTable, hlim, ok_bind, hbase, ok_bind, conclude_ok]
  simp [State.advance]

/-- Settles O36: both stores are allowed, and the base is that of `storedBase`. -/
theorem pseudoDescriptorStores : Obligations.PseudoDescriptorStores :=
  ⟨fun _ _ _ _ _ hlim hbase => storeTable_of_allowed hlim hbase _ _,
    fun _ _ _ _ _ hlim hbase => storeTable_of_allowed hlim hbase _ _⟩

theorem loadedBase_eq (z : Size) (b : Word) : loadedBase z b = if z = .s16 then b &&& 0x00FFFFFF else b := by
  cases z <;> rfl

/-- Settles O38: at `CPL` 0 both reads answer, and only the table register and `pc` change. -/
theorem pseudoDescriptorLoads : Obligations.PseudoDescriptorLoads := by
  intro s h m lim b hcpl hlim hbase
  have hread := State.readTable_ok.mpr ⟨hcpl, lim, b, hlim, hbase, rfl⟩
  rw [loadedBase_eq] at hread
  constructor
  · rw [exec, execLgdt, hread]
    rfl
  · rw [exec, execLidt, hread]
    rfl

/-! ### `LLDT` and `LTR` (42 R206, R207) -/

theorem lldt_run {s : State} {h : Head} {src : RM} {sel : Half} (hcpl : s.cpl = 0)
    (hsel : s.readRm16 h src = .ok sel) :
    exec (.lldt h src) s =
      conclude s (s.loadLdtr sel >>= fun t => .ok (t.advance (Instr.lldt h src).length)) := by
  rw [exec, execLldt, (needSupervisor_ok (u := ())).mpr hcpl, ok_bind, hsel, ok_bind]

theorem ltr_run {s : State} {h : Head} {src : RM} {sel : Half} (hcpl : s.cpl = 0)
    (hsel : s.readRm16 h src = .ok sel) :
    exec (.ltr h src) s = conclude s (s.loadTr sel >>= fun t => .ok (t.advance (Instr.ltr h src).length)) := by
  rw [exec, execLtr, (needSupervisor_ok (u := ())).mpr hcpl, ok_bind, hsel, ok_bind]

/-- A selector of the GDT is read before `LLDT` looks at it. -/
theorem State.loadLdtr_of_gdt (s : State) {sel : Half} (hnull : isNull sel = false) (hti : selTI sel = false) :
    s.loadLdtr sel = s.readDescriptor sel >>= fun r =>
      if r.2.isLdt = false then .error (raise s .gp (selCode sel))
      else if r.2.p = false then .error (raise s .np (selCode sel))
      else .ok { s with ldtr := ⟨sel, true, r.2⟩ } := by
  rw [State.loadLdtr, hnull, hti]
  simp only [Bool.false_eq_true, Bool.true_eq_false, if_false, Bool.not_false, ok_bind, need_eq_ite, ite_stop_bind]

/-- A selector of the GDT is read before `LTR` looks at it. -/
theorem State.loadTr_of_gdt (s : State) {sel : Half} (hnull : isNull sel = false) (hti : selTI sel = false) :
    s.loadTr sel = s.readDescriptor sel >>= fun r =>
      if r.2.isAvailableTss = false then .error (raise s .gp (selCode sel))
      else if r.2.p = false then .error (raise s .np (selCode sel))
      else s.busyAt r.1 >>= fun pa =>
        .ok { s.storeByte pa (Memory.read s.mem pa ||| 2) with
          tr := ⟨sel, true, { r.2 with type := r.2.type ||| 2 }⟩ } := by
  rw [State.loadTr, hnull, hti]
  simp only [Bool.not_false, Bool.true_eq_false, if_false, ok_bind, need_eq_ite, ite_stop_bind]

theorem isLdt_iff (d : Desc) : d.isLdt = true ↔ d.s = false ∧ d.type = 2 := by
  refine ⟨fun h => ⟨?_, isLdt_type h⟩, fun ⟨hs, htype⟩ => by simp [Desc.isLdt, kind_of_system hs, htype, systemKind]⟩
  cases hs : d.s with
  | false => rfl
  | true => cases hcode : d.isCode <;> simp [Desc.isLdt, Desc.kind, hs, hcode] at h

theorem isAvailableTss_iff (d : Desc) : d.isAvailableTss = true ↔ d.s = false ∧ (d.type = 1 ∨ d.type = 9) := by
  cases hs : d.s with
  | true => cases hcode : d.isCode <;> simp [Desc.isAvailableTss, Desc.kind, hs, hcode]
  | false =>
    have htable : ∀ t : BitVec 4, (decide (systemKind t = .tss16 false) || decide (systemKind t = .tss32 false)) =
        true ↔ t = 1 ∨ t = 9 := by decide
    rw [Desc.isAvailableTss, kind_of_system hs, htable]
    simp

/-- Settles O39: a null selector empties `LDTR`; else the entry is read and both checks pass. -/
theorem lldtLoads : Obligations.LldtLoads := by
  refine ⟨fun s h src sel hcpl hsel hnull => ?_, fun s h src sel la v hcpl hsel hnull hti hdesc hs htype hp => ?_⟩
  · rw [lldt_run hcpl hsel, State.loadLdtr, if_pos hnull]
    rfl
  · have hldt := (isLdt_iff (Desc.ofBits v)).mpr ⟨hs, htype⟩
    rw [lldt_run hcpl hsel, State.loadLdtr_of_gdt s hnull hti, State.readDescriptor_of_descAt hdesc, ok_bind, hldt, hp]
    rfl

/-- Settles O40: the entry is read, both checks pass, and the busy bit goes to a byte of RAM. -/
theorem ltrLoads : Obligations.LtrLoads := by
  intro s h src sel la v hcpl hsel hnull hti hdesc hs htype hp hram
  have htss := (isAvailableTss_iff (Desc.ofBits v)).mpr ⟨hs, htype⟩
  have hbusy : s.busyAt la = .ok (la + 5).toNat :=
    State.busyAt_ok.mpr ⟨State.phys_flat hdesc.1 _ _ _, (s.holdsTables_iff _).mpr (.inl hram)⟩
  have hstore : ∀ b, s.storeByte (la + 5).toNat b = { s with mem := Memory.write s.mem (la + 5).toNat b } := by
    intro b
    rw [State.storeByte_eq, State.storeByte_ram _ _ _ hram]
  rw [ltr_run hcpl hsel, State.loadTr_of_gdt s hnull hti, State.readDescriptor_of_descAt hdesc, ok_bind, htss, hp,
    hbusy, ok_bind, hstore]
  rfl

/-- Settles O41: `CPL` is checked before the operand is read, the selector before the entry is, and then the kind and
the presence of the descriptor. -/
theorem privilegedLoadsTrap : Obligations.PrivilegedLoadsTrap := by
  refine ⟨fun s h m src hcpl => ?_, fun s h src sel hcpl hsel => ⟨fun hnull => ?_, fun hnull hti => ?_,
    fun la v hnull hti hdesc => ?_⟩⟩
  · have hsuper : needSupervisor s = .error (raise s .gp 0) := by
      rw [needSupervisor, decide_eq_false hcpl, need_false]
    refine ⟨?_, ?_, ?_, ?_⟩
    · rw [exec, execLgdt, State.readTable, hsuper]; rfl
    · rw [exec, execLidt, State.readTable, hsuper]; rfl
    · rw [exec, execLldt, hsuper]; rfl
    · rw [exec, execLtr, hsuper]; rfl
  · rw [ltr_run hcpl hsel, State.loadTr, hnull]
    rfl
  · rw [lldt_run hcpl hsel, ltr_run hcpl hsel, State.loadLdtr, State.loadTr, hnull, hti]
    exact ⟨rfl, rfl⟩
  · rw [lldt_run hcpl hsel, ltr_run hcpl hsel, State.loadLdtr_of_gdt s hnull hti, State.loadTr_of_gdt s hnull hti,
      State.readDescriptor_of_descAt hdesc, ok_bind, ok_bind, ← isLdt_iff, ← isAvailableTss_iff, Bool.not_eq_true,
      Bool.not_eq_true]
    refine ⟨fun hldt => ?_, fun hldt hp => ?_, fun htss => ?_, fun htss hp => ?_⟩
    · rw [hldt]; rfl
    · rw [hldt, hp]; rfl
    · rw [htss]; rfl
    · rw [htss, hp]; rfl

/-- Settles O21: wherever a descriptor is read, the instruction stops where `ReadDescriptor` stops. -/
theorem selectorBeyondTableFaults : Obligations.SelectorBeyondTableFaults := by
  refine ⟨eachLoad_runs.imp fun _ _ _ _ _ h => h.entryMissing, eachJump_runs.imp fun _ _ _ _ h => h.entryMissing,
    eachCall_runs.imp fun _ _ _ _ _ h => h.entryMissing, eachReturn_runs.imp fun _ _ _ _ _ h => h.entryMissing,
    fun s h src sel hcpl hsel hnull hti => ⟨.of_stops fun e he => ?_, .of_stops fun e he => ?_⟩⟩
  · rw [lldt_run hcpl hsel, State.loadLdtr_of_gdt s hnull hti, he]; rfl
  · rw [ltr_run hcpl hsel, State.loadTr_of_gdt s hnull hti, he]; rfl

end Sys2Proof.Machine
end

section
/-! The faults of operand accesses: where an instruction's next access is one of `SegAccess`, a failed check of it is
the outcome (20_memory.md R70, R86). -/

namespace Sys2Proof.Machine

/-! ### An instruction that makes an access -/

/-- The next thing `i` does in `s` is the access of `n` bytes at an offset of `x`. -/
def Accesses (s : State) (i : Instr) (x : SReg) (off n : Nat) (u : Use) : Prop :=
  ∃ k : Word → Res State, exec i s = conclude s (s.segAccess x off n u >>= k)

theorem Accesses.of_read {s : State} {i : Instr} {x : SReg} {off n : Nat} {k : Nat → Res State}
    (h : exec i s = conclude s (s.segRead x off n >>= k)) : Accesses s i x off n .read :=
  ⟨_, by rw [h, State.segRead, bind_assoc]⟩

theorem Accesses.of_write {s : State} {i : Instr} {x : SReg} {off n : Nat} {k : List Nat → Res State}
    (h : exec i s = conclude s (s.segWriteTo x off n >>= k)) : Accesses s i x off n .write :=
  ⟨_, by rw [h, State.segWriteTo, bind_assoc]⟩

theorem Accesses.faultsDenied {s : State} {i : Instr} {x : SReg} {off n : Nat} {u : Use}
    (h : Accesses s i x off n u) : FaultsDenied s i x off n u := by
  intro hdenied
  obtain ⟨k, hk⟩ := h
  rw [hk, State.segAccess_eq, if_pos hdenied]
  rfl

theorem Accesses.faultsAt {s : State} {i : Instr} {x : SReg} {off n : Nat} {u : Use} (h : Accesses s i x off n u) :
    FaultsAt s i x off n u := by
  refine ⟨h.faultsDenied, fun hallows hmis => ?_⟩
  obtain ⟨k, hk⟩ := h
  rw [hk, State.segAccess_eq, if_neg (not_not.mpr hallows), if_pos hmis]
  rfl

/-- Through a data register that holds no descriptor the access is `#GP(0)`. -/
theorem Accesses.of_invalid {s : State} {i : Instr} {x : SReg} {off n : Nat} {u : Use} (h : Accesses s i x off n u)
    (hx : x ∈ dataSregs) (hvalid : (s.sreg x).valid = false) : exec i s = .fault (.gp (s.errCode 0)) := by
  have hss : ¬ (x = .ss ∧ s.par.ssFault = .ss) := by rintro ⟨rfl, _⟩; simp [dataSregs] at hx
  have hdenied : ¬ SegAllows s x off n u := fun ⟨hv, _⟩ => by rw [hvalid] at hv; cases hv
  rw [h.faultsDenied hdenied, if_neg hss]

/-! ### The first access of each instruction with a memory operand -/

section
variable (s : State) (h : Head) (m : Mem)

theorem StoreRuns.accesses {mk : Head → RM → Instr} {sel : State → Half} (hrun : StoreRuns mk sel) :
    Accesses s (mk h (.mem m)) (segOf h m) (s.ea m).toNat 2 .write :=
  .of_write (by rw [hrun, State.writeRm16, bind_assoc])

/-- The three stores of a selector. -/
theorem selectorStore_accesses (x : SReg) :
    ∀ i ∈ [Instr.movRmSreg h (.mem m) x, .sldt h (.mem m), .str h (.mem m)],
      Accesses s i (segOf h m) (s.ea m).toNat 2 .write := by
  simp only [List.forall_mem_cons, List.not_mem_nil, false_imp_iff, implies_true, and_true]
  exact ⟨(movRmSreg_runs x).accesses s h m, sldt_runs.accesses s h m, str_runs.accesses s h m⟩

theorem movSregRm_accesses (x : SReg) :
    Accesses s (.movSregRm h x (.mem m)) (segOf h m) (s.ea m).toNat 2 .read :=
  .of_read (by rw [exec, execMovSregRm, State.readRm16, bind_assoc])

/-- The two stores of a pseudo-descriptor. -/
theorem tableStore_accesses :
    ∀ i ∈ [Instr.sgdt h m, .sidt h m], Accesses s i (segOf h m) (s.ea m).toNat 2 .write := by
  simp only [List.forall_mem_cons, List.not_mem_nil, false_imp_iff, implies_true, and_true]
  exact ⟨.of_write rfl, .of_write rfl⟩

theorem tableStore_accesses_base {limTo : List Nat}
    (hlim : s.segWriteTo (segOf h m) (s.ea m).toNat 2 = .ok limTo) :
    ∀ i ∈ [Instr.sgdt h m, .sidt h m], Accesses s i (segOf h m) ((s.ea m).toNat + 2) 4 .write := by
  simp only [List.forall_mem_cons, List.not_mem_nil, false_imp_iff, implies_true, and_true]
  exact ⟨.of_write (by rw [exec, execSgdt, storeTable, hlim, ok_bind]),
    .of_write (by rw [exec, execSidt, storeTable, hlim, ok_bind])⟩

/-- The far pointer is read first by the seven instructions that take one from memory. -/
theorem farPointer_runs (r : Reg) :
    ∀ i ∈ [Instr.lds h r m, .les h r m, .lss h r m, .lfs h r m, .lgs h r m, .jmpMem h m, .callMem h m],
      ∃ k, exec i s = conclude s (s.readFarPtr h m >>= k) := by
  simp only [List.forall_mem_cons, List.not_mem_nil, false_imp_iff, implies_true, and_true]
  exact ⟨⟨_, rfl⟩, ⟨_, rfl⟩, ⟨_, rfl⟩, ⟨_, rfl⟩, ⟨_, rfl⟩, ⟨_, rfl⟩, ⟨_, rfl⟩⟩

theorem farPointer_accesses (r : Reg) :
    ∀ i ∈ [Instr.lds h r m, .les h r m, .lss h r m, .lfs h r m, .lgs h r m, .jmpMem h m, .callMem h m],
      Accesses s i (segOf h m) (s.ea m).toNat (sizeBytes h.osz) .read := by
  intro i hi
  obtain ⟨k, hk⟩ := farPointer_runs s h m r i hi
  exact .of_read (by rw [hk, State.readFarPtr, bind_assoc])

theorem farPointer_accesses_selector (r : Reg) {off : Nat}
    (hoff : s.segRead (segOf h m) (s.ea m).toNat (sizeBytes h.osz) = .ok off) :
    ∀ i ∈ [Instr.lds h r m, .les h r m, .lss h r m, .lfs h r m, .lgs h r m, .jmpMem h m, .callMem h m],
      Accesses s i (segOf h m) ((s.ea m).toNat + sizeBytes h.osz) 2 .read := by
  intro i hi
  obtain ⟨k, hk⟩ := farPointer_runs s h m r i hi
  exact .of_read (by rw [hk, State.readFarPtr, hoff, ok_bind, bind_assoc])

/-- At `CPL` 0 the operand is the first access of `LLDT` and `LTR`. -/
theorem selectorLoad_accesses (hcpl : s.cpl = 0) :
    ∀ i ∈ [Instr.lldt h (.mem m), .ltr h (.mem m)], Accesses s i (segOf h m) (s.ea m).toNat 2 .read := by
  have hsuper : needSupervisor s = .ok () := needSupervisor_ok.mpr hcpl
  simp only [List.forall_mem_cons, List.not_mem_nil, false_imp_iff, implies_true, and_true]
  exact ⟨.of_read (by rw [exec, execLldt, hsuper, ok_bind, State.readRm16, bind_assoc]),
    .of_read (by rw [exec, execLtr, hsuper, ok_bind, State.readRm16, bind_assoc])⟩

/-- At `CPL` 0 the limit is the first access of `LGDT` and `LIDT`. -/
theorem tableLoad_accesses (hcpl : s.cpl = 0) :
    ∀ i ∈ [Instr.lgdt h m, .lidt h m], Accesses s i (segOf h m) (s.ea m).toNat 2 .read := by
  have hsuper : needSupervisor s = .ok () := needSupervisor_ok.mpr hcpl
  simp only [List.forall_mem_cons, List.not_mem_nil, false_imp_iff, implies_true, and_true]
  exact ⟨.of_read (by rw [exec, execLgdt, State.readTable, hsuper, ok_bind, bind_assoc]),
    .of_read (by rw [exec, execLidt, State.readTable, hsuper, ok_bind, bind_assoc])⟩

theorem tableLoad_accesses_base (hcpl : s.cpl = 0) {lim : Nat}
    (hlim : s.segRead (segOf h m) (s.ea m).toNat 2 = .ok lim) :
    ∀ i ∈ [Instr.lgdt h m, .lidt h m], Accesses s i (segOf h m) ((s.ea m).toNat + 2) 4 .read := by
  have hsuper : needSupervisor s = .ok () := needSupervisor_ok.mpr hcpl
  simp only [List.forall_mem_cons, List.not_mem_nil, false_imp_iff, implies_true, and_true]
  exact ⟨.of_read (by rw [exec, execLgdt, State.readTable, hsuper, ok_bind, hlim, ok_bind, bind_assoc]),
    .of_read (by rw [exec, execLidt, State.readTable, hsuper, ok_bind, hlim, ok_bind, bind_assoc])⟩

/-- The pops and the far returns first read the stack. -/
theorem stack_accesses (imm : Half) :
    ∀ i ∈ [Instr.popEs h, .popSs h, .popDs h, .popFs h, .popGs h, .retf h, .retfImm h imm],
      Accesses s i .ss s.sp (sizeBytes h.osz) .read := by
  simp only [List.forall_mem_cons, List.not_mem_nil, false_imp_iff, implies_true, and_true]
  exact ⟨.of_read rfl, .of_read rfl, .of_read rfl, .of_read rfl, .of_read rfl, .of_read rfl, .of_read rfl⟩

theorem return_accesses_selector (imm : Half) {off : Nat} (hoff : s.segRead .ss s.sp (sizeBytes h.osz) = .ok off) :
    ∀ i ∈ [Instr.retf h, .retfImm h imm],
      Accesses s i .ss (s.spPlus (sizeBytes h.osz)) (sizeBytes h.osz) .read := by
  simp only [List.forall_mem_cons, List.not_mem_nil, false_imp_iff, implies_true, and_true]
  exact ⟨.of_read (by rw [exec, execRetf, State.returnFar, hoff, ok_bind]),
    .of_read (by rw [exec, execRetfImm, State.returnFar, hoff, ok_bind])⟩

end

/-! ### The statement -/

/-- Through a null data register the privileged loads fault too: at `CPL` 0 by their access, else before it. -/
theorem privilegedLoad_of_invalid {s : State} {h : Head} {m : Mem} (hx : segOf h m ∈ dataSregs)
    (hvalid : (s.sreg (segOf h m)).valid = false) :
    ∀ i ∈ [Instr.lgdt h m, .lidt h m, .lldt h (.mem m), .ltr h (.mem m)], exec i s = .fault (.gp (s.errCode 0)) := by
  intro i hi
  by_cases hcpl : s.cpl = 0
  · have hsplit : i ∈ [Instr.lgdt h m, .lidt h m] ∨ i ∈ [Instr.lldt h (.mem m), .ltr h (.mem m)] := by
      simpa only [List.mem_cons, List.not_mem_nil, or_false, or_assoc] using hi
    rcases hsplit with hi | hi
    · exact (tableLoad_accesses s h m hcpl i hi).of_invalid hx hvalid
    · exact (selectorLoad_accesses s h m hcpl i hi).of_invalid hx hvalid
  · obtain ⟨hlgdt, hlidt, hlldt, hltr⟩ := privilegedLoadsTrap.1 s h m (.mem m) hcpl
    simp only [List.mem_cons, List.not_mem_nil, or_false] at hi
    rcases hi with rfl | rfl | rfl | rfl
    · exact hlgdt
    · exact hlidt
    · exact hlldt
    · exact hltr

/-- Settles O15: each instruction's access is the next thing it does, so a failed check of it is the outcome. -/
theorem nullRegisterUseFaults : Obligations.NullRegisterUseFaults := by
  unfold Obligations.NullRegisterUseFaults
  refine ⟨?null, ?operand, ?farPointer, ?stack⟩
  case null =>
    intro s h m x r hx hvalid i hi
    have hsplit : i ∈ [Instr.movRmSreg h (.mem m) x, .sldt h (.mem m), .str h (.mem m)] ∨
        i ∈ [Instr.sgdt h m, .sidt h m] ∨ i = .movSregRm h x (.mem m) ∨
        i ∈ [Instr.lds h r m, .les h r m, .lss h r m, .lfs h r m, .lgs h r m, .jmpMem h m, .callMem h m] ∨
        i ∈ [Instr.lgdt h m, .lidt h m, .lldt h (.mem m), .ltr h (.mem m)] := by
      simpa only [List.mem_cons, List.not_mem_nil, or_false, or_assoc] using hi
    rcases hsplit with hi | hi | rfl | hi | hi
    · exact (selectorStore_accesses s h m x i hi).of_invalid hx hvalid
    · exact (tableStore_accesses s h m i hi).of_invalid hx hvalid
    · exact (movSregRm_accesses s h m x).of_invalid hx hvalid
    · exact (farPointer_accesses s h m r i hi).of_invalid hx hvalid
    · exact privilegedLoad_of_invalid hx hvalid i hi
  case operand =>
    intro s h m x
    refine ⟨?_, (movSregRm_accesses s h m x).faultsAt, ?_, ?_⟩
    · exact fun i hi => (selectorStore_accesses s h m x i hi).faultsAt
    · intro i hi
      exact ⟨(tableStore_accesses s h m i hi).faultsAt,
        fun _ hlim => (tableStore_accesses_base s h m hlim i hi).faultsAt⟩
    · intro hcpl
      refine ⟨fun i hi => (selectorLoad_accesses s h m hcpl i hi).faultsDenied, fun i hi => ?_⟩
      exact ⟨(tableLoad_accesses s h m hcpl i hi).faultsDenied,
        fun _ hlim => (tableLoad_accesses_base s h m hcpl hlim i hi).faultsDenied⟩
  case farPointer =>
    intro s h m r i hi
    exact ⟨(farPointer_accesses s h m r i hi).faultsAt,
      fun _ hoff => (farPointer_accesses_selector s h m r hoff i hi).faultsDenied⟩
  case stack =>
    intro s h imm
    refine ⟨fun i hi => (stack_accesses s h imm i hi).faultsAt, fun i hi off hoff => ?_⟩
    exact (return_accesses_selector s h imm hoff i hi).faultsDenied

end Sys2Proof.Machine
end

section
/-! Frames: what each instruction leaves unchanged when it completes or hangs. -/

namespace Sys2Proof.Machine

/-! ### What a hang and a load leave -/

/-- An instruction whose operation stops answers a next state only by hanging. -/
theorem eq_hung_of_error {s t : State} {e : Stop} (h : conclude s (.error e) = .next t) : t = { s with hung := true } := by
  rcases conclude_next.mp h with ⟨_, hu, _⟩ | ⟨_, ht⟩
  · cases hu
  · exact ht

/-- The frame of a load of `x` with `sel`: `x` and the byte of the accessed bit. -/
structure LoadFrame (s : State) (x : SReg) (sel : Half) (t : State) : Prop where
  sregs : KeepsSregsBut x s t
  tables : KeepsTables s t
  mode : KeepsMode s t
  mem : KeepsMemBut (fun a => s.loadTarget sel = some a) s t

theorem LoadFrame.hung (s : State) (x : SReg) (sel : Half) : LoadFrame s x sel { s with hung := true } :=
  ⟨fun _ _ => rfl, ⟨rfl, rfl, rfl, rfl⟩, ⟨rfl, rfl⟩, fun _ _ => rfl⟩

theorem State.loadSeg_frame {s u : State} {x : SReg} {sel : Half} (h : s.loadSeg x sel = .ok u) (regs : Regs)
    (pc : Word) (free : Nat) : LoadFrame s x sel { u with regs := regs, pc := pc, free := free } := by
  obtain ⟨_, v, _, rfl⟩ := State.loadSeg_answer h
  refine ⟨fun y hy => ?_, by simp, by simp, fun a ha => State.setAccessed_read_ne s _ a ha⟩
  have hkept : (s.seg.set x v).get y = s.seg.get y := SegRegs.get_set_ne _ _ _ _ hy
  simpa [State.sreg] using hkept

/-- The frame of the eleven loads: the general registers are kept, or are those the instruction leaves. -/
theorem LoadRuns.frame {s t : State} {i : Instr} {x : SReg} {sel : Half} {regs : Regs} (h : LoadRuns s i x sel regs)
    (hnext : exec i s = .next t) : (t.regs = s.regs ∨ t.regs = regs) ∧ LoadFrame s x sel t := by
  rw [h.2] at hnext
  rcases conclude_next.mp hnext with ⟨u, hu, rfl⟩ | ⟨_, rfl⟩
  · obtain ⟨v, hload, hu⟩ := bind_ok.mp hu
    cases hu
    exact ⟨.inr rfl, State.loadSeg_frame hload _ _ _⟩
  · exact ⟨.inl rfl, .hung s x sel⟩

theorem keepsRegsBut_of_set {s t : State} {r : Reg} {v : Word} (h : t.regs = s.regs ∨ t.regs = s.regs.set r v) :
    KeepsRegsBut r s t := by
  intro x hx
  rcases h with h | h
  · rw [State.reg, h]; rfl
  · rw [State.reg, h, Regs.get_set_ne _ _ _ _ hx]; rfl

/-! ### Loads -/

/-- Settles O42: no general register changes, and the rest is the frame of a load. -/
theorem movSregFrame : Obligations.MovSregFrame := by
  intro s t h x src hnext
  cases hsel : s.readRm16 h src with
  | error e =>
    rw [exec, execMovSregRm, hsel, error_bind] at hnext
    obtain rfl := eq_hung_of_error hnext
    exact ⟨rfl, fun _ _ => rfl, ⟨rfl, rfl, rfl, rfl⟩, ⟨rfl, rfl⟩, fun _ _ _ _ => rfl⟩
  | ok sel =>
    have hcs : x ≠ .cs := by
      rintro rfl
      rw [exec, execMovSregRm, hsel, ok_bind] at hnext
      cases hnext
    obtain ⟨hregs, hframe⟩ := (eachLoad_runs.1 s h x src sel hcs hsel).frame hnext
    refine ⟨hregs.elim id id, hframe.sregs, hframe.tables, hframe.mode, fun sel' hsel' => ?_⟩
    cases hsel'
    exact hframe.mem

/-- With B = 0 the stack pointer is the low half of `ESP` (10_state.md R32). -/
theorem espPlus_high (s : State) (n : Nat) (hb : s.seg.ss.d.db = false) :
    (espPlus s n).extractLsb' 16 16 = s.regs.esp.extractLsb' 16 16 := by
  rw [espPlus, hb, if_neg Bool.false_ne_true]
  exact BitVec.extractLsb'_append_eq_left

/-- The frame of a pop whose form is one of the five. -/
theorem popFrame_of_form {mk : Head → Instr} {x : SReg} (hexec : ∀ h s, exec (mk h) s = popSreg h x (mk h).length s)
    (hform : ∀ h, (mk h, x) ∈ [(Instr.popEs h, SReg.es), (.popSs h, .ss), (.popDs h, .ds), (.popFs h, .fs),
      (.popGs h, .gs)]) : PopFrame mk x := by
  intro s t h hnext
  cases hw : s.segRead .ss s.sp (sizeBytes h.osz) with
  | error e =>
    rw [hexec, popSreg, State.popRead, hw, error_bind] at hnext
    obtain rfl := eq_hung_of_error hnext
    exact ⟨fun _ _ => rfl, fun _ => rfl, fun _ _ => rfl, ⟨rfl, rfl, rfl, rfl⟩, ⟨rfl, rfl⟩, fun _ _ _ _ => rfl⟩
  | ok w =>
    obtain ⟨hregs, hframe⟩ := (eachLoad_runs.2.1 s h w hw _ (hform h)).frame hnext
    refine ⟨keepsRegsBut_of_set hregs, fun hb => ?_, hframe.sregs, hframe.tables, hframe.mode, fun w' hw' => ?_⟩
    · rcases hregs with hregs | hregs
      · rw [hregs]
      · rw [hregs]; exact espPlus_high s _ hb
    · cases hw'
      exact hframe.mem

/-- Settles O43: each pop is one of the five forms. -/
theorem popsFrame : Obligations.PopsFrame :=
  ⟨popFrame_of_form (fun _ _ => rfl) (by simp), popFrame_of_form (fun _ _ => rfl) (by simp),
    popFrame_of_form (fun _ _ => rfl) (by simp), popFrame_of_form (fun _ _ => rfl) (by simp),
    popFrame_of_form (fun _ _ => rfl) (by simp)⟩

/-- The registers a far-pointer load leaves differ in the one it names. -/
theorem regsWith_eq_set (s : State) (z : Size) (r : Reg) (v : Word) : ∃ w, regsWith s z r v = s.regs.set r w := by
  cases z <;> exact ⟨_, rfl⟩

/-- The frame of a far-pointer load whose form is one of the five. -/
theorem farLoadFrame_of_form {mk : Head → Reg → Mem → Instr} {x : SReg}
    (hexec : ∀ h r m s, exec (mk h r m) s = farLoad h x r m (mk h r m).length s)
    (hform : ∀ h r m, (mk h r m, x) ∈ [(Instr.lds h r m, SReg.ds), (.les h r m, .es), (.lss h r m, .ss),
      (.lfs h r m, .fs), (.lgs h r m, .gs)]) : FarLoadFrame mk x := by
  intro s t h r m hnext
  cases hread : s.readFarPtr h m with
  | error e =>
    rw [hexec, farLoad, hread, error_bind] at hnext
    obtain rfl := eq_hung_of_error hnext
    exact ⟨fun _ _ => rfl, fun _ _ => rfl, ⟨rfl, rfl, rfl, rfl⟩, ⟨rfl, rfl⟩, fun _ _ _ _ _ => rfl⟩
  | ok p =>
    obtain ⟨sel, off⟩ := p
    obtain ⟨hregs, hframe⟩ := (eachLoad_runs.2.2 s h r m sel off hread _ (hform h r m)).frame hnext
    obtain ⟨w, hset⟩ := regsWith_eq_set s h.osz r off
    rw [hset] at hregs
    refine ⟨keepsRegsBut_of_set hregs, hframe.sregs, hframe.tables, hframe.mode, fun sel' off' hread' => ?_⟩
    cases hread'
    exact hframe.mem

/-- Settles O44: each far-pointer load is one of the five forms. -/
theorem farPointerLoadsFrame : Obligations.FarPointerLoadsFrame :=
  ⟨farLoadFrame_of_form (fun _ _ _ _ => rfl) (by simp), farLoadFrame_of_form (fun _ _ _ _ => rfl) (by simp),
    farLoadFrame_of_form (fun _ _ _ _ => rfl) (by simp), farLoadFrame_of_form (fun _ _ _ _ => rfl) (by simp),
    farLoadFrame_of_form (fun _ _ _ _ => rfl) (by simp)⟩

/-! ### Far transfers -/

theorem jumpFar_frame {s t : State} {sel : Half} {off : Word} (hnext : conclude s (s.jumpFar sel off) = .next t) :
    t.regs = s.regs ∧ LoadFrame s .cs sel t := by
  rcases conclude_next.mp hnext with ⟨u, hu, rfl⟩ | ⟨_, rfl⟩
  · obtain ⟨d, _, rfl⟩ := State.jumpFar_answer hu
    exact ⟨by simp, State.enterCommit_sreg_ne s _ _ off, by simp, by simp,
      fun a ha => State.setAccessed_read_ne s _ a ha⟩
  · exact ⟨rfl, .hung s .cs sel⟩

/-- Settles O46: a jump pushes nothing and its commit is the frame of a load of `CS`. -/
theorem farJumpsFrame : Obligations.FarJumpsFrame := by
  constructor
  · intro s t h sel off hnext
    obtain ⟨hregs, hframe⟩ := jumpFar_frame hnext
    exact ⟨hregs, hframe.sregs, hframe.tables, hframe.mode, hframe.mem⟩
  · intro s t h m hnext
    cases hread : s.readFarPtr h m with
    | error e =>
      rw [exec, execJmpMem, hread, error_bind] at hnext
      obtain rfl := eq_hung_of_error hnext
      exact ⟨rfl, fun _ _ => rfl, ⟨rfl, rfl, rfl, rfl⟩, ⟨rfl, rfl⟩, fun _ _ _ _ _ => rfl⟩
    | ok p =>
      rw [exec, execJmpMem, hread, ok_bind] at hnext
      obtain ⟨hregs, hframe⟩ := jumpFar_frame hnext
      refine ⟨hregs, hframe.sregs, hframe.tables, hframe.mode, fun sel off hread' => ?_⟩
      cases hread'
      exact hframe.mem

theorem callFar_frame {s t : State} {z : Size} {sel : Half} {off : Word} {len : Nat}
    (hnext : conclude s (s.callFar z sel off len) = .next t) : CallFrame s t z sel := by
  rcases conclude_next.mp hnext with ⟨u, hu, rfl⟩ | ⟨_, rfl⟩
  · obtain ⟨d, csTo, retTo, _, ⟨hcs, hret⟩, rfl⟩ := State.callFar_answer hu
    refine ⟨fun x hx => ?_, fun x hx => ?_, by simp, by simp, fun csTo' retTo' hcs' hret' a ha => ?_⟩
    · have hkept := State.setSp_reg_ne ((s.store csTo (s.pushedCs z).toNat).store retTo (s.pcPlus len).toNat)
        s.stackSize (s.spMinus (2 * sizeBytes z)) x hx
      simpa [State.reg] using hkept
    · have hkept := State.enterCommit_sreg_ne (((s.store csTo (s.pushedCs z).toNat).store retTo
        (s.pcPlus len).toNat).setSp s.stackSize (s.spMinus (2 * sizeBytes z))) (s.loadTarget sel)
        (loaded (forceRPL sel s.cpl) d) off x hx
      simpa [State.sreg] using hkept
    · cases hcs.symm.trans hcs'
      cases hret.symm.trans hret'
      simp only [not_or] at ha
      obtain ⟨hacs, haret, hatarget⟩ := ha
      refine (State.setAccessed_read_ne _ _ a hatarget).trans ?_
      rw [State.setSp_mem, State.store_read_not_mem _ _ _ _ haret, State.store_read_not_mem _ _ _ _ hacs]
  · exact ⟨fun _ _ => rfl, fun _ _ => rfl, ⟨rfl, rfl, rfl, rfl⟩, ⟨rfl, rfl⟩, fun _ _ _ _ _ _ => rfl⟩

/-- Settles O47: memory changes at the pushed slots and at the byte of the accessed bit. -/
theorem farCallsFrame : Obligations.FarCallsFrame := by
  refine ⟨fun s t h sel off hnext => callFar_frame hnext, fun s t h m hnext sel off hread => ?_⟩
  rw [exec, execCallMem, hread, ok_bind] at hnext
  exact callFar_frame hnext

theorem returnFar_frame {s t : State} {z : Size} {extra : Nat} (hnext : conclude s (s.returnFar z extra) = .next t) :
    ReturnFrame s t z := by
  rcases conclude_next.mp hnext with ⟨u, hu, rfl⟩ | ⟨_, rfl⟩
  · obtain ⟨off, w, d, _, hw, _, rfl⟩ := State.returnFar_answer hu
    refine ⟨fun x hx => ?_, fun x hx => ?_, by simp, by simp, fun w' hw' a ha => ?_⟩
    · have hkept := State.setSp_reg_ne s s.stackSize (s.spPlus (2 * sizeBytes z + extra)) x hx
      simpa [State.reg] using hkept
    · have hkept := State.enterCommit_sreg_ne (s.setSp s.stackSize (s.spPlus (2 * sizeBytes z + extra)))
        (s.loadTarget (BitVec.ofNat 16 w)) (loaded (BitVec.ofNat 16 w) d) (BitVec.ofNat 32 off) x hx
      simpa [State.sreg] using hkept
    · cases hw.symm.trans hw'
      exact (State.setAccessed_read_ne _ _ a ha).trans (by rw [State.setSp_mem])
  · exact ⟨fun _ _ => rfl, fun _ _ => rfl, ⟨rfl, rfl, rfl, rfl⟩, ⟨rfl, rfl⟩, fun _ _ _ _ => rfl⟩

/-- Settles O48: both forms are `returnFar`. -/
theorem farReturnsFrame : Obligations.FarReturnsFrame :=
  ⟨fun _ _ _ hnext => returnFar_frame hnext, fun _ _ _ _ hnext => returnFar_frame hnext⟩

/-! ### Stores -/

theorem StoreRuns.frame {mk : Head → RM → Instr} {sel : State → Half} (h : StoreRuns mk sel) :
    SelectorStoreFrame mk := by
  obtain ⟨hreg, hmem⟩ := h.stores
  refine ⟨fun s t hd r hnext => ?_, fun s t hd m hnext => ?_⟩
  · rw [hreg] at hnext
    cases hnext
    exact ⟨keepsRegsBut_of_set (.inr rfl), rfl, ⟨rfl, rfl, rfl, rfl⟩, ⟨rfl, rfl⟩, fun _ _ => rfl⟩
  · cases hpas : s.segWriteTo (segOf hd m) (s.ea m).toNat 2 with
    | error e =>
      rw [h, State.writeRm16, hpas, error_bind, error_bind] at hnext
      obtain rfl := eq_hung_of_error hnext
      exact ⟨rfl, rfl, ⟨rfl, rfl, rfl, rfl⟩, ⟨rfl, rfl⟩, fun _ _ _ _ => rfl⟩
    | ok pas =>
      rw [hmem s hd m pas hpas] at hnext
      cases hnext
      refine ⟨by simp, by simp, by simp, by simp, fun pas' hpas' a ha => ?_⟩
      cases hpas'
      exact State.store_read_not_mem s pas _ a ha

/-- Settles O45: the three are stores of a selector. -/
theorem selectorStoresFrame : Obligations.SelectorStoresFrame :=
  ⟨fun x => (movRmSreg_runs x).frame, sldt_runs.frame, str_runs.frame⟩

theorem storeTable_frame {s t : State} {h : Head} {m : Mem} {r : TableReg} {len : Nat}
    (hnext : storeTable h m r len s = .next t) :
    t.regs = s.regs ∧ t.seg = s.seg ∧ KeepsTables s t ∧ KeepsMode s t ∧
    ∀ limTo baseTo, s.segWriteTo (segOf h m) (s.ea m).toNat 2 = .ok limTo →
      s.segWriteTo (segOf h m) ((s.ea m).toNat + 2) 4 = .ok baseTo →
      KeepsMemBut (fun a => a ∈ limTo ∨ a ∈ baseTo) s t := by
  rcases conclude_next.mp hnext with ⟨u, hu, rfl⟩ | ⟨_, rfl⟩
  · obtain ⟨limTo, hlim, hu⟩ := bind_ok.mp hu
    obtain ⟨baseTo, hbase, hu⟩ := bind_ok.mp hu
    cases hu
    refine ⟨by simp, by simp, by simp, by simp, fun limTo' baseTo' hlim' hbase' a ha => ?_⟩
    cases hlim.symm.trans hlim'
    cases hbase.symm.trans hbase'
    simp only [not_or] at ha
    exact (State.store_read_not_mem _ _ _ _ ha.2).trans (State.store_read_not_mem _ _ _ _ ha.1)
  · exact ⟨rfl, rfl, ⟨rfl, rfl, rfl, rfl⟩, ⟨rfl, rfl⟩, fun _ _ _ _ _ _ => rfl⟩

/-- Settles O49: both are `storeTable`. -/
theorem pseudoDescriptorStoresFrame : Obligations.PseudoDescriptorStoresFrame := by
  rintro s t h m (hnext | hnext) <;> exact storeTable_frame hnext

/-! ### Loads of the table registers -/

/-- Settles O50: `LGDT`, `LIDT` and `LLDT` write one table register and move on. -/
theorem tableLoadsFrame : Obligations.TableLoadsFrame := by
  refine fun s t h => ⟨fun m hnext => ?_, fun m hnext => ?_, fun src hnext => ?_⟩ <;>
    rcases conclude_next.mp hnext with ⟨u, hu, rfl⟩ | ⟨_, rfl⟩
  case refine_1.inl =>
    obtain ⟨r, _, hu⟩ := bind_ok.mp hu
    cases hu
    exact ⟨rfl, rfl, rfl, rfl, rfl, ⟨rfl, rfl⟩, fun _ _ => rfl⟩
  case refine_2.inl =>
    obtain ⟨r, _, hu⟩ := bind_ok.mp hu
    cases hu
    exact ⟨rfl, rfl, rfl, rfl, rfl, ⟨rfl, rfl⟩, fun _ _ => rfl⟩
  case refine_3.inl =>
    obtain ⟨_, _, hu⟩ := bind_ok.mp hu
    obtain ⟨sel, _, hu⟩ := bind_ok.mp hu
    obtain ⟨v, hload, hu⟩ := bind_ok.mp hu
    cases hu
    rcases State.loadLdtr_ok.mp hload with ⟨_, rfl⟩ | ⟨_, _, r, _, _, _, rfl⟩ <;>
      exact ⟨rfl, rfl, rfl, rfl, rfl, ⟨rfl, rfl⟩, fun _ _ => rfl⟩
  all_goals exact ⟨rfl, rfl, rfl, rfl, rfl, ⟨rfl, rfl⟩, fun _ _ => rfl⟩

/-- Settles O51: `LTR` writes `TR` and the byte of the busy bit, if that byte is RAM. -/
theorem ltrFrame : Obligations.LtrFrame := by
  intro s t h src hnext
  rcases conclude_next.mp hnext with ⟨u, hu, rfl⟩ | ⟨_, rfl⟩
  · obtain ⟨_, _, hu⟩ := bind_ok.mp hu
    obtain ⟨sel, hsel, hu⟩ := bind_ok.mp hu
    obtain ⟨v, hload, hu⟩ := bind_ok.mp hu
    cases hu
    obtain ⟨_, _, r, pa, hread, _, _, hbusy, rfl⟩ := State.loadTr_ok.mp hload
    have htarget : s.busyTarget sel = some pa := by simp [State.busyTarget, hread, hbusy]
    refine ⟨by simp, by simp, by simp, by simp, by simp, by simp, fun sel' hsel' a ha => ?_⟩
    cases hsel.symm.trans hsel'
    exact State.storeByte_read_ne s pa a _ fun heq => ha (by rw [htarget, heq])
  · exact ⟨rfl, rfl, rfl, rfl, rfl, ⟨rfl, rfl⟩, fun _ _ _ _ => rfl⟩

end Sys2Proof.Machine
end

section
/-! A far `RET` after a far `CALL` of the same operand size (41 R183, R184): the stack pointer there and back, the two
slots, and what is read from them. -/

namespace Sys2Proof.Machine

/-! ### The stack pointer there and back -/

theorem State.truncSize_sp (s : State) : truncSize s.stackSize s.sp = s.sp := by
  unfold State.sp
  cases s.stackSize <;> exact Nat.mod_mod _ _

/-- Where the stack pointer does not wrap, the slots of a push lie below it. -/
theorem State.spMinus_of_le (s : State) {n : Nat} (hn : n ≤ s.sp) : s.spMinus n = s.sp - n := by
  have hsp := s.truncSize_sp
  unfold State.spMinus
  cases hz : s.stackSize <;> rw [hz] at hsp <;> simp only [truncSize] at hsp ⊢ <;> omega

/-- The stack pointer after it shrinks by `n`. -/
theorem truncSize_espMinus (s : State) {n : Nat} (hn : n ≤ s.sp) :
    truncSize s.stackSize (espMinus s n).toNat = s.sp - n := by
  have hesp := s.regs.esp.isLt
  unfold State.sp State.stackSize Desc.size at hn ⊢
  unfold espMinus
  cases hb : s.seg.ss.d.db with
  | true =>
    simp only [hb, if_true, truncSize, BitVec.toNat_sub, BitVec.toNat_ofNat] at hn ⊢
    omega
  | false =>
    have hlow : (s.regs.esp.setWidth 16 - BitVec.ofNat 16 n).toNat < 2 ^ 16 := BitVec.isLt _
    simp only [hb, Bool.false_eq_true, if_false, truncSize, BitVec.toNat_append] at hn ⊢
    rw [← Nat.shiftLeft_add_eq_or_of_lt hlow, Nat.shiftLeft_eq, BitVec.toNat_sub, BitVec.toNat_ofNat,
      BitVec.toNat_setWidth]
    omega

/-- A doubleword is its two halves. -/
theorem high_append_low (w : Word) : w.extractLsb' 16 16 ++ w.setWidth 16 = w := by
  apply BitVec.eq_of_getLsbD_eq
  intro i hi
  simp only [BitVec.getLsbD_append, BitVec.getLsbD_extractLsb', BitVec.getLsbD_setWidth]
  by_cases h : i < 16
  · simp [h]
  · simp [h, show i - 16 < 16 by omega, show 16 + (i - 16) = i by omega]

/-- Growing by what the stack pointer shrank by restores `ESP`. -/
theorem espPlus_espMinus {s t : State} {n : Nat} (hss : t.seg.ss = s.seg.ss) (hesp : t.regs.esp = espMinus s n) :
    espPlus t n = s.regs.esp := by
  have hhigh : ∀ a b : BitVec 16, (a ++ b : Word).extractLsb' 16 16 = a := fun _ _ =>
    BitVec.extractLsb'_append_eq_left
  have hlow : ∀ a b : BitVec 16, (a ++ b : Word).setWidth 16 = b := fun _ _ => BitVec.setWidth_append_eq_right
  rw [espPlus, hss, hesp, espMinus]
  cases s.seg.ss.d.db with
  | true => simp
  | false => simp [hhigh, hlow, high_append_low]

/-! ### The slots -/

theorem State.linAddr_add (s : State) (x : SReg) (off i : Nat) :
    s.linAddr x off + BitVec.ofNat 32 i = s.linAddr x (off + i) := by
  rw [State.linAddr, State.linAddr, BitVec.add_assoc, BitVec.ofNat_add]

/-- The addresses of `n` bytes at an offset of the stack segment. -/
def State.slot (s : State) (off n : Nat) : List Nat := (List.range n).map fun i => (s.linAddr .ss (off + i)).toNat

theorem State.slot_eq (s : State) (off n : Nat) :
    (List.range n).map (fun i => (s.linAddr .ss off + BitVec.ofNat 32 i).toNat) = s.slot off n := by
  simp only [State.slot, State.linAddr_add]

theorem State.slot_length (s : State) (off n : Nat) : (s.slot off n).length = n := by simp [State.slot]

theorem State.slot_nodup (s : State) (off : Nat) {n : Nat} (hn : n ≤ 2 ^ 32) : (s.slot off n).Nodup := by
  rw [← State.slot_eq]
  exact nodup_flat _ _ hn

/-- Two slots one above the other have no address in common. -/
theorem State.slot_disjoint (s : State) (off : Nat) {n a : Nat} (hn : 2 * n ≤ 2 ^ 32) (h : a ∈ s.slot (off + n) n) :
    a ∉ s.slot off n := by
  intro h'
  obtain ⟨i, hi, rfl⟩ := List.mem_map.mp h
  obtain ⟨j, hj, heq⟩ := List.mem_map.mp h'
  rw [List.mem_range] at hi hj
  have hbase := (s.sreg .ss).d.base.isLt
  simp only [State.linAddr, BitVec.toNat_add, BitVec.toNat_ofNat] at heq
  omega

/-- A read of a slot without paging. -/
theorem State.segRead_slot {t : State} (hp : t.par.paging = false) {off n v : Nat}
    (h : t.segRead .ss off n = .ok v) : v = leValue (t.readBytes .data (t.linAddr .ss off) (t.slot off n)) := by
  obtain ⟨la, haccess, h⟩ := bind_ok.mp h
  obtain ⟨_, _, rfl⟩ := State.segAccess_ok.mp haccess
  rw [State.linRead, State.translate_flat hp, ok_bind, State.slot_eq] at h
  cases h
  rfl

/-! ### What a far `CALL` leaves -/

/-- The stack after both pushes of a far `CALL` of length `len` (41 R183). -/
def State.pushed (s : State) (z : Size) (csTo retTo : List Nat) (len : Nat) : State :=
  (s.store csTo (s.pushedCs z).toNat).store retTo (s.pcPlus len).toNat

/-- A far `CALL` that does not hang: its pushes, its stack pointer, and memory but for the accessed bit. -/
theorem callFar_leaves {s t : State} {z : Size} {sel : Half} {off : Word} {len : Nat}
    (hnext : conclude s (s.callFar z sel off len) = .next t) (hhung : t.hung = false) :
    ∃ csTo retTo, CallPushes s z csTo retTo ∧ t.regs = { s.regs with esp := espMinus s (2 * sizeBytes z) } ∧
      t.seg.ss = s.seg.ss ∧ t.par = s.par ∧
      ∀ a, s.loadTarget sel ≠ some a → Memory.read t.mem a = Memory.read (s.pushed z csTo retTo len).mem a := by
  rcases conclude_next.mp hnext with ⟨u, hu, rfl⟩ | ⟨_, rfl⟩
  · obtain ⟨d, csTo, retTo, _, hpushes, rfl⟩ := State.callFar_answer hu
    have hsize : 2 * sizeBytes z ≤ 2 ^ 31 := by cases z <;> decide
    refine ⟨csTo, retTo, hpushes, ?_, by simp, by simp, fun a ha => ?_⟩
    · rw [State.setSp_spMinus _ s (by simp) _ hsize]
      simp
    · exact (State.setAccessed_read_ne _ _ a ha).trans (by rw [State.setSp_mem]; rfl)
  · cases hhung

/-- A far `RET` that does not hang: what it reads and what it restores. -/
theorem returnFar_leaves {t u : State} {z : Size} (hnext : conclude t (t.returnFar z 0) = .next u)
    (hhung : u.hung = false) :
    ∃ off w, t.segRead .ss t.sp (sizeBytes z) = .ok off ∧
      t.segRead .ss (t.spPlus (sizeBytes z)) (sizeBytes z) = .ok w ∧ u.pc = BitVec.ofNat 32 off ∧
      u.seg.cs.sel = BitVec.ofNat 16 w ∧ u.regs = { t.regs with esp := espPlus t (2 * sizeBytes z) } := by
  rcases conclude_next.mp hnext with ⟨v, hv, rfl⟩ | ⟨_, rfl⟩
  · obtain ⟨off, w, d, hoff, hw, _, rfl⟩ := State.returnFar_answer hv
    refine ⟨off, w, hoff, hw, rfl, by simp, ?_⟩
    rw [State.setSp_spPlus t t rfl]
    simp
  · cases hhung

/-- The low half of what is pushed for `CS` is its selector, whatever stands in the free half. -/
theorem ofNat_pushedCs (s : State) (z : Size) :
    BitVec.ofNat 16 ((s.pushedCs z).toNat % 256 ^ sizeBytes z) = s.seg.cs.sel := by
  have hsel := s.seg.cs.sel.isLt
  apply BitVec.eq_of_toNat_eq
  cases z with
  | s16 =>
    simp only [State.pushedCs, sizeBytes, BitVec.toNat_ofNat, BitVec.toNat_setWidth]
    omega
  | s32 =>
    simp only [State.pushedCs, sizeBytes, BitVec.toNat_ofNat, BitVec.toNat_append]
    rw [← Nat.shiftLeft_add_eq_or_of_lt hsel, Nat.shiftLeft_eq]
    omega

/-- What stands in the slots after the pushes, in RAM that the accessed bit does not lie in. -/
theorem pushed_slots {s t : State} {z : Size} {sel : Half} {len low : Nat} {csTo retTo : List Nat}
    (hcs : csTo = s.slot (low + sizeBytes z) (sizeBytes z)) (hret : retTo = s.slot low (sizeBytes z))
    (hram : ∀ a, a ∈ csTo ∨ a ∈ retTo → s.kindAt a = .ram ∧ s.loadTarget sel ≠ some a) (hpar : t.par = s.par)
    (hmem : ∀ a, s.loadTarget sel ≠ some a → Memory.read t.mem a = Memory.read (s.pushed z csTo retTo len).mem a)
    (la : Word) :
    leValue (t.readBytes .data la retTo) = (s.pcPlus len).toNat % 256 ^ sizeBytes z ∧
    leValue (t.readBytes .data la csTo) = (s.pushedCs z).toNat % 256 ^ sizeBytes z := by
  have hn : 2 * sizeBytes z ≤ 2 ^ 32 := by cases z <;> decide
  have hkind : ∀ a, (s.store csTo (s.pushedCs z).toNat).kindAt a = s.kindAt a :=
    State.kindAt_congr s _ (by simp)
  have hpushedPar : (s.pushed z csTo retTo len).par = s.par := by simp [State.pushed]
  constructor
  · have hread : t.readBytes .data la retTo = (s.pushed z csTo retTo len).readBytes .data la retTo := by
      refine State.readBytes_congr _ _ _ (hpar.trans hpushedPar.symm) _ (fun a ha => ?_)
        (fun a ha => hmem a (hram a (.inr ha)).2) la
      rw [State.kindAt_congr s _ hpushedPar]
      exact (hram a (.inr ha)).1
    rw [hread, State.pushed, State.leValue_readBytes_store _ _ _ _ (hret ▸ s.slot_nodup _ (by omega))
      (fun a ha => (hkind a).trans (hram a (.inr ha)).1), hret, State.slot_length]
  · have hread : t.readBytes .data la csTo = (s.store csTo (s.pushedCs z).toNat).readBytes .data la csTo := by
      refine State.readBytes_congr _ _ _ (by simpa using hpar) _ (fun a ha => (hkind a).trans (hram a (.inl ha)).1)
        (fun a ha => ?_) la
      have hapart : a ∉ retTo := by subst hcs hret; exact s.slot_disjoint low hn ha
      rw [hmem a (hram a (.inl ha)).2, State.pushed, State.store_read_not_mem _ _ _ _ hapart]
    rw [hread, State.leValue_readBytes_store _ _ _ _ (hcs ▸ s.slot_nodup _ (by omega)) (fun a ha => (hram a (.inl ha)).1),
      hcs, State.slot_length]

/-- The round trip of any far call that runs as `callFar`. -/
theorem callComesBack_of_run {i : Instr} {h : Head} {s : State} {sel : Half} {off : Word}
    (hrun : exec i s = conclude s (s.callFar h.osz sel off i.length)) : CallComesBack i h s sel := by
  intro t u h' hosz hp hsp hslots hcall hthung hreturn huhung
  rw [hrun] at hcall
  rw [exec, execRetf, hosz] at hreturn
  obtain ⟨csTo, retTo, ⟨hcs, hret⟩, hregs, hss, hpar, hmem⟩ := callFar_leaves hcall hthung
  obtain ⟨offset, w, hoff, hw, hpc, hsel, hregs'⟩ := returnFar_leaves hreturn huhung
  generalize hn : sizeBytes h.osz = n at *
  have hlow : s.spMinus (2 * n) = s.sp - 2 * n := s.spMinus_of_le hsp
  have hhigh : s.spMinus n = s.sp - 2 * n + n := by rw [s.spMinus_of_le (by omega)]; omega
  have hsreg : t.sreg .ss = s.sreg .ss := hss
  have hsize : t.stackSize = s.stackSize := by rw [State.stackSize, hss]; rfl
  have htsp : t.sp = s.sp - 2 * n := by rw [State.sp, hregs, hsize]; exact truncSize_espMinus s hsp
  have htspPlus : t.spPlus n = s.sp - 2 * n + n := by
    have hnowrap := s.truncSize_sp
    rw [State.spPlus, htsp, hsize]
    cases hz : s.stackSize <;> rw [hz] at hnowrap <;> simp only [truncSize] at hnowrap ⊢ <;> omega
  have hslot : ∀ off m, t.slot off m = s.slot off m := fun off m => by simp only [State.slot, State.linAddr, hsreg]
  have hcsTo : csTo = s.slot (s.sp - 2 * n + n) n := by
    rw [(State.segWriteTo_flat hp hcs).2.1, State.slot_eq, hhigh]
  have hretTo : retTo = s.slot (s.sp - 2 * n) n := by
    rw [(State.segWriteTo_flat hp hret).2.1, State.slot_eq, hlow]
  have hram : ∀ a, a ∈ csTo ∨ a ∈ retTo → s.kindAt a = .ram ∧ s.loadTarget sel ≠ some a := by
    rintro a (ha | ha)
    · rw [hcsTo] at ha
      obtain ⟨k, hk, rfl⟩ := List.mem_map.mp ha
      rw [Nat.add_assoc]
      exact hslots (n + k) (by rw [List.mem_range] at hk; omega)
    · rw [hretTo] at ha
      obtain ⟨k, hk, rfl⟩ := List.mem_map.mp ha
      exact hslots k (by rw [List.mem_range] at hk; omega)
  subst hn
  have hvalues := pushed_slots hcsTo hretTo hram hpar hmem
  have htp : t.par.paging = false := by rw [hpar, hp]
  have hoffset : offset = (s.pcPlus i.length).toNat % 256 ^ sizeBytes h.osz := by
    rw [State.segRead_slot htp hoff, hslot, htsp, ← hretTo, (hvalues _).1]
  have hword : w = (s.pushedCs h.osz).toNat % 256 ^ sizeBytes h.osz := by
    rw [State.segRead_slot htp hw, hslot, htspPlus, ← hcsTo, (hvalues _).2]
  refine ⟨?_, by rw [hsel, hword, ofNat_pushedCs], ?_⟩
  · have hsmall := (s.pcPlus i.length).isLt
    have hle := Nat.mod_le (s.pcPlus i.length).toNat (256 ^ sizeBytes h.osz)
    rw [hpc, hoffset, BitVec.toNat_ofNat, Nat.mod_eq_of_lt (by omega)]
  · rw [hregs', hregs, espPlus_espMinus hss (by rw [hregs])]

/-- Settles O34: both forms of far `CALL` run as `callFar`, whose slots the return reads. -/
theorem callThenReturnComesBack : Obligations.CallThenReturnComesBack := by
  refine ⟨fun s h sel off => callComesBack_of_run rfl, fun s h m sel off hread => callComesBack_of_run (off := off) ?_⟩
  rw [exec, execCallMem, hread, ok_bind]

end Sys2Proof.Machine
end
